-- ==== Sys2Proof/Word.lean ====
section
/-! DEFINITION. The one word type of the block. Every value it moves on the wire is a byte (00_scope.md R9). -/

namespace Sys2Proof

/-- A byte of the wire (00_scope.md R10, R15). -/
abbrev Byte := BitVec 8

/-- The header byte of every packet (30_encoding.md R82). -/
abbrev headerByte : Byte := 0xFF#8

end Sys2Proof
end

