-- ==== Sys2Proof/Syntax.lean ====
section
/-! DEFINITION. The closed vocabularies of the spec (user values, errors, refusal and fault reasons, registers'
definitions) and the instruction syntax: one constructor of `Instr` per row of spec/opcode_table.json. -/

namespace Sys2Proof

/-- A real number `rat + pi · π` with rational parts. The block's own reals have this form: the scales are rational
multiples of π, and every other factor is rational (42_control_table.md R172, R186). -/
structure PiNum where
  /-- the rational part -/
  rat : Rat
  /-- the coefficient of π -/
  pi : Rat
deriving DecidableEq, Repr

/-- An exact real as a caller gives it (00_scope.md R9, 10_state.md R30 `num(x)`, 42_control_table.md R196): one written out
as `q + p·π`, or any real at all under a name. Which real a name stands for is `Config.userReal`. DESIGN CHOICE, log 4. -/
inductive UserReal where
  | exact (x : PiNum)
  | named (n : Nat)
deriving DecidableEq, Repr

/-- The operating modes of a servo (10_state.md R30, 42_control_table.md R174). -/
inductive ServoMode where
  | position | velocity | pwm | step
  /-- the distinguished variant of R174: any raw value above 3 -/
  | unknown
deriving DecidableEq, Repr

/-- The eight baud rates of the closed mapping (42_control_table.md R176, D30). -/
inductive Baud where
  | b1000000 | b500000 | b250000 | b128000 | b115200 | b76800 | b57600 | b38400
deriving DecidableEq, Repr

/-- A value in user units (10_state.md R30). -/
inductive UserValue where
  | int (z : Int)
  | num (x : UserReal)
  | flag (b : Bool)
  | mode (m : ServoMode)
  | baud (r : Baud)
deriving DecidableEq, Repr

/-- The closed set of conversions (10_state.md R35, 42_control_table.md R173). `scale f` holds the positive factor. -/
inductive Conversion where
  | none | bool
  | scale (f : Rat)
  | position | speed | speedSigned | loadSigned | positionOffset | mode | baudRate
deriving DecidableEq, Repr

/-- The triple `(address, byte_length, conversion)` (10_state.md R35). -/
structure RegisterDef where
  address : Nat
  length : Nat
  conversion : Conversion
deriving DecidableEq, Repr

/-- The reference by which a transactor names its control table (10_state.md R24, R34). The STS3215 record is the
only value the spec admits. DEDUCED, log 18. -/
inductive ServoModel where
  | sts3215
deriving DecidableEq, Repr

/-- The five error conditions a status byte can flag, in ascending bit order (43_status.md R210). -/
inductive StatusError where
  | voltageError | sensorError | temperatureError | currentError | overloadError
deriving DecidableEq, Repr

/-- The transport's own errors: `timeout`, or any other, told apart by a code (60_exceptions.md R270 codes 7 and 8,
D22). The code stands for the OPEN type `TransportError`. DESIGN CHOICE, log 8. -/
inductive TransportError where
  | timeout
  | other (code : Nat)
deriving DecidableEq, Repr

/-- The closed error taxonomy (60_exceptions.md R270). -/
inductive Error where
  | noResponse | invalidChecksum | invalidHeader | incompletePacket | unknownRegister | partialRead
  /-- a transport error, returned verbatim (R273): codes 7 and 8 of R270 -/
  | transport (e : TransportError)
deriving DecidableEq, Repr

/-- The reasons of `REFUSED(reason)` (60_exceptions.md R280). -/
inductive RefuseReason where
  | closed | busy | idRange | broadcastNeedsReply | byteRange | packetTooLong | syncWriteLength
  | intWidth | signBitWidth | valueKind | modeUnknown | decodeLength
deriving DecidableEq, Repr

/-- The reasons of `FAULT(reason)` (60_exceptions.md R280). -/
inductive FaultReason where
  | replyLengthMismatch
deriving DecidableEq, Repr

/-- Why a pure function of the block gives no value: an error of the taxonomy, or a refusal (00_scope.md R16). -/
inductive Stop where
  | err (e : Error)
  | refuse (r : RefuseReason)
deriving DecidableEq, Repr

/-- The result of a pure function of the block. -/
abbrev Checked (α : Type) := Except Stop α

/-- `DRAIN_ERROR_POLICY` (00_scope.md R8, 44_transactor.md R228). -/
inductive DrainPolicy where
  | discard | surface
deriving DecidableEq, Repr

/-- Whether an operation applies the register's conversion (00_scope.md R17 "Converted / raw mode"). -/
inductive View where
  | converted | raw
deriving DecidableEq, Repr

/-- What a READ or SYNC_READ reads: a register by name (30_encoding.md R96), or the address and length of the raw
packet builder (R95; log 1). -/
inductive ReadForm where
  | named (name : String) (view : View)
  | addressed (addr len : Int)
deriving DecidableEq, Repr

/-- What a WRITE writes: a register by name and a user value, or an address and data bytes as the raw builder takes
them (30_encoding.md R95, R96; log 1). -/
inductive WriteForm where
  | named (name : String) (value : UserValue) (view : View)
  | addressed (addr : Int) (data : List Int)
deriving DecidableEq, Repr

/-- What a REG_WRITE writes. The operation by name has no view: it is always converted (44_transactor.md R231, D28). -/
inductive RegWriteForm where
  | named (name : String) (value : UserValue)
  | addressed (addr : Int) (data : List Int)
deriving DecidableEq, Repr

/-- What a SYNC_WRITE writes, a list of servo IDs each with its own value or data (44_transactor.md R233,
41_packet_codec.md R148). -/
inductive SyncWriteForm where
  | named (name : String) (pairs : List (Int × UserValue)) (view : View)
  | addressed (addr len : Int) (pairs : List (Int × List Int))
deriving DecidableEq, Repr

/-- The nine instructions, one constructor per row of spec/opcode_table.json, with the arguments of the transactor
operation that sends it (44_transactor.md R225 to R234). IDs, addresses and lengths are the caller's integers, so that
the range checks of 41_packet_codec.md R140 have something to refuse. -/
inductive Instr where
  /-- PING, R141, R225 -/
  | ping (id : Int)
  /-- READ, R142, R226 -/
  | read (id : Int) (target : ReadForm)
  /-- WRITE, R143, R227. `awaited` is the operation's `await?`. -/
  | write (id : Int) (form : WriteForm) (awaited : Bool)
  /-- REG_WRITE, R144, R231 -/
  | regWrite (id : Int) (form : RegWriteForm)
  /-- ACTION, R145, R232. The operation `action()` is `action 0xFE`, the only one the transactor sends (R87, log 12). -/
  | action (id : Int)
  /-- RECOVERY, R146, R229 -/
  | recovery (id : Int)
  /-- RESET, R147, R230 -/
  | reset (id : Int)
  /-- SYNC_READ, R149, R234 -/
  | syncRead (ids : List Int) (target : ReadForm)
  /-- SYNC_WRITE, R148, R233 -/
  | syncWrite (form : SyncWriteForm)
deriving DecidableEq, Repr

/-- What `Transport.write` answers, and the milliseconds that pass in it (00_scope.md R14, log 3). -/
inductive WriteEvent where
  | ok (elapsed : Nat)
  | error (e : TransportError) (elapsed : Nat)
deriving DecidableEq, Repr, Inhabited

/-- What `Transport.read` answers, and the milliseconds until it would, of which the call waits no more than it was asked
to (00_scope.md R14, log 3). `data []` is a chunk wait that elapsed (60_exceptions.md R273). -/
inductive ReadEvent where
  | data (bytes : List Byte) (elapsed : Nat)
  | error (e : TransportError) (elapsed : Nat)
deriving DecidableEq, Repr, Inhabited

end Sys2Proof
end

