-- ==== Sys2Proof/Machine/Real.lean ====
section
/-! DEFINITION. Exact real arithmetic (00_scope.md R9, 42_control_table.md R196). Numbers `q + p·π` are compared exactly:
Machin's formula encloses π as tightly as a comparison needs, and since π is irrational some enclosure decides it. Any
other real is known by its place among these numbers. -/

namespace Sys2Proof

namespace Machine

/-- The real number that `q + p·π` is. -/
noncomputable def realOf (x : PiNum) : ℝ := (x.rat : ℝ) + (x.pi : ℝ) * Real.pi

/-! ## Enclosures of π -/

/-- The n-th partial sum of the arctangent series. -/
def arctanSum (x : Rat) : Nat → Rat
  | 0 => 0
  | n + 1 => arctanSum x n + (-1) ^ n * (x ^ (2 * n + 1) / (2 * n + 1))

/-- The lower end of the n-th enclosure of π, about 2.8 decimal digits a step. -/
def piBelow (n : Nat) : Rat := 16 * arctanSum (1 / 5) (2 * n) - 4 * arctanSum (1 / 239) (2 * n + 1)

/-- The upper end of the n-th enclosure of π. -/
def piAbove (n : Nat) : Rat := 16 * arctanSum (1 / 5) (2 * n + 1) - 4 * arctanSum (1 / 239) (2 * n)

theorem arctanSum_cast (x : Rat) (n : Nat) :
    ((arctanSum x n : Rat) : ℝ) = ∑ i ∈ Finset.range n, (-1 : ℝ) ^ i * ((x : ℝ) ^ (2 * i + 1) / ((2 * i + 1 : ℕ) : ℝ)) := by
  induction n with
  | zero => simp [arctanSum]
  | succ n ih => rw [arctanSum, Finset.sum_range_succ, ← ih]; push_cast; ring

theorem arctan_term_antitone {x : ℝ} (h0 : 0 ≤ x) (h1 : x < 1) :
    Antitone fun i : Nat => x ^ (2 * i + 1) / ((2 * i + 1 : ℕ) : ℝ) := by
  intro i j hij
  have hp : x ^ (2 * j + 1) ≤ x ^ (2 * i + 1) := pow_le_pow_of_le_one h0 h1.le (by omega)
  have hd : ((2 * i + 1 : ℕ) : ℝ) ≤ ((2 * j + 1 : ℕ) : ℝ) := by exact_mod_cast (by omega : 2 * i + 1 ≤ 2 * j + 1)
  exact div_le_div₀ (pow_nonneg h0 _) hp (by positivity) hd

theorem arctanSum_tendsto {x : Rat} (h0 : 0 ≤ x) (h1 : x < 1) :
    Filter.Tendsto (fun n => ((arctanSum x n : Rat) : ℝ)) Filter.atTop (nhds (Real.arctan (x : ℝ))) := by
  have h0' : (0 : ℝ) ≤ (x : ℝ) := by exact_mod_cast h0
  have h1' : (x : ℝ) < 1 := by exact_mod_cast h1
  have h := (Real.hasSum_arctan (x := (x : ℝ)) (by rw [Real.norm_of_nonneg h0']; exact h1')).tendsto_sum_nat
  refine h.congr fun n => ?_
  rw [arctanSum_cast]
  exact Finset.sum_congr rfl fun i _ => by ring

theorem arctanSum_even_le {x : Rat} (h0 : 0 ≤ x) (h1 : x < 1) (k : Nat) :
    ((arctanSum x (2 * k) : Rat) : ℝ) ≤ Real.arctan (x : ℝ) := by
  have h := arctanSum_tendsto h0 h1
  simp only [arctanSum_cast] at h ⊢
  exact (arctan_term_antitone (by exact_mod_cast h0) (by exact_mod_cast h1)).alternating_series_le_tendsto h k

theorem le_arctanSum_odd {x : Rat} (h0 : 0 ≤ x) (h1 : x < 1) (k : Nat) :
    Real.arctan (x : ℝ) ≤ ((arctanSum x (2 * k + 1) : Rat) : ℝ) := by
  have h := arctanSum_tendsto h0 h1
  simp only [arctanSum_cast] at h ⊢
  exact (arctan_term_antitone (by exact_mod_cast h0) (by exact_mod_cast h1)).tendsto_le_alternating_series h k

/-- Machin's formula. -/
theorem machin : Real.pi = 16 * Real.arctan ((1 / 5 : Rat) : ℝ) - 4 * Real.arctan ((1 / 239 : Rat) : ℝ) := by
  have h := Real.four_mul_arctan_inv_5_sub_arctan_inv_239
  push_cast
  rw [one_div, one_div]
  linarith

theorem piBelow_le (n : Nat) : ((piBelow n : Rat) : ℝ) ≤ Real.pi := by
  have h5 := arctanSum_even_le (x := 1 / 5) (by norm_num) (by norm_num) n
  have h239 := le_arctanSum_odd (x := 1 / 239) (by norm_num) (by norm_num) n
  rw [machin, piBelow]
  push_cast at h5 h239 ⊢
  linarith

theorem le_piAbove (n : Nat) : Real.pi ≤ ((piAbove n : Rat) : ℝ) := by
  have h5 := le_arctanSum_odd (x := 1 / 5) (by norm_num) (by norm_num) n
  have h239 := arctanSum_even_le (x := 1 / 239) (by norm_num) (by norm_num) n
  rw [machin, piAbove]
  push_cast at h5 h239 ⊢
  linarith

theorem even_tendsto : Filter.Tendsto (fun n : Nat => 2 * n) Filter.atTop Filter.atTop :=
  Filter.tendsto_atTop_mono (f := id) (fun n => by simp only [id]; omega) Filter.tendsto_id

theorem odd_tendsto : Filter.Tendsto (fun n : Nat => 2 * n + 1) Filter.atTop Filter.atTop :=
  Filter.tendsto_atTop_mono (f := id) (fun n => by simp only [id]; omega) Filter.tendsto_id

theorem piBelow_tendsto : Filter.Tendsto (fun n => ((piBelow n : Rat) : ℝ)) Filter.atTop (nhds Real.pi) := by
  rw [machin]
  have h5 := (arctanSum_tendsto (x := 1 / 5) (by norm_num) (by norm_num)).comp even_tendsto
  have h239 := (arctanSum_tendsto (x := 1 / 239) (by norm_num) (by norm_num)).comp odd_tendsto
  exact ((h5.const_mul 16).sub (h239.const_mul 4)).congr fun n => by simp [piBelow]

theorem piAbove_tendsto : Filter.Tendsto (fun n => ((piAbove n : Rat) : ℝ)) Filter.atTop (nhds Real.pi) := by
  rw [machin]
  have h5 := (arctanSum_tendsto (x := 1 / 5) (by norm_num) (by norm_num)).comp odd_tendsto
  have h239 := (arctanSum_tendsto (x := 1 / 239) (by norm_num) (by norm_num)).comp even_tendsto
  exact ((h5.const_mul 16).sub (h239.const_mul 4)).congr fun n => by simp [piAbove]

/-! ## The order of the numbers `q + p·π` -/

/-- Whether `0 ≤ x`, where the n-th enclosure of π decides it. -/
def signWith (x : PiNum) (n : Nat) : Option Bool :=
  let below := decide (0 ≤ x.rat + x.pi * piBelow n)
  if below = decide (0 ≤ x.rat + x.pi * piAbove n) then some below else none

theorem signWith_sound {x : PiNum} {n : Nat} {b : Bool} (h : signWith x n = some b) : b = true ↔ 0 ≤ realOf x := by
  have h1 := piBelow_le n
  have h2 := le_piAbove n
  simp only [signWith] at h
  split at h
  · next he =>
    cases h
    by_cases ha : 0 ≤ x.rat + x.pi * piBelow n
    · have hb : 0 ≤ x.rat + x.pi * piAbove n := by simpa [ha] using he.symm
      have ha' : (0 : ℝ) ≤ x.rat + x.pi * piBelow n := by exact_mod_cast ha
      have hb' : (0 : ℝ) ≤ x.rat + x.pi * piAbove n := by exact_mod_cast hb
      simp only [ha, decide_true, true_iff, realOf]
      rcases le_total (0 : ℝ) x.pi with hp | hp <;> nlinarith
    · have hb : ¬0 ≤ x.rat + x.pi * piAbove n := by simpa [ha] using he.symm
      have ha' : x.rat + x.pi * piBelow n < (0 : ℝ) := by exact_mod_cast not_le.1 ha
      have hb' : x.rat + x.pi * piAbove n < (0 : ℝ) := by exact_mod_cast not_le.1 hb
      simp only [ha, decide_false, Bool.false_eq_true, false_iff, not_le, realOf]
      rcases le_total (0 : ℝ) x.pi with hp | hp <;> nlinarith
  · cases h

/-- Some enclosure of π decides the sign: with `p ≠ 0` the number is not 0, since π is irrational. -/
theorem exists_signWith (x : PiNum) : ∃ n, (signWith x n).isSome = true := by
  by_cases hp : x.pi = 0
  · exact ⟨0, by simp [signWith, hp]⟩
  have hne : realOf x ≠ 0 := by
    intro h
    have hp' : (x.pi : ℝ) ≠ 0 := by exact_mod_cast hp
    simp only [realOf] at h
    exact irrational_pi ⟨-x.rat / x.pi, by push_cast; field_simp; linarith⟩
  have below := (piBelow_tendsto.const_mul (x.pi : ℝ)).const_add (x.rat : ℝ)
  have above := (piAbove_tendsto.const_mul (x.pi : ℝ)).const_add (x.rat : ℝ)
  rcases lt_or_gt_of_ne hne with h | h
  · obtain ⟨n, h1, h2⟩ := ((below.eventually (gt_mem_nhds h)).and (above.eventually (gt_mem_nhds h))).exists
    have h1' : x.rat + x.pi * piBelow n < 0 := by exact_mod_cast h1
    have h2' : x.rat + x.pi * piAbove n < 0 := by exact_mod_cast h2
    exact ⟨n, by simp [signWith, not_le.2 h1', not_le.2 h2']⟩
  · obtain ⟨n, h1, h2⟩ := ((below.eventually (lt_mem_nhds h)).and (above.eventually (lt_mem_nhds h))).exists
    have h1' : 0 < x.rat + x.pi * piBelow n := by exact_mod_cast h1
    have h2' : 0 < x.rat + x.pi * piAbove n := by exact_mod_cast h2
    exact ⟨n, by simp [signWith, h1'.le, h2'.le]⟩

/-- The sign by the first of `k` enclosures, from the n-th on, that decides it. -/
def firstSign (x : PiNum) : Nat → Nat → Option Bool
  | 0, _ => none
  | k + 1, n =>
    match signWith x n with
    | some b => some b
    | none => firstSign x k (n + 1)

theorem firstSign_sound {x : PiNum} {b : Bool} : ∀ {k n : Nat}, firstSign x k n = some b → (b = true ↔ 0 ≤ realOf x)
  | 0, _, h => by cases h
  | k + 1, n, h => by
    simp only [firstSign] at h
    split at h
    · next hs => cases h; exact signWith_sound hs
    · exact firstSign_sound h

/-- Whether `0 ≤ q + p·π`, exactly. The first hundred enclosures are tried one by one, which the kernel can evaluate; numbers
closer to 0 take the least enclosure that decides. -/
def isNonneg (x : PiNum) : Bool :=
  match firstSign x 100 1 with
  | some b => b
  | none => (signWith x (Nat.find (exists_signWith x))).getD false

theorem isNonneg_iff (x : PiNum) : isNonneg x = true ↔ 0 ≤ realOf x := by
  unfold isNonneg
  split
  · next h => exact firstSign_sound h
  · obtain ⟨b, hb⟩ := Option.isSome_iff_exists.1 (Nat.find_spec (exists_signWith x))
    rw [hb]
    exact signWith_sound hb

/-- `a ≤ b`. -/
def piLe (a b : PiNum) : Bool := isNonneg ⟨b.rat - a.rat, b.pi - a.pi⟩

theorem piLe_iff (a b : PiNum) : piLe a b = true ↔ realOf a ≤ realOf b := by
  rw [piLe, isNonneg_iff, ← sub_nonneg (b := realOf a)]
  simp only [realOf]
  push_cast
  ring_nf

/-- An integer read as the real it is (42_control_table.md R178, D45). -/
def piInt (z : Int) : PiNum := ⟨(z : Rat), 0⟩

/-- `k · x`. -/
def piScale (k : Rat) (x : PiNum) : PiNum := ⟨k * x.rat, k * x.pi⟩

/-- A bound on the magnitude of `q + p·π`. -/
def piBound (x : PiNum) : Nat := x.rat.num.natAbs + 4 * x.pi.num.natAbs

theorem abs_rat_le (q : Rat) : |(q : ℝ)| ≤ (q.num.natAbs : ℝ) := by
  rw [Rat.cast_def, abs_div, Nat.cast_natAbs, Int.cast_abs]
  refine div_le_self (abs_nonneg _) ?_
  rw [Nat.abs_cast]
  exact_mod_cast q.den_pos

theorem abs_realOf_le (x : PiNum) : |realOf x| ≤ (piBound x : ℝ) := by
  have h1 := abs_rat_le x.rat
  have h2 := abs_rat_le x.pi
  calc |realOf x| ≤ |(x.rat : ℝ)| + |(x.pi : ℝ) * Real.pi| := abs_add_le _ _
    _ = |(x.rat : ℝ)| + |(x.pi : ℝ)| * Real.pi := by rw [abs_mul, abs_of_pos Real.pi_pos]
    _ ≤ (x.rat.num.natAbs : ℝ) + (x.pi.num.natAbs : ℝ) * 4 :=
      add_le_add h1 (mul_le_mul h2 Real.pi_le_four Real.pi_pos.le (Nat.cast_nonneg _))
    _ = (piBound x : ℝ) := by simp only [piBound]; push_cast; ring

end Machine

open Machine

/-- A real number by its place among the numbers `q + p·π`, with a bound. Every real has one
(`Obligations.RoundingIsNearestTiesAway`). The values given here are those of 0. DESIGN CHOICE, log 5. -/
structure RealCut where
  /-- `a ≤ x` -/
  isGe : PiNum → Bool := fun a => piLe a (piInt 0)
  /-- `x ≤ a` -/
  isLe : PiNum → Bool := fun a => piLe (piInt 0) a
  bound : Nat := piBound (piInt 0)
  /-- there is a real with this place -/
  real : ∃ x : ℝ, |x| ≤ (bound : ℝ) ∧ ∀ a, (isGe a = true ↔ realOf a ≤ x) ∧ (isLe a = true ↔ x ≤ realOf a) := by
    exact ⟨_, abs_realOf_le _, fun a => ⟨piLe_iff a _, piLe_iff _ a⟩⟩
deriving Inhabited

namespace Machine

/-- The real a cut is the place of. -/
noncomputable def realOfCut (c : RealCut) : ℝ := Classical.choose c.real

/-- The place of a number `q + p·π`. -/
def cutOf (x : PiNum) : RealCut where
  isGe a := piLe a x
  isLe a := piLe x a
  bound := piBound x
  real := ⟨_, abs_realOf_le x, fun a => ⟨piLe_iff a x, piLe_iff x a⟩⟩

end Machine

end Sys2Proof
end

