-- ==== Sys2Proof/Config.lean ====
section
/-! DEFINITION. The fixed values of 00_scope.md R8, and the free values: constants without a body, of which nothing can
be proved. The OPEN parameters TIMEOUT_MS, MODE_UNKNOWN_RAW and DRAIN_ERROR_POLICY are fields of State. -/

namespace Sys2Proof

/-- `ID_MAX` (R8): IDs are 0..254. -/
abbrev Config.idMax : Int := 254

/-- `BROADCAST_ID` (R8, 20_memory.md R63). -/
abbrev Config.broadcastId : Int := 254

/-- `CHUNK_MS` (R8, 90_conflicts.md C9, D39). -/
abbrev Config.chunkMs : Nat := 10

/-- `MAX_PARAMS` (R8): LEN is one byte, so at most 253 parameter bytes. -/
abbrev Config.maxParams : Nat := 253

/-- `BAUD`, the default at open time (R8). -/
abbrev Config.defaultBaud : Nat := 1000000

/-- FREE VALUE, log 3. What the environment answers to the n-th `Transport.write` that no script of State answers. -/
opaque Config.transportWrite : Nat → WriteEvent

/-- FREE VALUE, log 3. What the environment answers to the n-th `Transport.read` that no script of State answers. -/
opaque Config.transportRead : Nat → ReadEvent

/-- FREE VALUE, log 4. The real that the n-th name of a caller's reals stands for, with its place among the numbers
`q + p·π`: any real whatever (42_control_table.md R196). -/
opaque Config.userReal : Nat → RealCut

end Sys2Proof
end

