-- ==== Sys2Proof/Machine/Codec.lean ====
section
/-! DEFINITION. C1, the integer codec (40_integer_codec.md R120 to R127). Little-endian throughout (20_memory.md R53). -/

namespace Sys2Proof.Machine

/-- The integer widths of the block in bytes (00_scope.md R8 REG_LENGTHS). -/
def widthOk (n : Nat) : Bool := n == 1 || n == 2 || n == 4

/-- The `n` low bytes of `r`, least significant first (20_memory.md R53). -/
def bytesLE (r : Nat) : Nat → List Byte
  | 0 => []
  | n + 1 => BitVec.ofNat 8 r :: bytesLE (r / 256) n

/-- The unsigned value of bytes, least significant first: the sum in R121. -/
def uintLE : List Byte → Nat
  | [] => 0
  | b :: bs => b.toNat + 256 * uintLE bs

/-- **encode_uint(v, n)** (R120): truncation modulo 2^(8n), then little-endian. -/
def encodeUint (v : Int) (n : Nat) : Checked (List Byte) :=
  if widthOk n then .ok (bytesLE (v % (2 ^ (8 * n) : Nat)).toNat n) else .error (.refuse .intWidth)

/-- **decode_uint(bytes)** (R121). -/
def decodeUint (s : List Byte) : Checked Nat :=
  if widthOk s.length then .ok (uintLE s) else .error (.refuse .intWidth)

/-- The two's complement reading of an N-bit pattern: `sext_N` (00_scope.md R11). -/
def signExtend (n v : Nat) : Int :=
  if v.testBit (n - 1) then (v : Int) - (2 ^ n : Nat) else v

/-- **decode_int_signed(bytes)** (R122). -/
def decodeIntSigned (s : List Byte) : Checked Int :=
  match decodeUint s with
  | .ok u => .ok (signExtend (8 * s.length) u)
  | .error e => .error e

/-- The raw value of sign-magnitude encoding, before truncation: `(1<<b) | |v|` for a negative `v` (R123). -/
def signMagnitudeRaw (v : Int) (b : Nat) : Int :=
  if v < 0 then (((1 <<< b) ||| v.natAbs : Nat) : Int) else v

/-- **encode_sign_magnitude(v, b, n)** (R123). -/
def encodeSignMagnitude (v : Int) (b n : Nat) : Checked (List Byte) :=
  if 8 * n ≤ b then .error (.refuse .signBitWidth) else encodeUint (signMagnitudeRaw v b) n

/-- The value of a raw pattern with sign bit `b`. Bits above `b` are ignored (R124). -/
def signMagnitudeValue (raw b : Nat) : Int :=
  let m : Int := ((raw &&& ((1 <<< b) - 1) : Nat) : Int)
  if raw.testBit b then -m else m

/-- **decode_sign_magnitude(bytes, b)** (R124). R124 gives the check of `b` no place beside that of the length: where both
fail the model refuses as `int_width`. DESIGN CHOICE, log 25. -/
def decodeSignMagnitude (s : List Byte) (b : Nat) : Checked Int :=
  match decodeUint s with
  | .error e => .error e
  | .ok raw => if 8 * s.length ≤ b then .error (.refuse .signBitWidth) else .ok (signMagnitudeValue raw b)

end Sys2Proof.Machine
end

