-- ==== Sys2Proof/Machine/Numeric.lean ====
section
/-! DEFINITION. Rounding of exact quotients of exact reals (00_scope.md R12, 42_control_table.md R193, R196). -/

namespace Sys2Proof.Machine

/-- The place of a user's real. -/
def userCut : UserReal → RealCut
  | .exact x => cutOf x
  | .named n => Config.userReal n

/-- The greatest number that a predicate holds of, bit by bit from bit `k - 1` down, on top of the bits found so far. -/
def greatest (p : Nat → Bool) : Nat → Nat → Nat
  | 0, found => found
  | k + 1, found => if p (found + 2 ^ k) then greatest p k (found + 2 ^ k) else greatest p k found

/-- Enough bits for the magnitude of a rounded quotient. -/
def quotientBits (c : RealCut) (unit : PiNum) : Nat := Nat.log2 (((c.bound : Rat) / (unit.rat + unit.pi)).floor.toNat + 2) + 1

/-- `round(x / unit)` for a positive unit: the nearest integer, ties away from zero (00_scope.md R12). For `0 ≤ x` it is the
greatest `n` with `n - 1/2 ≤ x / unit`, which is `⌊x / unit + 1/2⌋`; else the negative of the same for `-x`. -/
def roundQuotient (c : RealCut) (unit : PiNum) : Int :=
  if c.isGe (piInt 0) then
    greatest (fun n => c.isGe (piScale ((n : Rat) - 1 / 2) unit)) (quotientBits c unit) 0
  else
    -(greatest (fun n => c.isLe (piScale (1 / 2 - (n : Rat)) unit)) (quotientBits c unit) 0 : Int)

end Sys2Proof.Machine
end

