-- ==== Sys2Proof/Machine/ControlTable.lean ====
section
/-! DEFINITION. C3, the control-table registry and the conversion pipeline (42_control_table.md R170 to R196), over the
STS3215 record of 20_memory.md R60. -/

namespace Sys2Proof.Machine

/-- A control-table record (10_state.md R34). The two scales are exact reals (42_control_table.md R172). -/
structure ControlTable where
  modelName : String
  stepsPerRevolution : Nat
  positionScale : PiNum
  speedScale : PiNum
  registers : List (String × RegisterDef)
deriving DecidableEq, Repr

/-- The registers of the STS3215 (20_memory.md R60): name, address, length, conversion. -/
def sts3215Registers : List (String × RegisterDef) :=
  [ ("firmware_version_main", ⟨0, 1, .none⟩),
    ("firmware_version_sub", ⟨1, 1, .none⟩),
    ("servo_version_main", ⟨3, 1, .none⟩),
    ("servo_version_sub", ⟨4, 1, .none⟩),
    ("id", ⟨5, 1, .none⟩),
    ("baud_rate", ⟨6, 1, .baudRate⟩),
    ("return_delay", ⟨7, 1, .none⟩),
    ("status_return_level", ⟨8, 1, .none⟩),
    ("min_angle_limit", ⟨9, 2, .position⟩),
    ("max_angle_limit", ⟨11, 2, .position⟩),
    ("max_temperature", ⟨13, 1, .none⟩),
    ("max_input_voltage", ⟨14, 1, .scale (mkRat 1 10)⟩),
    ("min_input_voltage", ⟨15, 1, .scale (mkRat 1 10)⟩),
    ("max_torque", ⟨16, 2, .scale (mkRat 1 1000)⟩),
    ("position_p_gain", ⟨21, 1, .none⟩),
    ("position_d_gain", ⟨22, 1, .none⟩),
    ("position_i_gain", ⟨23, 1, .none⟩),
    ("position_offset", ⟨31, 2, .positionOffset⟩),
    ("mode", ⟨33, 1, .mode⟩),
    ("torque_enable", ⟨40, 1, .bool⟩),
    ("acceleration", ⟨41, 1, .none⟩),
    ("goal_position", ⟨42, 2, .position⟩),
    ("goal_time", ⟨44, 2, .none⟩),
    ("goal_speed", ⟨46, 2, .speed⟩),
    ("torque_limit", ⟨48, 2, .scale (mkRat 1 1000)⟩),
    ("lock", ⟨55, 1, .bool⟩),
    ("present_position", ⟨56, 2, .position⟩),
    ("present_speed", ⟨58, 2, .speedSigned⟩),
    ("present_load", ⟨60, 2, .loadSigned⟩),
    ("present_voltage", ⟨62, 1, .scale (mkRat 1 10)⟩),
    ("present_temperature", ⟨63, 1, .none⟩),
    ("hardware_error_status", ⟨65, 1, .none⟩),
    ("moving", ⟨66, 1, .bool⟩),
    ("present_current", ⟨69, 2, .none⟩) ]

/-- The STS3215 record (20_memory.md R60, 42_control_table.md R172): `position_scale = 2π/4096`,
`speed_scale = 50 · position_scale`. -/
def sts3215 : ControlTable where
  modelName := "STS3215"
  stepsPerRevolution := 4096
  positionScale := ⟨0, mkRat 2 4096⟩
  speedScale := piScale 50 ⟨0, mkRat 2 4096⟩
  registers := sts3215Registers

/-- The record a transactor's reference stands for (10_state.md R24, R34). -/
def tableOf : ServoModel → ControlTable
  | .sts3215 => sts3215

/-- A definition is well formed (10_state.md R35): address in range, a length of 1, 2 or 4, a positive factor, and 2
bytes for every conversion with a sign bit. -/
def registerOk (d : RegisterDef) : Bool :=
  d.address ≤ 255 && widthOk d.length &&
    match d.conversion with
    | .scale f => 0 < f
    | .position | .speedSigned | .loadSigned | .positionOffset => d.length == 2
    | .none | .bool | .speed | .mode | .baudRate => true

/-- A table is well formed: unique keys and well formed definitions (10_state.md R34, R35). -/
def tableOk (t : ControlTable) : Bool :=
  decide (t.registers.map Prod.fst).Nodup && t.registers.all fun r => registerOk r.2

/-- The definition a name has, names compared exactly (R170, R171). -/
def findRegister (t : ControlTable) (name : String) : Option RegisterDef := t.registers.lookup name

/-- **lookup(name)** (R170). -/
def lookupRegister (t : ControlTable) (name : String) : Checked RegisterDef :=
  match findRegister t name with
  | some d => .ok d
  | none => .error (.err .unknownRegister)

/-- **raw_to_mode(r)** (R174). -/
def rawToMode : Nat → ServoMode
  | 0 => .position
  | 1 => .velocity
  | 2 => .pwm
  | 3 => .step
  | _ => .unknown

/-- **mode_to_raw(m)** (R175), with `MODE_UNKNOWN_RAW` as an argument. -/
def modeToRaw (unknownRaw : Option Byte) : ServoMode → Checked Nat
  | .position => .ok 0
  | .velocity => .ok 1
  | .pwm => .ok 2
  | .step => .ok 3
  | .unknown =>
    match unknownRaw with
    | some u => .ok u.toNat
    | none => .error (.refuse .modeUnknown)

/-- Bits per second of a baud rate (R176). -/
def bitsPerSecond : Baud → Nat
  | .b1000000 => 1000000
  | .b500000 => 500000
  | .b250000 => 250000
  | .b128000 => 128000
  | .b115200 => 115200
  | .b76800 => 76800
  | .b57600 => 57600
  | .b38400 => 38400

/-- **baud_rate_to_raw** (R176). -/
def baudToRaw : Baud → Nat
  | .b1000000 => 0
  | .b500000 => 1
  | .b250000 => 2
  | .b128000 => 3
  | .b115200 => 4
  | .b76800 => 5
  | .b57600 => 6
  | .b38400 => 7

/-- **raw_to_baud_rate** (R176): 1_000_000 on an unrecognised raw value. -/
def rawToBaud : Nat → Baud
  | 1 => .b500000
  | 2 => .b250000
  | 3 => .b128000
  | 4 => .b115200
  | 5 => .b76800
  | 6 => .b57600
  | 7 => .b38400
  | _ => .b1000000

/-- The sign bit of a sign-magnitude conversion (R177). -/
abbrev signBitPosition : Nat := 15
abbrev signBitSpeed : Nat := 15
abbrev signBitLoad : Nat := 10
abbrev signBitOffset : Nat := 11

/-- The factor of `load_signed`: 0.1 percent (R186). -/
def loadFactor : PiNum := ⟨mkRat 1 10, 0⟩

/-- The factor of `scale(f)` (R182). -/
def scaleFactor (f : Rat) : PiNum := ⟨f, 0⟩

/-- The factor of a conversion whose user unit is the raw step (R180, R187). -/
def oneStep : PiNum := piInt 1

/-- The real that an `int` or `num` value is, no other kind (R178). -/
def numericValue : UserValue → Option UserReal
  | .int z => some (.exact (piInt z))
  | .num x => some x
  | .flag _ | .mode _ | .baud _ => none

/-- Encodes a numeric value from its place among the numbers `q + p·π`, or refuses another kind (R178). -/
def encodeNumeric (v : UserValue) (enc : RealCut → Checked (List Byte)) : Checked (List Byte) :=
  match numericValue v with
  | some x => enc (userCut x)
  | none => .error (.refuse .valueKind)

/-- **encode_user** on a register's definition (R179 to R189). -/
def encodeConversion (t : ControlTable) (unknownRaw : Option Byte) (d : RegisterDef) (v : UserValue) :
    Checked (List Byte) :=
  match d.conversion with
  | .none => encodeNumeric v fun x => encodeUint (roundQuotient x oneStep) d.length
  | .bool =>
    match v with
    | .flag b => encodeUint (if b then 1 else 0) d.length
    | .int _ | .num _ | .mode _ | .baud _ => .error (.refuse .valueKind)
  | .scale f => encodeNumeric v fun x => encodeUint (roundQuotient x (scaleFactor f)) d.length
  | .position => encodeNumeric v fun x => encodeSignMagnitude (roundQuotient x t.positionScale) signBitPosition 2
  | .speed => encodeNumeric v fun x => encodeUint (roundQuotient x t.speedScale) d.length
  | .speedSigned => encodeNumeric v fun x => encodeSignMagnitude (roundQuotient x t.speedScale) signBitSpeed 2
  | .loadSigned => encodeNumeric v fun x => encodeSignMagnitude (roundQuotient x loadFactor) signBitLoad 2
  | .positionOffset => encodeNumeric v fun x => encodeSignMagnitude (roundQuotient x oneStep) signBitOffset 2
  | .mode =>
    match v with
    | .mode m =>
      match modeToRaw unknownRaw m with
      | .ok r => encodeUint r d.length
      | .error e => .error e
    | .int _ | .num _ | .flag _ | .baud _ => .error (.refuse .valueKind)
  | .baudRate =>
    match v with
    | .baud r => encodeUint (baudToRaw r) d.length
    | .int _ | .num _ | .flag _ | .mode _ => .error (.refuse .valueKind)

/-- **encode_user(name, value)** (R179). -/
def encodeUser (t : ControlTable) (unknownRaw : Option Byte) (name : String) (v : UserValue) : Checked (List Byte) :=
  match lookupRegister t name with
  | .ok d => encodeConversion t unknownRaw d v
  | .error e => .error e

/-- **encode_raw** on a register's definition (R190). -/
def encodeRawDef (d : RegisterDef) (v : UserValue) : Checked (List Byte) :=
  match v with
  | .int z => encodeUint z d.length
  | .num _ | .flag _ | .mode _ | .baud _ => .error (.refuse .valueKind)

/-- **encode_raw(name, int_value)** (R190). -/
def encodeRaw (t : ControlTable) (name : String) (v : UserValue) : Checked (List Byte) :=
  match lookupRegister t name with
  | .ok d => encodeRawDef d v
  | .error e => .error e

/-- A raw value times a factor, as a user value. -/
def userNum (raw : Int) (factor : PiNum) : UserValue := .num (.exact (piScale raw factor))

/-- The decode lines of R180 to R189, on bytes of the register's length. -/
def decodeConversion (t : ControlTable) (c : Conversion) (s : List Byte) : UserValue :=
  match c with
  | .none => .int (uintLE s)
  | .bool => .flag (uintLE s != 0)
  | .scale f => userNum (uintLE s) (scaleFactor f)
  | .position => userNum (signMagnitudeValue (uintLE s) signBitPosition) t.positionScale
  | .speed => userNum (uintLE s) t.speedScale
  | .speedSigned => userNum (signMagnitudeValue (uintLE s) signBitSpeed) t.speedScale
  | .loadSigned => userNum (signMagnitudeValue (uintLE s) signBitLoad) loadFactor
  | .positionOffset => .int (signMagnitudeValue (uintLE s) signBitOffset)
  | .mode => .mode (rawToMode (uintLE s))
  | .baudRate => .baud (rawToBaud (uintLE s))

/-- **decode_user(name, bytes)** (R191). -/
def decodeUser (t : ControlTable) (name : String) (s : List Byte) : Checked UserValue :=
  match lookupRegister t name with
  | .error e => .error e
  | .ok d => if s.length ≠ d.length then .error (.refuse .decodeLength) else .ok (decodeConversion t d.conversion s)

/-- **decode_raw(bytes)** (R192). -/
def decodeRaw (s : List Byte) : Checked UserValue :=
  match decodeUint s with
  | .ok u => .ok (.int u)
  | .error e => .error e

/-- The value an operation reads from a reply's parameters, in the converted or the raw view (44_transactor.md R226). -/
def viewValue (t : ControlTable) (view : View) (c : Conversion) (s : List Byte) : UserValue :=
  match view with
  | .converted => decodeConversion t c s
  | .raw => .int (uintLE s)

/-- `enc(name, v, mode)` of 30_encoding.md R96 on a register's definition. -/
def encodeView (t : ControlTable) (unknownRaw : Option Byte) (view : View) (d : RegisterDef) (v : UserValue) :
    Checked (List Byte) :=
  match view with
  | .converted => encodeConversion t unknownRaw d v
  | .raw => encodeRawDef d v

end Sys2Proof.Machine
end

