-- ==== Sys2Proof/Machine/Packet.lean ====
section
/-! DEFINITION. C2, the packet codec: checksum (40_integer_codec.md R128), the nine builders (41_packet_codec.md R140 to
R149), the response parser (R151) and the stream reframer (R152). -/

namespace Sys2Proof.Machine

/-- `sum(s)`: the integer sum of the bytes (00_scope.md R10). -/
def byteSum : List Byte → Nat
  | [] => 0
  | b :: bs => b.toNat + byteSum bs

/-- **chk(body)**: the complement of the 8-bit truncated sum of the bytes ID to the last PARAM (R128, 30_encoding.md R84). -/
def chk (body : List Byte) : Byte := ~~~ BitVec.ofNat 8 (byteSum body)

/-- `id ∈ 0..254` (R140). -/
def idOk (id : Int) : Bool := 0 ≤ id && id ≤ Config.idMax

/-- A value that one byte can hold: `p ∈ 0..255` (R140). -/
def byteOk (p : Int) : Bool := 0 ≤ p && p ≤ 255

/-- The byte of an integer in 0..255. -/
def toByte (z : Int) : Byte := BitVec.ofInt 8 z

/-- The frame of a body (ID, LEN, INSTR or STATUS, PARAMs): header before it, checksum after it (30_encoding.md R80, R81). -/
def frame (body : List Byte) : List Byte := headerByte :: headerByte :: (body ++ [chk body])

/-- The instruction codes (30_encoding.md R85). -/
abbrev codePing : Byte := 0x01#8
abbrev codeRead : Byte := 0x02#8
abbrev codeWrite : Byte := 0x03#8
abbrev codeRegWrite : Byte := 0x04#8
abbrev codeAction : Byte := 0x05#8
abbrev codeRecovery : Byte := 0x06#8
abbrev codeReset : Byte := 0x0A#8
abbrev codeSyncRead : Byte := 0x82#8
abbrev codeSyncWrite : Byte := 0x83#8

/-- **packet(id, instr, params)** (R140), with its refusals in the rule's order. -/
def packet (id : Int) (instr : Byte) (params : List Int) : Checked (List Byte) :=
  if !idOk id then .error (.refuse .idRange)
  else if !params.all byteOk then .error (.refuse .byteRange)
  else if 255 < params.length + 2 then .error (.refuse .packetTooLong)
  else .ok (frame (toByte id :: BitVec.ofNat 8 (params.length + 2) :: instr :: params.map toByte))

/-- **ping(id)** (R141). -/
def buildPing (id : Int) : Checked (List Byte) := packet id codePing []

/-- **read(id, addr, len)** (R142). -/
def buildRead (id addr len : Int) : Checked (List Byte) :=
  if !(byteOk addr && byteOk len) then .error (.refuse .byteRange) else packet id codeRead [addr, len]

/-- **write(id, addr, data)** (R143). -/
def buildWrite (id addr : Int) (data : List Int) : Checked (List Byte) :=
  if !byteOk addr then .error (.refuse .byteRange) else packet id codeWrite (addr :: data)

/-- **reg_write(id, addr, data)** (R144). -/
def buildRegWrite (id addr : Int) (data : List Int) : Checked (List Byte) :=
  if !byteOk addr then .error (.refuse .byteRange) else packet id codeRegWrite (addr :: data)

/-- **action(id = 0xFE)** (R145). -/
def buildAction (id : Int := Config.broadcastId) : Checked (List Byte) := packet id codeAction []

/-- **recovery(id)** (R146). -/
def buildRecovery (id : Int) : Checked (List Byte) := packet id codeRecovery []

/-- **reset(id)** (R147). -/
def buildReset (id : Int) : Checked (List Byte) := packet id codeReset []

/-- The checks R148 makes on the pairs one by one, in order: the first that fails gives the reason. -/
def syncWritePairsCheck (len : Int) : List (Int × List Int) → Option RefuseReason
  | [] => none
  | (id, data) :: rest =>
    if !idOk id then some .idRange
    else if (data.length : Int) ≠ len then some .syncWriteLength
    else syncWritePairsCheck len rest

/-- The parameter bytes of the pairs: each ID, then its data (R148). -/
def syncWriteParams : List (Int × List Int) → List Int
  | [] => []
  | (id, data) :: rest => id :: (data ++ syncWriteParams rest)

/-- **sync_write(addr, L, pairs)** (R148). -/
def buildSyncWrite (addr len : Int) (pairs : List (Int × List Int)) : Checked (List Byte) :=
  if !(byteOk addr && byteOk len) then .error (.refuse .byteRange)
  else match syncWritePairsCheck len pairs with
    | some r => .error (.refuse r)
    | none => packet Config.broadcastId codeSyncWrite (addr :: len :: syncWriteParams pairs)

/-- **sync_read(addr, L, ids)** (R149). -/
def buildSyncRead (addr len : Int) (ids : List Int) : Checked (List Byte) :=
  if !(byteOk addr && byteOk len) then .error (.refuse .byteRange)
  else if !ids.all idOk then .error (.refuse .idRange)
  else packet Config.broadcastId codeSyncRead (addr :: len :: ids)

/-- A parsed response packet (R151). -/
structure Response where
  id : Byte
  status : Byte
  params : List Byte
deriving DecidableEq, Repr

/-- The checksum comparison of R151: `covered` runs from ID to the last parameter, and the checksum stands next. -/
def parseCovered (covered after : List Byte) : Except Error Response :=
  match covered, after with
  | id :: _ :: status :: params, c :: _ =>
    if chk covered = c then .ok ⟨id, status, params⟩ else .error .invalidChecksum
  | _, _ => .error .incompletePacket

/-- What remains of R151 once the header and LEN are there: `body` is the string from ID on. -/
def parseBody (len : Byte) (body : List Byte) : Except Error Response :=
  if body.length < len.toNat + 2 then .error .incompletePacket
  else if len.toNat < 2 then .error .incompletePacket
  else parseCovered (body.take (len.toNat + 1)) (body.drop (len.toNat + 1))

/-- **parse_response(bytes)** (R151): header, then length, then checksum. Bytes after the frame are ignored. -/
def parseResponse (s : List Byte) : Except Error Response :=
  match s with
  | h0 :: h1 :: body =>
    if h0 = headerByte ∧ h1 = headerByte then
      match body with
      | _ :: len :: _ => parseBody len body
      | _ => .error .incompletePacket
    else .error .invalidHeader
  | _ => .error .invalidHeader

/-- The two answers of the reframer (R152). -/
inductive Extract where
  | complete (packet rest : List Byte)
  | incomplete (buffer : List Byte)
deriving DecidableEq, Repr

/-- The reframer on a buffer that starts with the header: wait for LEN, then for LEN + 4 bytes (R152). -/
def extractAligned (a : List Byte) : Extract :=
  match a with
  | _ :: _ :: _ :: len :: _ =>
    if a.length < len.toNat + 4 then .incomplete a
    else .complete (a.take (len.toNat + 4)) (a.drop (len.toNat + 4))
  | _ => .incomplete a

/-- **extract_packet(buffer)** (R152): find the first `FF FF`, discard what is before it, keep a trailing lone `FF`. -/
def extractPacket : List Byte → Extract
  | [] => .incomplete []
  | [b] => if b = headerByte then .incomplete [b] else .incomplete []
  | b0 :: b1 :: rest =>
    if b0 = headerByte ∧ b1 = headerByte then extractAligned (b0 :: b1 :: rest)
    else extractPacket (b1 :: rest)

end Sys2Proof.Machine
end

