-- ==== Sys2Proof/Machine/Operands.lean ====
section
/-! DEFINITION. The operand forms: how each form of an instruction is resolved to the address, length and data of one
builder call (30_encoding.md R96), and the packet each instruction sends. -/

namespace Sys2Proof.Machine

/-- What resolving an operand needs besides the instruction: the control table and `MODE_UNKNOWN_RAW` (10_state.md R36). -/
structure Params where
  model : ServoModel
  modeUnknownRaw : Option Byte
deriving DecidableEq, Repr

/-- The table behind the reference. -/
def Params.table (p : Params) : ControlTable := tableOf p.model

/-- Data bytes as the integers a builder takes. -/
def byteInts (s : List Byte) : List Int := s.map fun b => (b.toNat : Int)

/-- The address and length a read names (R96; 41_packet_codec.md R142). -/
def resolveRead (p : Params) : ReadForm → Checked (Int × Int)
  | .named name _ =>
    match lookupRegister p.table name with
    | .ok d => .ok ((d.address : Int), (d.length : Int))
    | .error e => .error e
  | .addressed addr len => .ok (addr, len)

/-- The address and data a WRITE names: lookup, then encode (60_exceptions.md R271 steps 2 and 3). -/
def resolveWrite (p : Params) : WriteForm → Checked (Int × List Int)
  | .named name v view =>
    match lookupRegister p.table name with
    | .error e => .error e
    | .ok d =>
      match encodeView p.table p.modeUnknownRaw view d v with
      | .ok s => .ok ((d.address : Int), byteInts s)
      | .error e => .error e
  | .addressed addr data => .ok (addr, data)

/-- The address and data a REG_WRITE names: always converted (44_transactor.md R231, D28). -/
def resolveRegWrite (p : Params) : RegWriteForm → Checked (Int × List Int)
  | .named name v =>
    match lookupRegister p.table name with
    | .error e => .error e
    | .ok d =>
      match encodeConversion p.table p.modeUnknownRaw d v with
      | .ok s => .ok ((d.address : Int), byteInts s)
      | .error e => .error e
  | .addressed addr data => .ok (addr, data)

/-- The values of a SYNC_WRITE encoded one by one, the first failure deciding (44_transactor.md R233). -/
def encodePairs (p : Params) (view : View) (d : RegisterDef) :
    List (Int × UserValue) → Checked (List (Int × List Int))
  | [] => .ok []
  | (id, v) :: rest =>
    match encodeView p.table p.modeUnknownRaw view d v with
    | .error e => .error e
    | .ok s =>
      match encodePairs p view d rest with
      | .ok more => .ok ((id, byteInts s) :: more)
      | .error e => .error e

/-- The address, per-servo length and pairs a SYNC_WRITE names (44_transactor.md R233). -/
def resolveSyncWrite (p : Params) : SyncWriteForm → Checked (Int × Int × List (Int × List Int))
  | .named name pairs view =>
    match lookupRegister p.table name with
    | .error e => .error e
    | .ok d =>
      match encodePairs p view d pairs with
      | .ok ds => .ok ((d.address : Int), (d.length : Int), ds)
      | .error e => .error e
  | .addressed addr len pairs => .ok (addr, len, pairs)

/-- The packet of a READ (R226: lookup, then build). -/
def readPacket (p : Params) (id : Int) (target : ReadForm) : Checked (List Byte) :=
  match resolveRead p target with
  | .ok (addr, len) => buildRead id addr len
  | .error e => .error e

/-- The packet of a WRITE (R227). -/
def writePacket (p : Params) (id : Int) (form : WriteForm) : Checked (List Byte) :=
  match resolveWrite p form with
  | .ok (addr, data) => buildWrite id addr data
  | .error e => .error e

/-- The packet of a REG_WRITE (R231). -/
def regWritePacket (p : Params) (id : Int) (form : RegWriteForm) : Checked (List Byte) :=
  match resolveRegWrite p form with
  | .ok (addr, data) => buildRegWrite id addr data
  | .error e => .error e

/-- The packet of a SYNC_READ (R234). -/
def syncReadPacket (p : Params) (ids : List Int) (target : ReadForm) : Checked (List Byte) :=
  match resolveRead p target with
  | .ok (addr, len) => buildSyncRead addr len ids
  | .error e => .error e

/-- The packet of a SYNC_WRITE (R233). -/
def syncWritePacket (p : Params) (form : SyncWriteForm) : Checked (List Byte) :=
  match resolveSyncWrite p form with
  | .ok (addr, len, pairs) => buildSyncWrite addr len pairs
  | .error e => .error e

/-- What one reply's parameters give a read: the register's value in the view asked for, or the raw parameter bytes of
an addressed packet (log 1). -/
inductive Reading where
  | value (v : UserValue)
  | params (bytes : List Byte)
deriving DecidableEq, Repr

/-- The reading of a reply, none when the number of parameter bytes is not the length asked for (44_transactor.md
R226, R236). -/
def readParams (p : Params) (target : ReadForm) (s : List Byte) : Option Reading :=
  match target with
  | .named name view =>
    match findRegister p.table name with
    | some d => if s.length = d.length then some (.value (viewValue p.table view d.conversion s)) else none
    | none => none
  | .addressed _ len => if (s.length : Int) = len then some (.params s) else none

end Sys2Proof.Machine
end

