-- ==== Sys2Proof/WellFormed.lean ====
section
/-! DEFINITION. Which instructions are well formed: every check that lookup, encoding and the builders make before a byte
is sent (60_exceptions.md R271 steps 2 to 4), written out as conditions on the instruction's arguments. -/

namespace Sys2Proof

open Machine

/-- A user value a conversion accepts (42_control_table.md R178, and R175 for mode `unknown`). -/
def valueAccepted (p : Params) (c : Conversion) (v : UserValue) : Bool :=
  match c with
  | .none | .scale _ | .position | .speed | .speedSigned | .loadSigned | .positionOffset => (numericValue v).isSome
  | .bool => match v with | .flag _ => true | .int _ | .num _ | .mode _ | .baud _ => false
  | .mode =>
    match v with
    | .mode m => m != .unknown || p.modeUnknownRaw.isSome
    | .int _ | .num _ | .flag _ | .baud _ => false
  | .baudRate => match v with | .baud _ => true | .int _ | .num _ | .flag _ | .mode _ => false

/-- A user value acceptable in a view: raw mode takes an integer only (R190). -/
def viewAccepted (p : Params) (view : View) (c : Conversion) (v : UserValue) : Bool :=
  match view with
  | .converted => valueAccepted p c v
  | .raw => match v with | .int _ => true | .num _ | .flag _ | .mode _ | .baud _ => false

/-- Data bytes that fit in a WRITE or REG_WRITE packet (41_packet_codec.md R143). -/
def dataOk (data : List Int) : Bool := data.all byteOk && data.length ≤ 252

/-- The register exists (42_control_table.md R170). -/
def registerKnown (p : Params) (name : String) : Bool := (findRegister p.table name).isSome

/-- A read operand is well formed. -/
def ReadForm.wellFormed (p : Params) : ReadForm → Bool
  | .named name _ => registerKnown p name
  | .addressed addr len => byteOk addr && byteOk len

/-- A write operand is well formed. -/
def WriteForm.wellFormed (p : Params) : WriteForm → Bool
  | .named name v view =>
    match findRegister p.table name with
    | some d => viewAccepted p view d.conversion v
    | none => false
  | .addressed addr data => byteOk addr && dataOk data

/-- A reg-write operand is well formed. -/
def RegWriteForm.wellFormed (p : Params) : RegWriteForm → Bool
  | .named name v =>
    match findRegister p.table name with
    | some d => valueAccepted p d.conversion v
    | none => false
  | .addressed addr data => byteOk addr && dataOk data

/-- `m` servos with `len` bytes each fit in one SYNC_WRITE packet (41_packet_codec.md R148). -/
def syncFits (len m : Nat) : Bool := 2 + m * (len + 1) ≤ Config.maxParams

/-- A sync-write operand is well formed. -/
def SyncWriteForm.wellFormed (p : Params) : SyncWriteForm → Bool
  | .named name pairs view =>
    match findRegister p.table name with
    | some d =>
      pairs.all (fun e => idOk e.1 && viewAccepted p view d.conversion e.2) && syncFits d.length pairs.length
    | none => false
  | .addressed addr len pairs =>
    byteOk addr && byteOk len
      && pairs.all (fun e => idOk e.1 && e.2.all byteOk && decide ((e.2.length : Int) = len))
      && syncFits len.toNat pairs.length

/-- An instruction is well formed: its packet can be built. -/
def Instr.wellFormed (p : Params) : Instr → Bool
  | .ping id => idOk id
  | .read id target => idOk id && target.wellFormed p
  | .write id form _ => idOk id && form.wellFormed p
  | .regWrite id form => idOk id && form.wellFormed p
  | .action id => idOk id
  | .recovery id => idOk id
  | .reset id => idOk id
  | .syncRead ids target => ids.all idOk && ids.length ≤ 251 && target.wellFormed p
  | .syncWrite form => form.wellFormed p

/-- An instruction in the form the decoder gives: a packet as the raw builders take it, a WRITE awaited (log 1, log 13). -/
def Instr.isPacketForm : Instr → Bool
  | .ping _ | .action _ | .recovery _ | .reset _ => true
  | .read _ (.addressed _ _) | .write _ (.addressed _ _) true | .regWrite _ (.addressed _ _) => true
  | .syncRead _ (.addressed _ _) | .syncWrite (.addressed _ _ _) => true
  | .read _ (.named _ _) | .write _ (.named _ _ _) _ | .write _ (.addressed _ _) false => false
  | .regWrite _ (.named _ _) | .syncRead _ (.named _ _) | .syncWrite (.named _ _ _) => false

end Sys2Proof
end

