-- ==== Sys2Proof/Decode.lean ====
section
/-! DEFINITION. The decoder of instruction packets (30_encoding.md R80, R83 to R87), total on any bytes and rejecting by
name, then the encoder. The spec gives the block no decoder (R91): this one reads a packet back into the builder call
that makes it. DESIGN CHOICE, log 11. -/

namespace Sys2Proof

open Machine

/-- Why a byte string is no instruction packet of the block. -/
inductive DecodeError where
  /-- it does not start with `FF FF`, ID, LEN, INSTR -/
  | noHeader
  /-- it is not LEN + 4 bytes long (R88) -/
  | badLength
  /-- its last byte is not the checksum (R84) -/
  | badChecksum
  /-- its ID byte is 0xFF, or not 0xFE in a SYNC_READ or SYNC_WRITE (R87) -/
  | badId
  /-- its INSTR byte is none of the nine codes (R85, R91) -/
  | unknownCode (code : Byte)
  /-- its parameters do not have the instruction's layout (R86) -/
  | badParams
deriving DecidableEq, Repr

/-- A byte as the integer a builder takes. -/
def byteInt (b : Byte) : Int := (b.toNat : Int)

/-- The groups `<id_i, data_i[L]>` of a SYNC_WRITE's parameters (R86). The first argument bounds the number of groups. -/
def decodeGroups (len : Nat) : Nat → List Byte → Option (List (Int × List Int))
  | _, [] => some []
  | 0, _ :: _ => none
  | k + 1, id :: rest =>
    if rest.length < len then none
    else (decodeGroups len k (rest.drop len)).map fun more => (byteInt id, byteInts (rest.take len)) :: more

/-- An instruction without parameters (R86). -/
def decodeBare (i : Instr) : List Byte → Except DecodeError Instr
  | [] => .ok i
  | _ :: _ => .error .badParams

/-- READ: an address and a length (R86). -/
def decodeRead (id : Byte) : List Byte → Except DecodeError Instr
  | [a, l] => .ok (.read (byteInt id) (.addressed (byteInt a) (byteInt l)))
  | _ => .error .badParams

/-- WRITE: an address and data bytes (R86). It is awaited (log 13). -/
def decodeWrite (id : Byte) : List Byte → Except DecodeError Instr
  | a :: data => .ok (.write (byteInt id) (.addressed (byteInt a) (byteInts data)) true)
  | [] => .error .badParams

/-- REG_WRITE: an address and data bytes (R86). -/
def decodeRegWrite (id : Byte) : List Byte → Except DecodeError Instr
  | a :: data => .ok (.regWrite (byteInt id) (.addressed (byteInt a) (byteInts data)))
  | [] => .error .badParams

/-- SYNC_READ: an address, a length and servo IDs, to the broadcast ID (R86, R87). -/
def decodeSyncRead (id : Byte) (params : List Byte) : Except DecodeError Instr :=
  if id ≠ 0xFE#8 then .error .badId
  else
    match params with
    | a :: l :: ids =>
      if ids.all (fun b => b != 0xFF#8) then .ok (.syncRead (byteInts ids) (.addressed (byteInt a) (byteInt l)))
      else .error .badId
    | _ => .error .badParams

/-- SYNC_WRITE: an address, a length and groups of an ID and data, to the broadcast ID (R86, R87). -/
def decodeSyncWrite (id : Byte) (params : List Byte) : Except DecodeError Instr :=
  if id ≠ 0xFE#8 then .error .badId
  else
    match params with
    | a :: l :: groups =>
      match decodeGroups l.toNat groups.length groups with
      | some pairs =>
        if pairs.all (fun e => idOk e.1) then .ok (.syncWrite (.addressed (byteInt a) (byteInt l) pairs))
        else .error .badId
      | none => .error .badParams
    | _ => .error .badParams

/-- The instruction of an ID, an instruction code and parameters (R85, R86, R87). -/
def decodeBody (id code : Byte) (params : List Byte) : Except DecodeError Instr :=
  if id = 0xFF#8 then .error .badId
  else if code = codePing then decodeBare (.ping (byteInt id)) params
  else if code = codeRead then decodeRead id params
  else if code = codeWrite then decodeWrite id params
  else if code = codeRegWrite then decodeRegWrite id params
  else if code = codeAction then decodeBare (.action (byteInt id)) params
  else if code = codeRecovery then decodeBare (.recovery (byteInt id)) params
  else if code = codeReset then decodeBare (.reset (byteInt id)) params
  else if code = codeSyncRead then decodeSyncRead id params
  else if code = codeSyncWrite then decodeSyncWrite id params
  else .error (.unknownCode code)

/-- The instruction of an instruction packet (R80): header, length, checksum, then the fields. -/
def decode (s : List Byte) : Except DecodeError Instr :=
  match s with
  | h0 :: h1 :: id :: len :: code :: rest =>
    if ¬(h0 = headerByte ∧ h1 = headerByte) then .error .noHeader
    else if rest.length + 1 ≠ len.toNat then .error .badLength
    else
      let params := rest.dropLast
      if rest.getLast? ≠ some (chk (id :: len :: code :: params)) then .error .badChecksum
      else decodeBody id code params
  | _ => .error .noHeader

/-- The packet of an instruction (30_encoding.md R96): its operands resolved, then its builder (R141 to R149). -/
def encode (p : Params) : Instr → Checked (List Byte)
  | .ping id => buildPing id
  | .read id target => readPacket p id target
  | .write id form _ => writePacket p id form
  | .regWrite id form => regWritePacket p id form
  | .action id => buildAction id
  | .recovery id => buildRecovery id
  | .reset id => buildReset id
  | .syncRead ids target => syncReadPacket p ids target
  | .syncWrite form => syncWritePacket p form

/-- The packet form of an instruction: a register by name replaced by the address, length and data it resolves to, and a
WRITE awaited (30_encoding.md R96). What decoding an instruction's packet gives back. -/
def expand (p : Params) : Instr → Checked Instr
  | .ping id => .ok (.ping id)
  | .read id target => (resolveRead p target).map fun r => .read id (.addressed r.1 r.2)
  | .write id form _ => (resolveWrite p form).map fun r => .write id (.addressed r.1 r.2) true
  | .regWrite id form => (resolveRegWrite p form).map fun r => .regWrite id (.addressed r.1 r.2)
  | .action id => .ok (.action id)
  | .recovery id => .ok (.recovery id)
  | .reset id => .ok (.reset id)
  | .syncRead ids target => (resolveRead p target).map fun r => .syncRead ids (.addressed r.1 r.2)
  | .syncWrite form => (resolveSyncWrite p form).map fun r => .syncWrite (.addressed r.1 r.2.1 r.2.2)

/-! The host's reading of a table row. spec/opcode_table.json gives a row the five bytes `FF FF ID LEN INSTR` as one
big-endian number. LEN, where a row leaves it open, and CHK are no operands: a builder computes them. DESIGN CHOICE, log 10. -/

/-- The `n` bytes of a number, most significant first. -/
def bytesBE (w : Nat) (n : Nat) : List Byte := (bytesLE w n).reverse

/-- The bytes of a table word: big-endian as the table numbers them, or the other way round where only that reading starts
with the header. -/
def tableBytes (nbits w : Nat) : List Byte :=
  let be := bytesBE w (nbits / 8)
  let le := bytesLE w (nbits / 8)
  match be, le with
  | b0 :: b1 :: _, l0 :: l1 :: _ =>
    if b0 = headerByte ∧ b1 = headerByte then be
    else if l0 = headerByte ∧ l1 = headerByte then le else be
  | _, _ => be

/-- The fewest parameter bytes an instruction code has (30_encoding.md R86). -/
def minParams (code : Byte) : Nat :=
  if code = codeRead ∨ code = codeSyncRead ∨ code = codeSyncWrite then 2
  else if code = codeWrite ∨ code = codeRegWrite then 1 else 0

/-- The packet a table word stands for: its parameters continued with zeros, LEN raised to the least the instruction
admits, and the checksum computed where the word does not reach it. -/
def tableFrame (nbits w : Nat) : List Byte :=
  match tableBytes nbits w with
  | h0 :: h1 :: id :: len :: code :: rest =>
    let n := max (len.toNat - 2) (minParams code)
    let params := (rest ++ List.replicate n 0#8).take n
    let body := id :: BitVec.ofNat 8 (n + 2) :: code :: params
    h0 :: h1 :: (body ++ [(rest[n]?).getD (chk body)])
  | short => short

/-- The instruction the decoder reads from the packet of a table word. -/
def decodeTableWord (nbits w : Nat) : Option Instr :=
  match decode (tableFrame nbits w) with
  | .ok i => some i
  | .error _ => none

end Sys2Proof
end

