-- ==== Sys2Proof/Machine/Flags.lean ====
section
/-! DEFINITION. C4, the status parser: the flags of a servo's status byte (10_state.md R28, 43_status.md R210, R211). The
block has no flags of its own (10_state.md R29). -/

namespace Sys2Proof.Machine

/-- The result of `parse_status` (R210). -/
structure Status where
  errors : List StatusError
  torqueEnabled : Bool
deriving DecidableEq, Repr

/-- One flag's contribution to the error list. -/
def flagError (s : Byte) (bit : Nat) (e : StatusError) : List StatusError := if s.getLsbD bit then [e] else []

/-- **parse_status(byte)** (R210): the errors in ascending bit order, bit 4 the torque flag, bits 6 and 7 ignored. -/
def parseStatus (s : Byte) : Status where
  errors :=
    flagError s 0 .voltageError ++ flagError s 1 .sensorError ++ flagError s 2 .temperatureError
      ++ flagError s 3 .currentError ++ flagError s 5 .overloadError
  torqueEnabled := s.getLsbD 4

/-- **has_error(byte)** (R211). -/
def hasError (s : Byte) : Bool := (s &&& 0x2F#8) != 0#8

/-- The record returned with a reply (10_state.md R31, D17). -/
structure StatusInfo where
  id : Byte
  status : Byte
  errors : List StatusError
  torqueEnabled : Bool
deriving DecidableEq, Repr

/-- **status_info(r)** (44_transactor.md R224), from a reply's ID and status byte. -/
def statusInfo (id status : Byte) : StatusInfo where
  id := id
  status := status
  errors := (parseStatus status).errors
  torqueEnabled := (parseStatus status).torqueEnabled

end Sys2Proof.Machine
end

