-- ==== Sys2Proof/Machine/State.lean ====
section
/-! DEFINITION. The state: the transactor's record (10_state.md R20 to R27, R37), the OPEN parameters (00_scope.md R8), and
the model's own fields for the caller, the environment and what the block did. Plain data throughout. -/

namespace Sys2Proof.Machine

/-- The transactor's phase (10_state.md R21). -/
inductive Phase where
  | idle | sending | awaitingResponse | draining
deriving DecidableEq, Repr

/-- The lifecycle of the transport handle (10_state.md R25). -/
inductive Transport where
  | opened | closed
deriving DecidableEq, Repr

/-- What `ok(...)` carries (10_state.md R32). -/
inductive OpResult where
  | unit
  | info (i : StatusInfo)
  | reading (r : Reading) (i : StatusInfo)
  | readings (rs : List (Reading × StatusInfo))
deriving DecidableEq, Repr

/-- How an operation ends (00_scope.md R16). -/
inductive OpOutcome where
  | ok (r : OpResult)
  | err (e : Error)
  | refused (r : RefuseReason)
  | fault (r : FaultReason)
  | cancelled
deriving DecidableEq, Repr

/-- A transport primitive the block called (60_exceptions.md R286). -/
inductive TransportCall where
  | open (baud : Nat)
  | write (bytes : List Byte)
  | read (wait : Nat)
  | close
deriving DecidableEq, Repr

/-- What the caller asks for between operations, in FIFO order (20_memory.md R65, log 2). -/
inductive Request where
  /-- an operation -/
  | call (i : Instr)
  /-- an instruction packet, decoded and run as an operation (log 1, log 11) -/
  | packet (bytes : List Byte)
  /-- the caller lets time pass -/
  | pause (ms : Nat)
  /-- teardown (70_reset_and_hazards.md R302) -/
  | teardown
deriving DecidableEq, Repr

/-- What the caller does between two steps of an operation in flight (log 2). -/
inductive Interrupt where
  /-- a second, unmediated request (60_exceptions.md R290) -/
  | call (i : Instr)
  /-- cancellation (70_reset_and_hazards.md R313) -/
  | cancel
  /-- teardown (R302) -/
  | teardown
deriving DecidableEq, Repr

/-- The machine stops with a fault. The spec's `FAULT(reason)` is no such stop: it is an outcome after which the machine
goes on (`OpOutcome.fault`, `State.faults`). -/
inductive Fault where
  /-- Raised by a step in a state whose in-flight cursor is inconsistent: not idle without an operation, reading a reply
  without a deadline, or sending an operation that has no packet. The spec defines no step there (10_state.md R22, R26)
  and no run reaches such a state. Safe. Log 16. -/
  | cursorLost
deriving DecidableEq, Repr

/-- The machine gives no meaning. The spec's `REFUSED(reason)` is no such stop: it is an outcome after which the machine
goes on (`OpOutcome.refused`, `State.refused`). -/
inductive Refusal where
  /-- Raised by exec's arm of an instruction without a meaning. No instruction is left so. Safe. -/
  | notModelled (mnemonic : String)
  /-- Raised by step when a requested byte string is no instruction packet (30_encoding.md R91, I3). Safe. Log 11. -/
  | undecodable (reason : DecodeError)
deriving DecidableEq, Repr

/-- The state of the block. -/
structure State where
  /-- R21 -/
  phase : Phase
  /-- R22: the operation in flight with its arguments -/
  op : Option Instr
  /-- R22: the deadline of the running receive loop, in milliseconds -/
  deadline : Option Nat
  /-- R22: the index of the SYNC_READ reply being read -/
  slot : Nat
  /-- R22: the SYNC_READ results so far -/
  acc : List (Reading × StatusInfo)
  /-- R22: whether some SYNC_READ slot has failed -/
  failed : Bool
  /-- R23: the receive buffer -/
  rxBuf : List Byte
  /-- R25 -/
  transport : Transport
  /-- R24, R34 -/
  controlTable : ServoModel
  /-- R24 -/
  timeoutMs : Nat
  /-- R27: sticky -/
  refused : Bool
  /-- R27: sticky, oldest first -/
  faults : List FaultReason
  /-- 00_scope.md R8, MODE_UNKNOWN_RAW -/
  modeUnknownRaw : Option Byte
  /-- 00_scope.md R8, DRAIN_ERROR_POLICY -/
  drainPolicy : DrainPolicy
  /-- the environment's clock (R14). The model's own field, log 3. -/
  now : Nat
  /-- the environment's coming answers to `Transport.write`. The model's own field, log 3. -/
  writes : List WriteEvent
  /-- the environment's coming answers to `Transport.read`. The model's own field, log 3. -/
  reads : List ReadEvent
  /-- how many answers the oracle has given. The model's own field, log 3. -/
  oracleIndex : Nat
  /-- the caller's requests, next first. The model's own field, log 2. -/
  requests : List Request
  /-- what the caller does before each in-flight step, next first. The model's own field, log 2. -/
  interrupts : List (Option Interrupt)
  /-- the outcomes returned, oldest first. The model's own field, log 9. -/
  returned : List OpOutcome
  /-- the transport primitives called, oldest first. The model's own field, log 9. -/
  trace : List TransportCall
deriving DecidableEq, Repr

/-- The state right after construction (10_state.md R37, 70_reset_and_hazards.md R300). `timeoutMs` is a constructor
argument without a default: 100 is the model's choice (log 6). `modeUnknownRaw` and `drainPolicy` are at the spec's
defaults (log 7). The model's own fields are empty (log 2, log 3, log 9). -/
def State.reset : State where
  phase := .idle
  op := none
  deadline := none
  slot := 0
  acc := []
  failed := false
  rxBuf := []
  transport := .opened
  controlTable := .sts3215
  timeoutMs := 100
  refused := false
  faults := []
  modeUnknownRaw := none
  drainPolicy := .discard
  now := 0
  writes := []
  reads := []
  oracleIndex := 0
  requests := []
  interrupts := []
  returned := []
  trace := [.open Config.defaultBaud]

/-- What resolving operands reads of the state. -/
def State.params (s : State) : Params := ⟨s.controlTable, s.modeUnknownRaw⟩

end Sys2Proof.Machine
end

