-- ==== Sys2Proof/Machine/Ops.lean ====
section
/-! DEFINITION. The shared operations of the transactor: how an operation ends (with a result, an error, a refusal, a
fault, a cancellation), admission, the send, the receive loop, and the lifecycle. The error return takes the place of an
exception entry (60_exceptions.md, D53); there is no return from an exception, since no handler runs (R276). -/

namespace Sys2Proof.Machine

/-- The type of every meaning's answer. -/
abbrev Answer := Host.Outcome State Fault Refusal

/-- The code of an error (60_exceptions.md R270). The codes carry no order. -/
def errorCode : Error → Nat
  | .noResponse => 1
  | .invalidChecksum => 2
  | .invalidHeader => 3
  | .incompletePacket => 4
  | .unknownRegister => 5
  | .partialRead => 6
  | .transport .timeout => 7
  | .transport (.other _) => 8

/-! How an operation ends. -/

/-- **finish** (44_transactor.md, before R220): the cursor returns to its idle values. The receive buffer is not touched. -/
def State.finish (s : State) : State :=
  { s with phase := .idle, op := none, deadline := none, slot := 0, acc := [], failed := false }

/-- Returns an outcome to the caller. -/
def State.answer (s : State) (o : OpOutcome) : State := { s with returned := s.returned ++ [o] }

/-- `return ok(r)` (00_scope.md R13), after `finish`. -/
def State.complete (s : State) (r : OpResult) : State := s.finish.answer (.ok r)

/-- `raise e` in an operation in flight: `finish`, then the error is the operation's result (60_exceptions.md R273, R277). -/
def State.raise (s : State) (e : Error) : State := s.finish.answer (.err e)

/-- `REFUSE(reason)` (60_exceptions.md R280): the sticky mark and the outcome. No other field of the spec's state changes. -/
def State.refuse (s : State) (r : RefuseReason) : State := { s with refused := true }.answer (.refused r)

/-- `FAULT(reason)` (60_exceptions.md R280): recorded, then `finish`. -/
def State.recordFault (s : State) (r : FaultReason) : State := { s with faults := s.faults ++ [r] }.finish.answer (.fault r)

/-- Cancellation (70_reset_and_hazards.md R313): `finish`, with the receive buffer as the last chunk left it. -/
def State.cancel (s : State) : State := s.finish.answer .cancelled

/-- An eager failure, before any byte hits the wire (60_exceptions.md R271): only the outcome, and the mark of a refusal. -/
def State.rejectEagerly (s : State) : Stop → State
  | .err e => s.answer (.err e)
  | .refuse r => s.refuse r

/-! The environment. -/

/-- A transport primitive is called and some time passes in it. -/
def State.calls (s : State) (c : TransportCall) (elapsed : Nat) : State :=
  { s with trace := s.trace ++ [c], now := s.now + elapsed }

/-- The environment's next answer to `Transport.write`: the script's, then the oracle's (log 3). -/
def State.nextWrite (s : State) : WriteEvent :=
  match s.writes with
  | e :: _ => e
  | [] => Config.transportWrite s.oracleIndex

/-- The state after that answer is used up. -/
def State.dropWrite (s : State) : State :=
  match s.writes with
  | _ :: rest => { s with writes := rest }
  | [] => { s with oracleIndex := s.oracleIndex + 1 }

/-- An answer to `Transport.read(wait)`: the call waits at most `wait` milliseconds (00_scope.md R14). -/
def answerWithin (wait : Nat) : ReadEvent → ReadEvent
  | .data bytes elapsed => .data bytes (min elapsed wait)
  | .error e elapsed => .error e (min elapsed wait)

/-- The environment's next answer to `Transport.read(wait)`: the script's, then the oracle's (log 3). -/
def State.nextRead (s : State) (wait : Nat) : ReadEvent :=
  answerWithin wait (match s.reads with
    | e :: _ => e
    | [] => Config.transportRead s.oracleIndex)

/-- The state after that answer is used up. -/
def State.dropRead (s : State) : State :=
  match s.reads with
  | _ :: rest => { s with reads := rest }
  | [] => { s with oracleIndex := s.oracleIndex + 1 }

/-! Admission and the start of an operation. -/

/-- The ID check of an operation that expects a reply from one servo (44_transactor.md R221). -/
def admitUnicast (id : Int) : Option RefuseReason :=
  if !idOk id then some .idRange else if id = Config.broadcastId then some .broadcastNeedsReply else none

/-- The ID checks of the pairs of a SYNC_WRITE (R221). -/
def admitSyncWrite (form : SyncWriteForm) : Option RefuseReason :=
  match form with
  | .named _ pairs _ => if pairs.all (fun e => idOk e.1) then none else some .idRange
  | .addressed _ _ pairs => if pairs.all (fun e => idOk e.1) then none else some .idRange

/-- The checks of admission that read only the operation, in R221's order. The operation `action()` has no operand and
always uses 0xFE (30_encoding.md R87, R232), so an ACTION with any other ID is outside its range (log 12). -/
def admitIds : Instr → Option RefuseReason
  | .ping id => admitUnicast id
  | .read id _ => admitUnicast id
  | .write id _ _ => admitUnicast id
  | .regWrite id _ => admitUnicast id
  | .action id => if id = Config.broadcastId then none else some .idRange
  | .recovery id => admitUnicast id
  | .reset id => admitUnicast id
  | .syncRead ids _ => if ids.any (fun id => id == Config.broadcastId) then some .broadcastNeedsReply else none
  | .syncWrite form => admitSyncWrite form

/-- Admission of an operation (44_transactor.md R221): the reason an operation is refused for, if it is. -/
def admission (i : Instr) (s : State) : Option RefuseReason :=
  if s.transport = .closed then some .closed
  else if s.phase ≠ .idle then some .busy
  else admitIds i

/-- The start of an operation (R220 rows 1 and 2): admission, then lookup, encoding and building (60_exceptions.md R271
steps 1 to 4). `pkt` is the packet the instruction sends. -/
def begin (i : Instr) (pkt : Checked (List Byte)) (s : State) : State :=
  match admission i s with
  | some r => s.refuse r
  | none =>
    match pkt with
    | .error e => s.rejectEagerly e
    | .ok _ => { s with op := some i, phase := .sending }

/-! The send and the receive loop. -/

/-- **send(pkt)** (44_transactor.md R222): the whole packet in one `Transport.write`. An error ends the operation,
otherwise `after` is what the operation does once its packet is written. -/
def send (pkt : Checked (List Byte)) (after : State → State) (s : State) : Answer :=
  match pkt with
  | .error _ => .fault .cursorLost
  | .ok bytes =>
    match s.nextWrite with
    | .error e dt => .next ((s.dropWrite.calls (.write bytes) dt).raise (.transport e))
    | .ok dt => .next (after (s.dropWrite.calls (.write bytes) dt))

/-- The start of **receive_one** (R223): the deadline is taken, in the phase that reads the reply. -/
def State.startReceive (s : State) (ph : Phase) : State :=
  { s with phase := ph, deadline := some (s.now + s.timeoutMs) }

/-- What `receive_one` returns (R223). -/
inductive Reply where
  | packet (r : Except Error Response)
  | noResponse
deriving Repr

/-- The wait of the next chunk read: `min(CHUNK_MS, max(0, deadline - now))` (R223). -/
def chunkWait (deadline now : Nat) : Nat := min Config.chunkMs (deadline - now)

/-- One iteration of **receive_one** (R223): one chunk read, then the reframer, then the deadline. `onReply` is what the
operation does with what the loop returns. -/
def receive (onReply : Reply → State → State) (s : State) : Answer :=
  match s.deadline with
  | none => .fault .cursorLost
  | some d =>
    match s.nextRead (chunkWait d s.now) with
    | .error e dt => .next ((s.dropRead.calls (.read (chunkWait d s.now)) dt).raise (.transport e))
    | .data c dt =>
      let s1 := s.dropRead.calls (.read (chunkWait d s.now)) dt
      match extractPacket (s.rxBuf ++ c) with
      | .complete p rest => .next (onReply (.packet (parseResponse p)) { s1 with rxBuf := rest })
      | .incomplete b =>
        let s2 := { s1 with rxBuf := b }
        if d ≤ s2.now then .next (onReply .noResponse s2) else .next s2

/-- One transition of an operation (R220): its start when the transactor is idle, its next transition when it is the
operation in flight, and otherwise the refusal of a request while another is in flight (60_exceptions.md R290). -/
def transact (i : Instr) (pkt : Checked (List Byte)) (after : State → State) (onReply : Reply → State → State)
    (s : State) : Answer :=
  if s.phase ≠ .idle ∧ s.op = some i then
    match s.phase with
    | .sending => send pkt after s
    | .idle | .awaitingResponse | .draining => receive onReply s
  else .next (begin i pkt s)

/-- How many replies an operation reads (R242, 30_encoding.md R86). -/
def expectedReplies : Instr → Nat
  | .ping _ | .read _ _ | .write _ _ _ | .regWrite _ _ | .recovery _ | .reset _ => 1
  | .action _ | .syncWrite _ => 0
  | .syncRead ids _ => ids.length

/-! What the operations do with a reply. -/

/-- The reply of an operation that returns status info (R225): ping, write with await, reg_write, recovery, reset. -/
def infoReply (r : Reply) (s : State) : State :=
  match r with
  | .packet (.ok p) => s.complete (.info (statusInfo p.id p.status))
  | .packet (.error e) => s.raise e
  | .noResponse => s.raise .noResponse

/-- **drain()** (R228): the status is discarded, and a reply error is returned only under `surface`. -/
def drainReply (r : Reply) (s : State) : State :=
  match r with
  | .packet (.ok _) => s.complete .unit
  | .packet (.error e) =>
    match s.drainPolicy with
    | .discard => s.complete .unit
    | .surface => s.raise e
  | .noResponse =>
    match s.drainPolicy with
    | .discard => s.complete .unit
    | .surface => s.raise .noResponse

/-- An operation that reads no reply has nothing to do with one. -/
def noReply (_ : Reply) (s : State) : State := s

/-! Lifecycle (70_reset_and_hazards.md). -/

/-- **teardown()** (R302): a second teardown does nothing. -/
def State.teardown (s : State) : State :=
  if s.transport = .closed then s
  else
    let s1 := if s.phase ≠ .idle then s.cancel else s
    { s1.calls .close 0 with transport := .closed }

/-- What opening the transport gives at construction (R300): a configured handle, an error before any handle was opened,
or an error after one was (log 19). -/
inductive OpenEvent where
  | ok
  | failed (e : TransportError)
  | failedOpen (e : TransportError)
deriving DecidableEq, Repr

/-- What construction gives: a transactor, or the transport's error with the calls made on the handle (R300). -/
inductive Construction where
  | made (s : State)
  | failed (e : TransportError) (calls : List TransportCall)
deriving DecidableEq, Repr

/-- **Construction** (R300) from the control table, the timeout, the OPEN parameters and the baud rate. A handle that was
opened before the failure is closed exactly once. -/
def construct (o : OpenEvent) (model : ServoModel) (timeoutMs : Nat) (unknownRaw : Option Byte) (policy : DrainPolicy)
    (baud : Nat := Config.defaultBaud) : Construction :=
  match o with
  | .ok =>
    .made { State.reset with
      controlTable := model, timeoutMs := timeoutMs, modeUnknownRaw := unknownRaw, drainPolicy := policy,
      trace := [.open baud] }
  | .failed e => .failed e [.open baud]
  | .failedOpen e => .failed e [.open baud, .close]

/-! The caller's acts during an operation. -/

/-- A second request while an operation is in flight: refused, the operation unaffected (60_exceptions.md R290). -/
def State.refuseConcurrent (s : State) (i : Instr) : State :=
  match admission i s with
  | some r => s.refuse r
  | none => s

/-- What the caller does between two steps of an operation in flight (log 2). -/
def State.interrupted (s : State) : Interrupt → State
  | .call i => s.refuseConcurrent i
  | .cancel => s.cancel
  | .teardown => s.teardown

end Sys2Proof.Machine
end

