-- ==== Sys2Proof/Machine/Broadcast.lean ====
section
/-! DEFINITION. The broadcast operations: action (44_transactor.md R232), sync_write (R233), sync_read (R234 to R236). -/

namespace Sys2Proof.Machine

/-- **action()** (R232): no reply is read. Only `action 0xFE` is admitted, so nothing else is sent. -/
def execAction (id : Int) (s : State) : Answer :=
  transact (.action id) (buildAction id) (fun t => t.complete .unit) noReply s

/-- **sync_write(name, pairs, mode)** (R233): no reply is read. -/
def execSyncWrite (form : SyncWriteForm) (s : State) : Answer :=
  transact (.syncWrite form) (syncWritePacket s.params form) (fun t => t.complete .unit) noReply s

/-- The reading of the slot being read, none when the slot fails (R235, R236): a parsed reply from the servo of this
slot, with the length asked for, while no earlier slot has failed. -/
def slotReading (ids : List Int) (target : ReadForm) (r : Reply) (s : State) : Option (Reading × StatusInfo) :=
  match r with
  | .packet (.ok p) =>
    if s.failed = false ∧ ids[s.slot]? = some (byteInt p.id) then
      (readParams s.params target p.params).map fun v => (v, statusInfo p.id p.status)
    else none
  | .packet (.error _) => none
  | .noResponse => none

/-- **slot(k)** (R235, R236): gather the reading, or mark the failure and go on draining. -/
def closeSlot (ids : List Int) (target : ReadForm) (r : Reply) (s : State) : State :=
  match slotReading ids target r s with
  | some e => { s with acc := s.acc ++ [e] }
  | none => { s with failed := true, phase := .draining }

/-- After a slot: the next slot's receive loop, or the end of the call (R234). Each slot has its own deadline (D24). -/
def nextSlot (ids : List Int) (s : State) : State :=
  if s.slot + 1 < ids.length then { s with slot := s.slot + 1, deadline := some (s.now + s.timeoutMs) }
  else if s.failed then s.raise .partialRead
  else s.complete (.readings s.acc)

/-- What sync_read does with what a slot's receive loop returns (R234 to R236). -/
def syncReadReply (ids : List Int) (target : ReadForm) (r : Reply) (s : State) : State :=
  nextSlot ids (closeSlot ids target r s)

/-- What sync_read does once its packet is written (R234): nothing to read for an empty list, else slot 0. -/
def syncReadStart (ids : List Int) (s : State) : State :=
  if ids = [] then s.complete (.readings [])
  else { s with acc := [], failed := false, slot := 0 }.startReceive .awaitingResponse

/-- **sync_read(ids, name, mode)** (R234). -/
def execSyncRead (ids : List Int) (target : ReadForm) (s : State) : Answer :=
  transact (.syncRead ids target) (syncReadPacket s.params ids target) (syncReadStart ids)
    (syncReadReply ids target) s

end Sys2Proof.Machine
end

