-- ==== Sys2Proof/Machine/Register.lean ====
section
/-! DEFINITION. The operations on one servo's registers: read (44_transactor.md R226), write (R227, R228), reg_write (R231). -/

namespace Sys2Proof.Machine

/-- What read does with its reply (R226): a parameter length other than the one asked for is a fault. -/
def readReply (target : ReadForm) (r : Reply) (s : State) : State :=
  match r with
  | .packet (.ok p) =>
    match readParams s.params target p.params with
    | some v => s.complete (.reading v (statusInfo p.id p.status))
    | none => s.recordFault .replyLengthMismatch
  | .packet (.error e) => s.raise e
  | .noResponse => s.raise .noResponse

/-- **read(id, name, mode)** (R226). -/
def execRead (id : Int) (target : ReadForm) (s : State) : Answer :=
  transact (.read id target) (readPacket s.params id target) (fun t => t.startReceive .awaitingResponse)
    (readReply target) s

/-- The phase that reads a WRITE's reply (R220, R227). -/
def writePhase (awaited : Bool) : Phase := if awaited then .awaitingResponse else .draining

/-- What write does with its reply: its status info, or nothing but keeping the stream aligned (R227, R228). -/
def writeReply (awaited : Bool) (r : Reply) (s : State) : State :=
  if awaited then infoReply r s else drainReply r s

/-- **write(id, name, value, mode, await?)** (R227). -/
def execWrite (id : Int) (form : WriteForm) (awaited : Bool) (s : State) : Answer :=
  transact (.write id form awaited) (writePacket s.params id form) (fun t => t.startReceive (writePhase awaited))
    (writeReply awaited) s

/-- **reg_write(id, name, value)** (R231). -/
def execRegWrite (id : Int) (form : RegWriteForm) (s : State) : Answer :=
  transact (.regWrite id form) (regWritePacket s.params id form) (fun t => t.startReceive .awaitingResponse) infoReply s

end Sys2Proof.Machine
end

