-- ==== Sys2Proof/Machine/Unicast.lean ====
section
/-! DEFINITION. The operations without operands but a servo ID: ping (44_transactor.md R225), recovery (R229), reset (R230). -/

namespace Sys2Proof.Machine

/-- **ping(id)** (R225). -/
def execPing (id : Int) (s : State) : Answer :=
  transact (.ping id) (buildPing id) (fun t => t.startReceive .awaitingResponse) infoReply s

/-- **recovery(id)** (R229). -/
def execRecovery (id : Int) (s : State) : Answer :=
  transact (.recovery id) (buildRecovery id) (fun t => t.startReceive .awaitingResponse) infoReply s

/-- **reset(id)** (R230). It acts on a servo, not on the block (70_reset_and_hazards.md R303). -/
def execReset (id : Int) (s : State) : Answer :=
  transact (.reset id) (buildReset id) (fun t => t.startReceive .awaitingResponse) infoReply s

end Sys2Proof.Machine
end

