-- ==== Sys2Proof/Machine/Dispatch.lean ====
section
/-! DEFINITION. One arm per instruction, each one call of its meaning. -/

namespace Sys2Proof.Machine

/-- One transition of an instruction (44_transactor.md R220): its start at an idle transactor, its next transition when it
is the operation in flight. -/
def exec (i : Instr) (s : State) : Host.Outcome State Fault Refusal :=
  match i with
  | .ping id => Sys2Proof.Machine.execPing id s
  | .read id target => Sys2Proof.Machine.execRead id target s
  | .write id form awaited => Sys2Proof.Machine.execWrite id form awaited s
  | .regWrite id form => Sys2Proof.Machine.execRegWrite id form s
  | .action id => Sys2Proof.Machine.execAction id s
  | .recovery id => Sys2Proof.Machine.execRecovery id s
  | .reset id => Sys2Proof.Machine.execReset id s
  | .syncRead ids target => Sys2Proof.Machine.execSyncRead ids target s
  | .syncWrite form => Sys2Proof.Machine.execSyncWrite form s

end Sys2Proof.Machine
end

