-- ==== Sys2Proof/Machine/Fetch.lean ====
section
/-! DEFINITION. What a step does when the transactor is idle, with the caller's next request, and when an operation is in
flight (44_transactor.md R220). Step.lean only calls these. -/

namespace Sys2Proof.Machine

/-- Serves a request of the caller: an operation, an instruction packet decoded into one, a pause, or a teardown. -/
def serve (r : Request) (s : State) : Answer :=
  match r with
  | .call i => exec i s
  | .packet bytes =>
    match decode bytes with
    | .ok i => exec i s
    | .error e => .refused (.undecodable e)
  | .pause ms => .next { s with now := s.now + ms }
  | .teardown => .next s.teardown

/-- A step of an idle transactor: the next request, in FIFO order (20_memory.md R65). Without one it does nothing
(60_exceptions.md R292). -/
def stepIdle (s : State) : Answer :=
  match s.requests with
  | [] => .next s
  | r :: rest => serve r { s with requests := rest }

/-- A step of a transactor with an operation in flight: what the caller does between steps, or else the operation's next
transition. -/
def stepInFlight (s : State) : Answer :=
  match s.op with
  | none => .fault .cursorLost
  | some i =>
    match s.interrupts with
    | [] => exec i s
    | none :: rest => exec i { s with interrupts := rest }
    | some a :: rest => .next ({ s with interrupts := rest }.interrupted a)

/-- The state in which the next step serves this packet first: no operation in flight, the packet at the head of the
requests (log 15). -/
def State.requestPacket (s : State) (bytes : List Byte) : State :=
  { s.finish with requests := .packet bytes :: s.requests }

end Sys2Proof.Machine
end

