-- ==== Sys2Proof/Machine/Step.lean ====
section
/-! DEFINITION. One step of the transactor, one row of the table of 44_transactor.md R220, and the host's way to place an
instruction where the next step finds it. -/

namespace Sys2Proof.Machine

/-- One step of the transactor agent (00_scope.md R7, D2). -/
def step (s : State) : Host.Outcome State Fault Refusal :=
  match s.phase with
  | .idle => stepIdle s
  | .sending | .awaitingResponse | .draining => stepInFlight s

/-- `s` with the packet of a table word as the caller's next request. Nothing else changes at an idle transactor. Log 15. -/
def State.withFetchWord (s : State) (nbits w : Nat) : State := s.requestPacket (tableFrame nbits w)

end Sys2Proof.Machine
end

