-- ==== Sys2Proof/Safety.lean ====
section
/-! DEFINITION. The terms in which claims are stated: the invariant of the transactor, clean runs, the states a claim
starts from and arrives at, and the real number a user value is. -/

namespace Sys2Proof.Machine

/-- The transactor reads a reply (10_state.md R21). -/
abbrev State.receiving (s : State) : Prop := s.phase = .awaitingResponse ∨ s.phase = .draining

/-- The invariant of the transactor (10_state.md R22, R25, R26, 44_transactor.md R220, R238). -/
structure State.Inv (s : State) : Prop where
  /-- R26 -/
  idle_iff : s.phase = .idle ↔ s.op = none
  /-- R22: the idle values of the cursor -/
  idle_cursor : s.phase = .idle → s.deadline = none ∧ s.slot = 0 ∧ s.acc = [] ∧ s.failed = false
  /-- R302: a teardown ends the operation in flight -/
  open_in_flight : s.phase ≠ .idle → s.transport = .opened
  /-- R221, R271: an operation in flight was admitted and its packet was built -/
  admitted : ∀ i, s.op = some i → admitIds i = none ∧ ∃ pkt, encode s.params i = .ok pkt
  /-- the cursor is fresh until the packet is written -/
  sending_cursor : s.phase = .sending → s.deadline = none ∧ s.slot = 0 ∧ s.acc = [] ∧ s.failed = false
  /-- R223, R242: a running receive loop has a deadline, and a reply it waits for -/
  receiving_cursor : s.receiving → s.deadline ≠ none ∧ ∀ i, s.op = some i → s.slot < expectedReplies i
  /-- R235, R236: the slots of a SYNC_READ so far -/
  sync_slots : s.receiving → ∀ ids target, s.op = some (.syncRead ids target) →
    (s.failed = false → s.acc.length = s.slot) ∧ (s.failed = true ↔ s.phase = .draining)
  /-- R22, R242: other operations keep the idle values, and drain only a WRITE that is not awaited -/
  single_reply : s.receiving → ∀ i, s.op = some i → (∀ ids target, i ≠ .syncRead ids target) →
    s.slot = 0 ∧ s.acc = [] ∧ s.failed = false
      ∧ (s.phase = .draining ↔ ∃ id form, i = .write id form false)
  /-- R25: the transport is closed exactly once -/
  closed_once : s.trace.count .close = if s.transport = .closed then 1 else 0

/-- No refusal and no fault so far (10_state.md R27). -/
abbrev State.clean (s : State) : Prop := s.refused = false ∧ s.faults = []

/-- The transactor can start an operation: open and idle. -/
abbrev State.ready (s : State) : Prop := s.transport = .opened ∧ s.phase = .idle

/-- The operation `i` is in flight and reads a reply until `d`. -/
abbrev State.awaits (s : State) (i : Instr) (d : Nat) : Prop := s.op = some i ∧ s.receiving ∧ s.deadline = some d

/-- The next chunk read takes `dt` milliseconds and ends the receive loop of deadline `d` with `o`, leaving the buffer at
`buf` (44_transactor.md R223): a packet is complete, or the deadline has passed without one. -/
def State.receives (s : State) (d dt : Nat) (buf : List Byte) (o : Reply) : Prop :=
  ∃ c, s.nextRead (min 10 (d - s.now)) = .data c dt ∧
    ((∃ p, extractPacket (s.rxBuf ++ c) = .complete p buf ∧ o = .packet (parseResponse p))
      ∨ (extractPacket (s.rxBuf ++ c) = .incomplete buf ∧ d ≤ s.now + dt ∧ o = .noResponse))

/-- `s` after one chunk read before the deadline `d` that took `dt` milliseconds and left the buffer at `buf`. -/
def State.afterRead (s : State) (d dt : Nat) (buf : List Byte) : State :=
  { s.dropRead with rxBuf := buf, now := s.now + dt, trace := s.trace ++ [.read (min 10 (d - s.now))] }

/-- `s` after its packet was written in `dt` milliseconds. -/
def State.afterWrite (s : State) (bytes : List Byte) (dt : Nat) : State :=
  { s.dropWrite with now := s.now + dt, trace := s.trace ++ [.write bytes] }

/-- `s` with its operation ended by an outcome: the cursor at its idle values, the outcome returned, all else the same. -/
def State.endedWith (s : State) (o : OpOutcome) : State :=
  { s with phase := .idle, op := none, deadline := none, slot := 0, acc := [], failed := false,
           returned := s.returned ++ [o] }

/-- The operation returns the status info of its one reply (10_state.md R32). -/
def returnsInfo : Instr → Bool
  | .ping _ | .recovery _ | .reset _ | .regWrite _ _ | .write _ _ true => true
  | .read _ _ | .write _ _ false | .action _ | .syncRead _ _ | .syncWrite _ => false

/-- The servo ID of an operation that expects one reply from it (44_transactor.md R221). -/
def unicastId : Instr → Option Int
  | .ping id | .read id _ | .write id _ _ | .regWrite id _ | .recovery id | .reset id => some id
  | .action _ | .syncRead _ _ | .syncWrite _ => none

/-- The frame a servo sends (30_encoding.md R81): header, ID, LEN, STATUS, parameters, checksum. -/
def replyFrame (id status : Byte) (params : List Byte) : List Byte :=
  frame (id :: BitVec.ofNat 8 (params.length + 2) :: status :: params)

/-- The real number a user's real is. -/
noncomputable def userRealOf : UserReal → ℝ
  | .exact x => realOf x
  | .named n => realOfCut (Config.userReal n)

/-- `round(x)` on the reals: the nearest integer, ties away from zero (00_scope.md R12). -/
noncomputable def roundReal (x : ℝ) : ℤ := if 0 ≤ x then ⌊x + 1 / 2⌋ else -⌊-x + 1 / 2⌋

/-- `drains b fs` says that feeding the rest back in yields the packets `fs` in order and then an empty incomplete buffer. -/
def drains : List Byte → List (List Byte) → Prop
  | b, [] => extractPacket b = .incomplete []
  | b, f :: fs => ∃ rest, extractPacket b = .complete f rest ∧ drains rest fs

/-- The factor of a numeric conversion, in user units a raw step (42_control_table.md R195). -/
def conversionFactor (t : ControlTable) : Conversion → Option PiNum
  | .none | .positionOffset => some oneStep
  | .scale f => some (scaleFactor f)
  | .position => some t.positionScale
  | .speed | .speedSigned => some t.speedScale
  | .loadSigned => some loadFactor
  | .bool | .mode | .baudRate => none

/-- The bytes of a raw integer under a conversion: sign-magnitude at its sign bit, else unsigned (R179). -/
def encodeStep (len : Nat) (z : Int) : Conversion → Checked (List Byte)
  | .none | .scale _ | .speed | .bool | .mode | .baudRate => encodeUint z len
  | .position | .speedSigned => encodeSignMagnitude z 15 2
  | .loadSigned => encodeSignMagnitude z 10 2
  | .positionOffset => encodeSignMagnitude z 11 2

/-- `enc(name, v, mode)`: **encode_user** in the converted view, **encode_raw** in the raw view (30_encoding.md R96). -/
def encodeByName (p : Params) (name : String) : View → UserValue → Checked (List Byte)
  | .converted, v => encodeUser p.table p.modeUnknownRaw name v
  | .raw, v => encodeRaw p.table name v

/-- The raw values a numeric conversion can encode on `len` bytes, as a least and a greatest (R195). -/
def rawRange (len : Nat) : Conversion → Int × Int
  | .none | .scale _ | .speed | .bool | .mode | .baudRate => (0, 2 ^ (8 * len) - 1)
  | .position | .speedSigned => (-(2 ^ 15 - 1), 2 ^ 15 - 1)
  | .loadSigned => (-(2 ^ 10 - 1), 2 ^ 10 - 1)
  | .positionOffset => (-(2 ^ 11 - 1), 2 ^ 11 - 1)

/-- The readings a SYNC_READ slot can give on parameters `s` (44_transactor.md R235). -/
def slotGives (p : Params) (target : ReadForm) (s : List Byte) (v : Reading) : Prop :=
  match target with
  | .named name view => ∃ reg, (name, reg) ∈ p.table.registers ∧ s.length = reg.length ∧
      v = .value (match view with
        | .converted => decodeConversion p.table reg.conversion s
        | .raw => .int (uintLE s))
  | .addressed _ l => (s.length : Int) = l ∧ v = .params s

end Sys2Proof.Machine
end

