-- ==== Sys2Proof/Certificates/Slice0/Obligations.lean ====
section
/-! DEFINITION. The statements for the provers, by component: C1 integer codec, C2 packet codec, C3 control table, C4 status
parser, C5 transactor. -/

open Sys2Proof Sys2Proof.Machine

/-! ## C1, the integer codec -/

/-- Encoding is little-endian truncation modulo 2^(8n), other widths refused (40_integer_codec.md section R120, 20_memory.md
section 2). The refusal is the spec's own decision D9. -/
def Obligations.EncodeUintIsLittleEndianTruncation : Prop :=
  (∀ (v : Int) (n : Nat), n = 1 ∨ n = 2 ∨ n = 4 →
    ∃ s, encodeUint v n = .ok s ∧ s.length = n
      ∧ ∀ k, k < n → s[k]? = some (BitVec.ofNat 8 ((v % (2 ^ (8 * n) : Nat)).toNat / 256 ^ k)))
  ∧ ∀ (v : Int) (n : Nat), ¬(n = 1 ∨ n = 2 ∨ n = 4) → encodeUint v n = .error (.refuse .intWidth)

/-- Unsigned integers round-trip in both directions (derived in the spec at R126). Other lengths are refused (D9). -/
def Obligations.UnsignedCodecRoundTrips : Prop :=
  (∀ (v : Int) (n : Nat), n = 1 ∨ n = 2 ∨ n = 4 →
    ∃ s, encodeUint v n = .ok s ∧ decodeUint s = .ok (v % (2 ^ (8 * n) : Nat)).toNat)
  ∧ (∀ s : List Byte, s.length = 1 ∨ s.length = 2 ∨ s.length = 4 →
    ∃ u, decodeUint s = .ok u ∧ encodeUint (u : Int) s.length = .ok s)
  ∧ ∀ s : List Byte, ¬(s.length = 1 ∨ s.length = 2 ∨ s.length = 4) → decodeUint s = .error (.refuse .intWidth)

/-- Sign-magnitude integers round-trip on |v| ≤ 2^b - 1 (derived in the spec at R125), and a reading has the low b bits as
magnitude and bit b as sign, whatever the bits above b (40_integer_codec.md section R124). Any v at all is encoded by the
formula and then truncated (at R123), and a sign bit outside the width is refused as `sign_bit_width`: both are the spec's
own decision D8. A width other than 1, 2, 4 is refused as `int_width` (D9); where a reading has both faults the length
decides, which is the model's choice (log 25). -/
def Obligations.SignMagnitudeRoundTrips : Prop :=
  (∀ (v : Int) (b n : Nat), n = 1 ∨ n = 2 ∨ n = 4 → b < 8 * n → v.natAbs ≤ 2 ^ b - 1 →
    ∃ s, encodeSignMagnitude v b n = .ok s ∧ decodeSignMagnitude s b = .ok v)
  ∧ (∀ (s : List Byte) (b : Nat), s.length = 1 ∨ s.length = 2 ∨ s.length = 4 → b < 8 * s.length →
    ∃ u, decodeUint s = .ok u
      ∧ decodeSignMagnitude s b =
          .ok (if u / 2 ^ b % 2 = 1 then -((u % 2 ^ b : Nat) : Int) else ((u % 2 ^ b : Nat) : Int)))
  ∧ (∀ (v : Int) (b n : Nat),
      (b < 8 * n → encodeSignMagnitude v b n =
        encodeUint (if v < 0 then ((1 <<< b ||| v.natAbs : Nat) : Int) else v) n)
      ∧ (8 * n ≤ b → encodeSignMagnitude v b n = .error (.refuse .signBitWidth)))
  ∧ ∀ (s : List Byte) (b : Nat),
      (s.length = 1 ∨ s.length = 2 ∨ s.length = 4 → 8 * s.length ≤ b →
        decodeSignMagnitude s b = .error (.refuse .signBitWidth))
      ∧ (¬(s.length = 1 ∨ s.length = 2 ∨ s.length = 4) → decodeSignMagnitude s b = .error (.refuse .intWidth))

/-- The two's complement reading over 8, 16 or 32 bits, other lengths refused. The refusal of other lengths is the
spec's own decision D9. -/
def Obligations.DecodeIntSignedIsTwosComplement : Prop :=
  (∀ s : List Byte, s.length = 1 ∨ s.length = 2 ∨ s.length = 4 →
    ∃ u, decodeUint s = .ok u
      ∧ decodeIntSigned s =
          .ok (if 2 ^ (8 * s.length - 1) ≤ u then (u : Int) - (2 ^ (8 * s.length) : Nat) else (u : Int)))
  ∧ ∀ s : List Byte, ¬(s.length = 1 ∨ s.length = 2 ∨ s.length = 4) →
    decodeIntSigned s = .error (.refuse .intWidth)

/-! ## C2, the packet codec -/

/-- The layout of an instruction packet (R80). -/
def Obligations.PacketHasTheInstructionLayout : Prop :=
  ∀ (id : Int) (code : Byte) (params : List Int) (s : List Byte), packet id code params = .ok s →
    s = [0xFF#8, 0xFF#8, toByte id, BitVec.ofNat 8 (params.length + 2), code] ++ params.map toByte
          ++ [chk ([toByte id, BitVec.ofNat 8 (params.length + 2), code] ++ params.map toByte)]
      ∧ s.length = params.length + 6 ∧ 0 ≤ id ∧ id ≤ 254

/-- Every packet an instruction sends: LEN is the length less 4, the last byte is the checksum of the bytes from ID to the
last parameter, the frame is 6 to 259 bytes long, and its ID byte is in 0..254 (derived in the spec at R150 and R88). -/
def Obligations.EveryBuiltPacketIsChecksummed : Prop :=
  ∀ (p : Params) (i : Instr) (s : List Byte), encode p i = .ok s →
    6 ≤ s.length ∧ s.length ≤ 259
      ∧ (∃ len, s[3]? = some len ∧ len.toNat + 4 = s.length)
      ∧ (∃ id, s[2]? = some id ∧ id.toNat ≤ 254)
      ∧ (∃ c, s[s.length - 1]? = some c
          ∧ c.toNat = 255 - byteSum ((s.drop 2).take (s.length - 3)) % 256)
      ∧ byteSum (s.drop 2) % 256 = 255

/-- The parameters and the LEN byte of each instruction, and the replies it expects (R86). ACTION's builder takes any ID
(R145). -/
def Obligations.EachInstructionHasItsParameterLayout : Prop :=
  (∀ (p : Params) (i : Instr) (id : Int) (s : List Byte) (code : Byte),
      (i = .ping id ∧ code = 0x01#8 ∨ i = .action id ∧ code = 0x05#8 ∨ i = .recovery id ∧ code = 0x06#8
        ∨ i = .reset id ∧ code = 0x0A#8) →
      encode p i = .ok s →
      s = frame [toByte id, 2#8, code] ∧ expectedReplies i = (if code = 0x05#8 then 0 else 1))
  ∧ (∀ (p : Params) (id a l : Int) (s : List Byte), encode p (.read id (.addressed a l)) = .ok s →
      s = frame [toByte id, 4#8, 0x02#8, toByte a, toByte l]
        ∧ expectedReplies (.read id (.addressed a l)) = 1)
  ∧ (∀ (p : Params) (id a : Int) (data : List Int) (w : Bool) (s : List Byte),
      encode p (.write id (.addressed a data) w) = .ok s →
      s = frame (toByte id :: BitVec.ofNat 8 (data.length + 3) :: 0x03#8 :: toByte a :: data.map toByte)
        ∧ expectedReplies (.write id (.addressed a data) w) = 1)
  ∧ (∀ (p : Params) (id a : Int) (data : List Int) (s : List Byte),
      encode p (.regWrite id (.addressed a data)) = .ok s →
      s = frame (toByte id :: BitVec.ofNat 8 (data.length + 3) :: 0x04#8 :: toByte a :: data.map toByte)
        ∧ expectedReplies (.regWrite id (.addressed a data)) = 1)
  ∧ (∀ (p : Params) (a l : Int) (ids : List Int) (s : List Byte),
      encode p (.syncRead ids (.addressed a l)) = .ok s →
      s = frame (0xFE#8 :: BitVec.ofNat 8 (ids.length + 4) :: 0x82#8 :: toByte a :: toByte l :: ids.map toByte)
        ∧ expectedReplies (.syncRead ids (.addressed a l)) = ids.length)
  ∧ ∀ (p : Params) (a l : Int) (pairs : List (Int × List Int)) (s : List Byte),
      encode p (.syncWrite (.addressed a l pairs)) = .ok s →
      s = frame (0xFE#8 :: BitVec.ofNat 8 (pairs.length * (l.toNat + 1) + 4) :: 0x83#8 :: toByte a :: toByte l
            :: pairs.flatMap (fun e => toByte e.1 :: e.2.map toByte))
        ∧ (∀ e ∈ pairs, (e.2.length : Int) = l)
        ∧ expectedReplies (.syncWrite (.addressed a l pairs)) = 0

/-- An instruction's packet can be built exactly when the instruction is well formed (60_exceptions.md R271 steps 2 to 4). -/
def Obligations.EncodeSucceedsExactlyOnWellFormed : Prop :=
  ∀ (p : Params) (i : Instr), (∃ s, encode p i = .ok s) ↔ i.wellFormed p = true

/-- The reason each ill-formed packet is refused for, by `packet` and by the builders that check before it
(41_packet_codec.md section 1, 60_exceptions.md section 2). -/
def Obligations.BuildersRefuseByName : Prop :=
  (∀ (id : Int) (code : Byte) (ps : List Int), ¬(0 ≤ id ∧ id ≤ 254) →
      packet id code ps = .error (.refuse .idRange))
  ∧ (∀ (id : Int) (code : Byte) (ps : List Int), 0 ≤ id ∧ id ≤ 254 → (∃ q ∈ ps, ¬(0 ≤ q ∧ q ≤ 255)) →
      packet id code ps = .error (.refuse .byteRange))
  ∧ (∀ (id : Int) (code : Byte) (ps : List Int), 0 ≤ id ∧ id ≤ 254 → (∀ q ∈ ps, 0 ≤ q ∧ q ≤ 255) →
      253 < ps.length → packet id code ps = .error (.refuse .packetTooLong))
  ∧ (∀ (id a l : Int) (data ids : List Int) (pairs : List (Int × List Int)),
      (¬(0 ≤ a ∧ a ≤ 255) →
        buildWrite id a data = .error (.refuse .byteRange) ∧ buildRegWrite id a data = .error (.refuse .byteRange))
      ∧ (¬((0 ≤ a ∧ a ≤ 255) ∧ (0 ≤ l ∧ l ≤ 255)) →
        buildRead id a l = .error (.refuse .byteRange) ∧ buildSyncRead a l ids = .error (.refuse .byteRange)
          ∧ buildSyncWrite a l pairs = .error (.refuse .byteRange)))
  ∧ (∀ (a l : Int) (ids : List Int), (0 ≤ a ∧ a ≤ 255) → (0 ≤ l ∧ l ≤ 255) →
      (∃ id ∈ ids, ¬(0 ≤ id ∧ id ≤ 254)) → buildSyncRead a l ids = .error (.refuse .idRange))
  ∧ ∀ (a l : Int) (before after : List (Int × List Int)) (e : Int × List Int),
      (0 ≤ a ∧ a ≤ 255) → (0 ≤ l ∧ l ≤ 255) →
      (∀ q ∈ before, (0 ≤ q.1 ∧ q.1 ≤ 254) ∧ (q.2.length : Int) = l) →
      (¬(0 ≤ e.1 ∧ e.1 ≤ 254) → buildSyncWrite a l (before ++ e :: after) = .error (.refuse .idRange))
      ∧ (0 ≤ e.1 ∧ e.1 ≤ 254 → (e.2.length : Int) ≠ l →
        buildSyncWrite a l (before ++ e :: after) = .error (.refuse .syncWriteLength))

/-- Decoding an encoded well-formed instruction in packet form gives it back, every operand at every value. -/
def Obligations.DecodeInvertsEncode : Prop :=
  ∀ (p : Params) (i : Instr), i.wellFormed p = true → i.isPacketForm = true →
    ∃ s, encode p i = .ok s ∧ decode s = .ok i

/-- Decoding the packet of any instruction gives its packet form: a register by name replaced by what it resolves to
(30_encoding.md R96; that a decoded WRITE is awaited is the model's choice, log 13). That packet is one builder call: an
addressed form is the call of its operands (log 1); an operation by name takes the address and the length from the table,
and its data from `encode_user` or `encode_raw` of each value (D28), where the first value that cannot be encoded decides. -/
def Obligations.DecodeGivesTheExpansion : Prop :=
  (∀ (p : Params) (i : Instr) (s : List Byte), encode p i = .ok s →
    ∃ j, expand p i = .ok j ∧ decode s = .ok j ∧ j.isPacketForm = true)
  ∧ ∀ p : Params,
    (∀ id, encode p (.ping id) = buildPing id ∧ encode p (.recovery id) = buildRecovery id
      ∧ encode p (.reset id) = buildReset id ∧ encode p (.action id) = buildAction id)
    ∧ (∀ (id a l : Int) (data ids : List Int) (pairs : List (Int × List Int)) (w : Bool),
      encode p (.read id (.addressed a l)) = buildRead id a l
      ∧ encode p (.write id (.addressed a data) w) = buildWrite id a data
      ∧ encode p (.regWrite id (.addressed a data)) = buildRegWrite id a data
      ∧ encode p (.syncRead ids (.addressed a l)) = buildSyncRead a l ids
      ∧ encode p (.syncWrite (.addressed a l pairs)) = buildSyncWrite a l pairs)
    ∧ ∀ (name : String) (d : RegisterDef), (name, d) ∈ p.table.registers →
      let dataOf := fun s : List Byte => s.map fun b => (b.toNat : Int)
      (∀ id view, encode p (.read id (.named name view)) = buildRead id d.address d.length)
      ∧ (∀ ids view, encode p (.syncRead ids (.named name view)) = buildSyncRead d.address d.length ids)
      ∧ (∀ id v view w s, encodeByName p name view v = .ok s →
        encode p (.write id (.named name v view) w) = buildWrite id d.address (dataOf s))
      ∧ (∀ id v view w e, encodeByName p name view v = .error e →
        encode p (.write id (.named name v view) w) = .error e)
      ∧ (∀ id v s, encodeByName p name .converted v = .ok s →
        encode p (.regWrite id (.named name v)) = buildRegWrite id d.address (dataOf s))
      ∧ (∀ id v e, encodeByName p name .converted v = .error e →
        encode p (.regWrite id (.named name v)) = .error e)
      ∧ (∀ (view : View) (entries : List ((Int × UserValue) × List Byte)),
        (∀ q ∈ entries, encodeByName p name view q.1.2 = .ok q.2) →
        encode p (.syncWrite (.named name (entries.map Prod.fst) view)) =
          buildSyncWrite d.address d.length (entries.map fun q => (q.1.1, dataOf q.2)))
      ∧ ∀ (view : View) (before after : List (Int × UserValue)) (entry : Int × UserValue) (e : Stop),
        (∀ q ∈ before, ∃ s, encodeByName p name view q.2 = .ok s) → encodeByName p name view entry.2 = .error e →
        encode p (.syncWrite (.named name (before ++ entry :: after) view)) = .error e

/-- The other direction: bytes that decode are the packet of a well-formed instruction in packet form, so each packet has
one meaning. -/
def Obligations.EncodeInvertsDecode : Prop :=
  ∀ (p : Params) (s : List Byte) (i : Instr), decode s = .ok i →
    i.wellFormed p = true ∧ i.isPacketForm = true ∧ encode p i = .ok s

/-- Words of 95_test_vectors.md (S4, S6, S7, S8, V2.6, V2.8 to V2.10, V2.13) decode to the instructions they stand for. The
spec gives them as what the builders make; that they decode, and that a decoded WRITE is awaited, is the model's choice
(log 11, log 13). -/
def Obligations.SpecWordsDecode : Prop :=
  decode [0xFF, 0xFF, 0x01, 0x02, 0x01, 0xFB] = .ok (.ping 1)
  ∧ decode [0xFF, 0xFF, 0x01, 0x04, 0x02, 0x38, 0x02, 0xBE] = .ok (.read 1 (.addressed 0x38 2))
  ∧ decode [0xFF, 0xFF, 0x01, 0x05, 0x03, 0x2A, 0x00, 0x08, 0xC4] = .ok (.write 1 (.addressed 0x2A [0, 8]) true)
  ∧ decode [0xFF, 0xFF, 0x01, 0x05, 0x04, 0x2A, 0x00, 0x08, 0xC3] = .ok (.regWrite 1 (.addressed 0x2A [0, 8]))
  ∧ decode [0xFF, 0xFF, 0xFE, 0x02, 0x05, 0xFA] = .ok (.action 0xFE)
  ∧ decode [0xFF, 0xFF, 0x01, 0x02, 0x06, 0xF6] = .ok (.recovery 1)
  ∧ decode [0xFF, 0xFF, 0x01, 0x02, 0x0A, 0xF2] = .ok (.reset 1)
  ∧ decode [0xFF, 0xFF, 0xFE, 0x06, 0x82, 0x38, 0x02, 0x01, 0x02, 0x3C] = .ok (.syncRead [1, 2] (.addressed 0x38 2))
  ∧ decode [0xFF, 0xFF, 0xFE, 0x0A, 0x83, 0x2A, 0x02, 0x01, 0x00, 0x08, 0x02, 0x00, 0x88, 0xB5] =
      .ok (.syncWrite (.addressed 0x2A 2 [(1, [0, 8]), (2, [0, 0x88])]))

/-- A response parses exactly when it has header, a LEN of 2 or more, enough bytes and a right checksum, and then gives
its ID, status and parameters (41_packet_codec.md section R151). A reply a servo builds is reframed whole from the front of
any buffer and parses to its fields (derived in the spec at R154). -/
def Obligations.ParseResponseAcceptsExactlyValidFrames : Prop :=
  (∀ (s : List Byte) (r : Response), parseResponse s = .ok r ↔
    r.params.length ≤ 253 ∧ ∃ trailing, s = replyFrame r.id r.status r.params ++ trailing)
  ∧ ∀ (id status : Byte) (params c : List Byte), params.length ≤ 253 →
    extractPacket (replyFrame id status params ++ c) = .complete (replyFrame id status params) c
      ∧ parseResponse (replyFrame id status params) = .ok ⟨id, status, params⟩

/-- Storing the reframer's incomplete buffer loses nothing that later bytes could complete (derived in the spec at R153 (a)
and (b)). -/
def Obligations.ReframerKeepsWhatMayComplete : Prop :=
  ∀ b b' : List Byte, extractPacket b = .incomplete b' →
    extractPacket b' = .incomplete b' ∧ ∀ c, extractPacket (b ++ c) = extractPacket (b' ++ c)

/-- A complete packet is a header-led piece of the buffer of length LEN + 4, and only what precedes it is discarded. It never
fails to parse for its header, and lacks bytes only when its LEN is below 2 (derived in the spec at R153 (c) and R155). -/
def Obligations.ReframerSplitsOnePacketOff : Prop :=
  ∀ b p r : List Byte, extractPacket b = .complete p r →
    (∃ garbage, b = garbage ++ p ++ r) ∧ p.take 2 = [0xFF#8, 0xFF#8]
      ∧ (∃ len, p[3]? = some len ∧ p.length = len.toNat + 4)
      ∧ (∀ e, parseResponse p = .error e → e = .invalidChecksum ∨ e = .incompletePacket)
      ∧ (parseResponse p = .error .incompletePacket ↔ ∃ len, p[3]? = some len ∧ len.toNat < 2)

/-- From frames with garbage free of 0xFF before and after each, the reframer recovers every frame in order (derived in the
spec at R153 (d), 90_conflicts.md C4). -/
def Obligations.ReframerRecoversTheStream : Prop :=
  ∀ (pieces : List (List Byte × List Byte)) (last : List Byte),
    (∀ q ∈ pieces, 0xFF#8 ∉ q.1 ∧ q.2.take 2 = [0xFF#8, 0xFF#8]
      ∧ ∃ len, q.2[3]? = some len ∧ q.2.length = len.toNat + 4) →
    0xFF#8 ∉ last →
    drains (pieces.flatMap (fun q => q.1 ++ q.2) ++ last) (pieces.map Prod.snd)

/-! ## C3, the control table and the conversions -/

/-- The scales of the STS3215: position 2π/4096 radians a step, speed 50 times that (R172). -/
def Obligations.ScalesOfTheSTS3215 : Prop :=
  ∀ m : ServoModel,
    (tableOf m).stepsPerRevolution = 4096
      ∧ realOf (tableOf m).positionScale = 2 * Real.pi / 4096
      ∧ realOf (tableOf m).speedScale = 50 * realOf (tableOf m).positionScale

/-- The table is well formed, has 34 registers, and no two of them overlap (10_state.md section 4, 20_memory.md section 4). -/
def Obligations.TableIsWellFormed : Prop :=
  tableOk sts3215 = true ∧ sts3215.registers.length = 34
    ∧ sts3215.registers.Pairwise fun a b => a.2.address + a.2.length ≤ b.2.address

/-- Lookup finds exactly the registers of the table, and every operation by name that is admitted returns
`unknown_register` for another name before any bytes hit the wire (R170). -/
def Obligations.LookupFindsExactlyTheTable : Prop :=
  (∀ (m : ServoModel) (name : String) (d : RegisterDef),
    lookupRegister (tableOf m) name = .ok d ↔ (name, d) ∈ (tableOf m).registers)
  ∧ (∀ (m : ServoModel) (name : String),
      (∀ d, (name, d) ∉ (tableOf m).registers) → lookupRegister (tableOf m) name = .error (.err .unknownRegister))
  ∧ ∀ (s : State) (i : Instr) (name : String), s.ready → admitIds i = none →
      (∀ d, (name, d) ∉ (tableOf s.controlTable).registers) →
      ((∃ id view, i = .read id (.named name view)) ∨ (∃ id v view w, i = .write id (.named name v view) w)
        ∨ (∃ id v, i = .regWrite id (.named name v)) ∨ (∃ ids view, i = .syncRead ids (.named name view))
        ∨ ∃ pairs view, i = .syncWrite (.named name pairs view)) →
      exec i s = .next { s with returned := s.returned ++ [.err .unknownRegister] }

/-- The modes of raw values (42_control_table.md R174), and the baud rates of raw values with their fallback (R176). That
there are the eight rates and no other is the spec's own decision D30. -/
def Obligations.RawToModeIsTotal : Prop :=
  (rawToMode 0 = .position ∧ rawToMode 1 = .velocity ∧ rawToMode 2 = .pwm ∧ rawToMode 3 = .step
    ∧ ∀ r, 3 < r → rawToMode r = .unknown)
  ∧ (List.range 8).map (fun r => bitsPerSecond (rawToBaud r)) =
      [1000000, 500000, 250000, 128000, 115200, 76800, 57600, 38400]
  ∧ (∀ r, 7 < r → bitsPerSecond (rawToBaud r) = 1000000)
  ∧ ∀ b : Baud, rawToBaud (baudToRaw b) = b

/-- A converted encode refuses exactly the wrong kinds of value, and mode `unknown` when it has no raw value
(42_control_table.md section 3, decisions D29 and D31). -/
def Obligations.ConvertedEncodeRefusesWrongKinds : Prop :=
  ∀ (m : ServoModel) (u : Option Byte) (name : String) (d : RegisterDef) (v : UserValue),
    (name, d) ∈ (tableOf m).registers →
    (valueAccepted ⟨m, u⟩ d.conversion v = true →
      ∃ s, encodeUser (tableOf m) u name v = .ok s ∧ s.length = d.length)
    ∧ (valueAccepted ⟨m, u⟩ d.conversion v = false →
      encodeUser (tableOf m) u name v =
        .error (.refuse (if d.conversion = .mode ∧ v = .mode .unknown then .modeUnknown else .valueKind)))

/-- Sign-magnitude conversions have the sign at bit 15, 15, 10 and 11, in decoding and in encoding, and all over 2 bytes
(42_control_table.md R177). The magnitude is multiplied by the conversion's factor in decoding, and is the rounded quotient
by it in encoding (R179, R183, R185 to R187). That rounding comes before sign-magnitude is the spec's own decision D8, and
that `position_offset` is in steps its decision D45. -/
def Obligations.SignBitsOfTheConversions : Prop :=
  (∀ (m : ServoModel) (s : List Byte) (b : Nat) (z : Int), s.length = 2 → decodeSignMagnitude s b = .ok z →
    (b = 15 → ∃ y y', decodeConversion (tableOf m) .position s = .num (.exact y)
      ∧ realOf y = z * realOf (tableOf m).positionScale
      ∧ decodeConversion (tableOf m) .speedSigned s = .num (.exact y') ∧ realOf y' = z * realOf (tableOf m).speedScale)
    ∧ (b = 10 → ∃ y, decodeConversion (tableOf m) .loadSigned s = .num (.exact y) ∧ realOf y = z / 10)
    ∧ (b = 11 → decodeConversion (tableOf m) .positionOffset s = .int z))
  ∧ (∀ (m : ServoModel) (u : Option Byte) (d : RegisterDef) (v : UserValue) (x : UserReal), numericValue v = some x →
    (d.conversion = .position → encodeConversion (tableOf m) u d v =
      encodeSignMagnitude (roundReal (userRealOf x / realOf (tableOf m).positionScale)) 15 2)
    ∧ (d.conversion = .speedSigned → encodeConversion (tableOf m) u d v =
      encodeSignMagnitude (roundReal (userRealOf x / realOf (tableOf m).speedScale)) 15 2)
    ∧ (d.conversion = .loadSigned → encodeConversion (tableOf m) u d v =
      encodeSignMagnitude (roundReal (userRealOf x / (1 / 10))) 10 2)
    ∧ (d.conversion = .positionOffset → encodeConversion (tableOf m) u d v =
      encodeSignMagnitude (roundReal (userRealOf x)) 11 2))
  ∧ ∀ (m : ServoModel) (e : String × RegisterDef), e ∈ (tableOf m).registers →
      (e.2.conversion = .position ∨ e.2.conversion = .speedSigned ∨ e.2.conversion = .loadSigned
        ∨ e.2.conversion = .positionOffset) → e.2.length = 2

/-- Raw decoding is the unsigned little-endian integer, and a raw-mode read returns it for every register's conversion
(R192). Raw encoding is `encode_uint` of an integer at the register's length, and any other kind is refused (R190): so do
WRITE and SYNC_WRITE in the raw view, whose packets are those of the addressed forms (30_encoding.md R96; log 1). -/
def Obligations.RawReadsAreUnsigned : Prop :=
  (∀ s : List Byte, s.length = 1 ∨ s.length = 2 ∨ s.length = 4 →
    ∃ u : Nat, decodeUint s = .ok u ∧ decodeRaw s = .ok (.int u))
  ∧ (∀ (p : Params) (name : String) (d : RegisterDef) (s : List Byte),
      (name, d) ∈ p.table.registers → s.length = d.length →
      ∃ u : Nat, decodeUint s = .ok u ∧ readParams p (.named name .raw) s = some (.value (.int u)))
  ∧ (∀ (p : Params) (name : String) (v : UserValue), (∀ d, (name, d) ∉ p.table.registers) →
      encodeRaw p.table name v = .error (.err .unknownRegister))
  ∧ ∀ (p : Params) (name : String) (d : RegisterDef), (name, d) ∈ p.table.registers →
      (∀ z : Int, ∃ s, encodeUint z d.length = .ok s ∧ encodeRaw p.table name (.int z) = .ok s
        ∧ ∀ id w, encode p (.write id (.named name (.int z) .raw) w)
            = encode p (.write id (.addressed d.address (byteInts s)) w))
      ∧ (∀ (bytes : Int → List Byte), (∀ z, encodeUint z d.length = .ok (bytes z)) →
          ∀ pairs : List (Int × Int),
            encode p (.syncWrite (.named name (pairs.map fun e => (e.1, .int e.2)) .raw))
              = encode p (.syncWrite (.addressed d.address d.length
                  (pairs.map fun e => (e.1, byteInts (bytes e.2))))))
      ∧ (∀ v : UserValue, (∀ z, v ≠ .int z) → encodeRaw p.table name v = .error (.refuse .valueKind)
        ∧ ∀ id w, encode p (.write id (.named name v .raw) w) = .error (.refuse .valueKind))
      ∧ ∀ pairs : List (Int × UserValue), (∃ e ∈ pairs, ∀ z, e.2 ≠ .int z) →
          encode p (.syncWrite (.named name pairs .raw)) = .error (.refuse .valueKind)

/-- `round(x)` on every real `x`: the formula of R12, the nearest integer, and at a tie the one of larger magnitude. It is
odd (42_control_table.md R193). A real is given to the model by its place among the numbers `q + p·π`, and every real has
one. -/
def Obligations.RoundingIsNearestTiesAway : Prop :=
  (∀ r : ℝ, ∃ c : RealCut, realOfCut c = r)
  ∧ (∀ c : RealCut,
      (roundQuotient c (piInt 1) : ℝ) = Real.sign (realOfCut c) * (⌊|realOfCut c| + 1 / 2⌋ : ℝ)
      ∧ |realOfCut c - (roundQuotient c (piInt 1) : ℝ)| ≤ 1 / 2
      ∧ ∀ z : Int, |realOfCut c - (z : ℝ)| = 1 / 2 → |z| ≤ |roundQuotient c (piInt 1)|)
  ∧ ∀ c c' : RealCut, realOfCut c' = -realOfCut c → roundQuotient c' (piInt 1) = -roundQuotient c (piInt 1)

/-- Dividing any real by a positive rational or a positive rational multiple of π and rounding is the rounding of the exact
real quotient, and a user's real is divided as the real it is (42_control_table.md section 5). -/
def Obligations.RoundedQuotientsAreExact : Prop :=
  (∀ (c : RealCut) (f : Rat), 0 < f →
    roundQuotient c ⟨f, 0⟩ = roundReal (realOfCut c / (f : ℝ))
    ∧ roundQuotient c ⟨0, f⟩ = roundReal (realOfCut c / ((f : ℝ) * Real.pi)))
  ∧ ∀ x : UserReal, realOfCut (userCut x) = userRealOf x

/-- A numeric value whose rounded raw value is in the encodable range comes back within half a unit when it is encoded and
decoded again (derived in the spec at R195). -/
def Obligations.NumericConversionsRoundTrip : Prop :=
  ∀ (m : ServoModel) (u : Option Byte) (name : String) (d : RegisterDef) (v : UserValue) (x : UserReal) (f : PiNum),
    (name, d) ∈ (tableOf m).registers → numericValue v = some x →
    conversionFactor (tableOf m) d.conversion = some f →
    (rawRange d.length d.conversion).1 ≤ roundReal (userRealOf x / realOf f) →
    roundReal (userRealOf x / realOf f) ≤ (rawRange d.length d.conversion).2 →
    ∃ s w y, encodeUser (tableOf m) u name v = .ok s ∧ decodeUser (tableOf m) name s = .ok w
      ∧ numericValue w = some y ∧ |userRealOf y - userRealOf x| ≤ realOf f / 2

/-- Flags, baud rates and the four named modes come back exactly (derived in the spec at R195). Every raw value decodes: a
flag is true exactly when it is not 0, and a baud rate or a mode falls back (42_control_table.md at R181, R188, R189).
Bytes of another length than the register's are refused as `decode_length` for every conversion (at R191). -/
def Obligations.NamedValuesRoundTrip : Prop :=
  ∀ (m : ServoModel) (u : Option Byte) (name : String) (d : RegisterDef), (name, d) ∈ (tableOf m).registers →
    (∀ v : UserValue, ((d.conversion = .bool ∧ ∃ b, v = .flag b) ∨ (d.conversion = .baudRate ∧ ∃ b, v = .baud b)
        ∨ (d.conversion = .mode ∧ ∃ k, v = .mode k ∧ k ≠ .unknown)) →
      ∃ s, encodeUser (tableOf m) u name v = .ok s ∧ decodeUser (tableOf m) name s = .ok v)
    ∧ (∀ s : List Byte, s.length = d.length → ∃ r, decodeUint s = .ok r
        ∧ (d.conversion = .bool → ∃ b, decodeUser (tableOf m) name s = .ok (.flag b) ∧ (b = true ↔ r ≠ 0))
        ∧ (d.conversion = .mode → decodeUser (tableOf m) name s = .ok (.mode (rawToMode r)))
        ∧ (d.conversion = .baudRate → decodeUser (tableOf m) name s = .ok (.baud (rawToBaud r))))
    ∧ ∀ s : List Byte, s.length ≠ d.length → decodeUser (tableOf m) name s = .error (.refuse .decodeLength)

/-! ## C4, the status parser -/

/-- The errors of a status byte in ascending bit order, and its torque flag, and that it has an error exactly when one of
bits 0, 1, 2, 3 and 5 is set (43_status.md at R210 and R211; two of the error names are the spec's inference at R210). -/
def Obligations.StatusByteIsReadByItsBits : Prop :=
  ∀ s : Byte,
    (parseStatus s).errors =
      ([(0, StatusError.voltageError), (1, .sensorError), (2, .temperatureError), (3, .currentError),
        (5, .overloadError)].filter (fun e => s.getLsbD e.1)).map Prod.snd
      ∧ (parseStatus s).torqueEnabled = s.getLsbD 4
      ∧ (hasError s = true ↔
        s.getLsbD 0 = true ∨ s.getLsbD 1 = true ∨ s.getLsbD 2 = true ∨ s.getLsbD 3 = true ∨ s.getLsbD 5 = true)

/-! ## C5, the transactor: the start of an operation -/

/-- When the requested bytes decode to an instruction, a step of an idle transactor is exec of it, with the request taken
off the queue. A request of an operation runs the same way. With an operation in flight and the caller quiet, a step is
exec of that operation. An idle transactor without requests stays as it is (60_exceptions.md R292, log 20), and while the
caller pauses nothing but the clock moves (log 3). -/
def Obligations.StepRunsTheDecodedInstruction : Prop :=
  (∀ (s : State) (bytes : List Byte) (rest : List Request) (i : Instr), s.phase = .idle →
      s.requests = .packet bytes :: rest → decode bytes = .ok i → step s = exec i { s with requests := rest })
  ∧ (∀ (s : State) (rest : List Request) (i : Instr), s.phase = .idle →
      s.requests = .call i :: rest → step s = exec i { s with requests := rest })
  ∧ (∀ (s : State) (i : Instr), s.phase ≠ .idle → s.op = some i → s.interrupts = [] → step s = exec i s)
  ∧ (∀ (s : State) (i : Instr) (rest : List (Option Interrupt)), s.phase ≠ .idle → s.op = some i →
      s.interrupts = none :: rest → step s = exec i { s with interrupts := rest })
  ∧ (∀ s : State, s.phase = .idle → s.requests = [] → step s = .next s)
  ∧ ∀ (s : State) (ms : Nat) (rest : List Request), s.phase = .idle → s.requests = .pause ms :: rest →
      step s = .next { s with requests := rest, now := s.now + ms }

/-- An admitted request whose packet can be built starts sending, and nothing else changes: all nine instructions
(44_transactor.md section 1). -/
def Obligations.AdmittedRequestStartsSending : Prop :=
  ∀ (i : Instr) (s : State) (pkt : List Byte), s.ready → admitIds i = none → encode s.params i = .ok pkt →
    exec i s = .next { s with op := some i, phase := .sending }

/-- Admission refuses in its order, changing the mark and nothing else: closed, busy, ID out of range, broadcast where a
reply is needed (44_transactor.md section 1, 60_exceptions.md section 2). An ACTION to any ID but 0xFE, which the transactor
never sends, is refused as an ID out of range: the reason is the model's choice (log 12). -/
def Obligations.AdmissionRefusesInOrder : Prop :=
  ∀ (i : Instr) (s : State),
    let refusedFor := fun r : RefuseReason =>
      exec i s = Host.Outcome.next { s with refused := true, returned := s.returned ++ [.refused r] }
    (s.phase = .idle ∨ s.op ≠ some i → s.transport = .closed → refusedFor .closed)
    ∧ (s.transport = .opened → s.phase ≠ .idle → s.op ≠ some i → refusedFor .busy)
    ∧ (s.ready → ∀ id, unicastId i = some id → ¬(0 ≤ id ∧ id ≤ 254) → refusedFor .idRange)
    ∧ (s.ready → ∀ id, i = .action id → id ≠ 0xFE → refusedFor .idRange)
    ∧ (s.ready → unicastId i = some 254 → refusedFor .broadcastNeedsReply)
    ∧ (s.ready → ∀ ids target, i = .syncRead ids target → (254 : Int) ∈ ids → refusedFor .broadcastNeedsReply)
    ∧ (s.ready → ∀ name pairs view, i = .syncWrite (.named name pairs view) →
        (∃ e ∈ pairs, ¬(0 ≤ e.1 ∧ e.1 ≤ 254)) → refusedFor .idRange)
    ∧ (s.ready → ∀ a l pairs, i = .syncWrite (.addressed a l pairs) →
        (∃ e ∈ pairs, ¬(0 ≤ e.1 ∧ e.1 ≤ 254)) → refusedFor .idRange)

/-- A lookup, encoding or building failure ends an admitted request before any byte hits the wire: the error or the
refusal is returned and nothing else changes (60_exceptions.md section 1). -/
def Obligations.EagerFailuresSendNothing : Prop :=
  ∀ (i : Instr) (s : State), s.ready → admitIds i = none →
    (∀ e, encode s.params i = .error (.err e) →
      exec i s = .next { s with returned := s.returned ++ [.err e] })
    ∧ ∀ r, encode s.params i = .error (.refuse r) →
      exec i s = .next { s with refused := true, returned := s.returned ++ [.refused r] }

/-! ## C5, the transactor: sending -/

/-- A write error of the transport ends any operation with that error, no reply read; a read error ends any operation that
reads a reply with that error, the receive buffer as the last chunk left it (44_transactor.md section 1, 60_exceptions.md
R273, R274). -/
def Obligations.TransportErrorsAreReturnedVerbatim : Prop :=
  (∀ (i : Instr) (s : State) (pkt : List Byte) (e : TransportError) (dt : Nat), s.op = some i → s.phase = .sending →
    encode s.params i = .ok pkt → s.nextWrite = .error e dt →
    exec i s = .next ((s.afterWrite pkt dt).endedWith (.err (.transport e))))
  ∧ ∀ (i : Instr) (s : State) (d : Nat) (e : TransportError) (dt : Nat), s.awaits i d →
    s.nextRead (min 10 (d - s.now)) = .error e dt →
    exec i s = .next ((s.afterRead d dt s.rxBuf).endedWith (.err (.transport e)))

/-- Once its packet is written, an operation with one reply awaits it, or drains it when it is a WRITE that is not awaited,
and a SYNC_READ of a list that is not empty awaits slot 0, each with a deadline one timeout away (44_transactor.md sections
1 to 3). -/
def Obligations.PacketWrittenThenReplyIsRead : Prop :=
  ∀ (i : Instr) (s : State) (pkt : List Byte) (dt : Nat), s.op = some i → s.phase = .sending →
    encode s.params i = .ok pkt → s.nextWrite = .ok dt →
    ((returnsInfo i = true ∨ ∃ id target, i = .read id target) →
      exec i s = .next { s.afterWrite pkt dt with
        phase := .awaitingResponse, deadline := some (s.now + dt + s.timeoutMs) })
    ∧ ((∃ id form, i = .write id form false) →
      exec i s = .next { s.afterWrite pkt dt with
        phase := .draining, deadline := some (s.now + dt + s.timeoutMs) })
    ∧ ((∃ ids target, i = .syncRead ids target ∧ ids ≠ []) →
      exec i s = .next { s.afterWrite pkt dt with
        phase := .awaitingResponse, slot := 0, acc := [], failed := false,
        deadline := some (s.now + dt + s.timeoutMs) })

/-- ACTION: its packet is `FF FF FE 02 05 FA`, an admitted request starts sending it, and once it is written the operation
ends with `ok(unit)` and no reply is read: the receive buffer and the bytes to come stay (R232). No other ACTION is ever in
flight. -/
def Obligations.ActionIsFireAndForget : Prop :=
  (∀ p : Params, encode p (.action 0xFE) = .ok [0xFF, 0xFF, 0xFE, 0x02, 0x05, 0xFA])
  ∧ (∀ s : State, s.ready → exec (.action 0xFE) s = .next { s with op := some (.action 0xFE), phase := .sending })
  ∧ (∀ (s : State) (dt : Nat), s.op = some (.action 0xFE) → s.phase = .sending → s.nextWrite = .ok dt →
      exec (.action 0xFE) s =
        .next ((s.afterWrite [0xFF, 0xFF, 0xFE, 0x02, 0x05, 0xFA] dt).endedWith (.ok .unit)))
  ∧ (∀ (s : State) (e : TransportError) (dt : Nat), s.op = some (.action 0xFE) → s.phase = .sending →
      s.nextWrite = .error e dt →
      exec (.action 0xFE) s =
        .next ((s.afterWrite [0xFF, 0xFF, 0xFE, 0x02, 0x05, 0xFA] dt).endedWith (.err (.transport e))))
  ∧ ∀ (s : State) (id : Int), s.Inv → s.op = some (.action id) → id = 0xFE

/-- Operations that expect no reply end once their packet is written: ACTION, SYNC_WRITE, and SYNC_READ of an empty list
(44_transactor.md section 2). -/
def Obligations.BroadcastsEndOnceWritten : Prop :=
  ∀ (s : State) (pkt : List Byte) (dt : Nat), s.phase = .sending → s.nextWrite = .ok dt →
    (s.op = some (.action 0xFE) → encode s.params (.action 0xFE) = .ok pkt →
      exec (.action 0xFE) s = .next ((s.afterWrite pkt dt).endedWith (.ok .unit)))
    ∧ (∀ form, s.op = some (.syncWrite form) → encode s.params (.syncWrite form) = .ok pkt →
      exec (.syncWrite form) s = .next ((s.afterWrite pkt dt).endedWith (.ok .unit)))
    ∧ (∀ target, s.op = some (.syncRead [] target) → encode s.params (.syncRead [] target) = .ok pkt →
      exec (.syncRead [] target) s = .next ((s.afterWrite pkt dt).endedWith (.ok (.readings []))))

/-! ## C5, the transactor: reading -/

/-- A chunk that completes no packet before the deadline is kept, and the operation goes on waiting (44_transactor.md
section 1). -/
def Obligations.IncompleteChunkIsKept : Prop :=
  ∀ (i : Instr) (s : State) (d dt : Nat) (c b : List Byte), s.awaits i d →
    s.nextRead (min 10 (d - s.now)) = .data c dt →
    extractPacket (s.rxBuf ++ c) = .incomplete b → s.now + dt < d →
    exec i s = .next (s.afterRead d dt b)

/-- PING, RECOVERY, RESET, REG_WRITE and an awaited WRITE return the status info of the first packet that completes,
whatever its ID, parameters and status bits; the deadline does not matter then (44_transactor.md sections 2 and 3). -/
def Obligations.StatusInfoIsReturned : Prop :=
  ∀ (i : Instr) (s : State) (d dt : Nat) (buf : List Byte) (r : Response), returnsInfo i = true → s.awaits i d →
    s.receives d dt buf (.packet (.ok r)) →
    exec i s = .next ((s.afterRead d dt buf).endedWith
      (.ok (.info ⟨r.id, r.status, (parseStatus r.status).errors, r.status.getLsbD 4⟩)))

/-- An operation that awaits one reply returns the error of a packet that does not parse, which is consumed, and
`no_response` when the deadline passes without a packet (44_transactor.md sections 1 and 2). -/
def Obligations.FailedReplyIsReturned : Prop :=
  ∀ (i : Instr) (s : State) (d dt : Nat) (buf : List Byte), (returnsInfo i = true ∨ ∃ id target, i = .read id target) →
    s.awaits i d →
    (∀ e, s.receives d dt buf (.packet (.error e)) → exec i s = .next ((s.afterRead d dt buf).endedWith (.err e)))
    ∧ (s.receives d dt buf .noResponse → exec i s = .next ((s.afterRead d dt buf).endedWith (.err .noResponse)))

/-- READ by name returns the value in the view asked for with the status info; READ of an address returns the parameter
bytes (44_transactor.md section 2; the addressed form is the model's choice, log 1). -/
def Obligations.ReadReturnsTheValue : Prop :=
  ∀ (s : State) (id : Int) (d dt : Nat) (buf : List Byte) (r : Response), s.receives d dt buf (.packet (.ok r)) →
    (∀ name view reg, s.awaits (.read id (.named name view)) d → (name, reg) ∈ (tableOf s.controlTable).registers →
      r.params.length = reg.length →
      exec (.read id (.named name view)) s = .next ((s.afterRead d dt buf).endedWith
        (.ok (.reading
          (.value (match view with
            | .converted => decodeConversion (tableOf s.controlTable) reg.conversion r.params
            | .raw => .int (uintLE r.params)))
          ⟨r.id, r.status, (parseStatus r.status).errors, r.status.getLsbD 4⟩))))
    ∧ (∀ a l : Int, s.awaits (.read id (.addressed a l)) d → (r.params.length : Int) = l →
      exec (.read id (.addressed a l)) s = .next ((s.afterRead d dt buf).endedWith
        (.ok (.reading (.params r.params)
          ⟨r.id, r.status, (parseStatus r.status).errors, r.status.getLsbD 4⟩))))

/-- READ of a reply with another parameter length is `FAULT(reply_length_mismatch)`: recorded, and the operation ends
(44_transactor.md section 2, decision D20). That READ of an address does the same is the model's choice (log 1). -/
def Obligations.ReadOfWrongLengthFaults : Prop :=
  ∀ (s : State) (id : Int) (target : ReadForm) (d dt : Nat) (buf : List Byte) (r : Response),
    s.awaits (.read id target) d → s.receives d dt buf (.packet (.ok r)) →
    ((∃ name view reg, target = .named name view ∧ (name, reg) ∈ (tableOf s.controlTable).registers
        ∧ r.params.length ≠ reg.length)
      ∨ ∃ a l : Int, target = .addressed a l ∧ (r.params.length : Int) ≠ l) →
    exec (.read id target) s = .next
      { (s.afterRead d dt buf).endedWith (.fault .replyLengthMismatch) with
        faults := s.faults ++ [.replyLengthMismatch] }

/-- A WRITE that is not awaited drains its reply: any packet that parses gives `ok(unit)`; a bad packet or none gives
`ok(unit)` under `discard` and its error under `surface` (44_transactor.md section 2, decision D27). -/
def Obligations.DrainedWriteDiscardsTheReply : Prop :=
  ∀ (s : State) (id : Int) (form : WriteForm) (d dt : Nat) (buf : List Byte), s.awaits (.write id form false) d →
    (∀ r, s.receives d dt buf (.packet (.ok r)) →
      exec (.write id form false) s = .next ((s.afterRead d dt buf).endedWith (.ok .unit)))
    ∧ (∀ e, s.receives d dt buf (.packet (.error e)) → exec (.write id form false) s = .next
        ((s.afterRead d dt buf).endedWith (match s.drainPolicy with | .discard => .ok .unit | .surface => .err e)))
    ∧ (s.receives d dt buf .noResponse → exec (.write id form false) s = .next
        ((s.afterRead d dt buf).endedWith
          (match s.drainPolicy with | .discard => .ok .unit | .surface => .err .noResponse)))

/-- A successful SYNC_READ slot: a reply of the slot's servo with the right length, while no slot has failed, is decoded
and appended with its status info; the phase stays and the next slot is read under its own deadline, or the list is
returned (44_transactor.md section 2; that each slot has its own deadline is the spec's decision D24). The model's choices:
SYNC_READ of an address gathers the parameter bytes (log 1), and the next deadline is taken in the step that ends the slot
(log 17). -/
def Obligations.SyncReadSlotSucceeds : Prop :=
  ∀ (s : State) (ids : List Int) (target : ReadForm) (d dt : Nat) (buf : List Byte) (r : Response) (v : Reading),
    s.awaits (.syncRead ids target) d → s.phase = .awaitingResponse → s.failed = false →
    s.receives d dt buf (.packet (.ok r)) →
    ids[s.slot]? = some (r.id.toNat : Int) → slotGives s.params target r.params v →
    let acc := s.acc ++ [(v, ⟨r.id, r.status, (parseStatus r.status).errors, r.status.getLsbD 4⟩)]
    (s.slot + 1 < ids.length →
      exec (.syncRead ids target) s = .next { s.afterRead d dt buf with
        acc := acc, slot := s.slot + 1, deadline := some (s.now + dt + s.timeoutMs) })
    ∧ (s.slot + 1 = ids.length →
      exec (.syncRead ids target) s = .next ((s.afterRead d dt buf).endedWith (.ok (.readings acc))))

/-- A failed SYNC_READ slot: no response, a packet that does not parse, another ID, another length, or any outcome after a
failure. The failure is marked and the rest is drained; after the last slot the call returns `partial_read`
(44_transactor.md section 2, decisions D20, D25). The model's choices: the lengths of a SYNC_READ of an address (log 1), and
that the next deadline is taken in the step that ends the slot (log 17). -/
def Obligations.SyncReadSlotFails : Prop :=
  ∀ (s : State) (ids : List Int) (target : ReadForm) (d dt : Nat) (buf : List Byte) (o : Reply),
    s.awaits (.syncRead ids target) d → s.slot < ids.length → s.receives d dt buf o →
    (o = .noResponse ∨ (∃ e, o = .packet (.error e)) ∨ s.failed = true
      ∨ (∃ r, o = .packet (.ok r) ∧
          (ids[s.slot]? ≠ some (r.id.toNat : Int) ∨ ∀ v, ¬slotGives s.params target r.params v))) →
    (s.slot + 1 < ids.length →
      exec (.syncRead ids target) s = .next { s.afterRead d dt buf with
        failed := true, phase := .draining, slot := s.slot + 1, deadline := some (s.now + dt + s.timeoutMs) })
    ∧ (s.slot + 1 = ids.length →
      exec (.syncRead ids target) s = .next ((s.afterRead d dt buf).endedWith (.err .partialRead)))

/-- The status byte never produces an error: whatever the status of a reply that parses and has the right ID and length,
the operation goes on or returns `ok(...)` with the flags in its status info (60_exceptions.md at R272). What the addressed
forms return is the model's choice (log 1). -/
def Obligations.StatusByteIsNeverAnError : Prop :=
  ∀ (i : Instr) (s : State) (d dt : Nat) (buf : List Byte) (r : Response), s.awaits i d →
    s.receives d dt buf (.packet (.ok r)) →
    (returnsInfo i = true → ∃ t, exec i s = .next t ∧ t.returned = s.returned ++
        [.ok (.info ⟨r.id, r.status, (parseStatus r.status).errors, (parseStatus r.status).torqueEnabled⟩)])
    ∧ (∀ id target v, i = .read id target → slotGives s.params target r.params v →
        ∃ t, exec i s = .next t ∧ t.returned = s.returned ++
          [.ok (.reading v ⟨r.id, r.status, (parseStatus r.status).errors, (parseStatus r.status).torqueEnabled⟩)])
    ∧ ((∃ id form, i = .write id form false) → ∃ t, exec i s = .next t ∧ t.returned = s.returned ++ [.ok .unit])
    ∧ (∀ ids target v, i = .syncRead ids target → slotGives s.params target r.params v →
        ids[s.slot]? = some (r.id.toNat : Int) → s.failed = false →
        ∃ t, exec i s = .next t ∧
          ((t.returned = s.returned ∧ t.failed = false)
            ∨ ∃ acc, t.returned = s.returned ++ [.ok (.readings acc)] ∧ acc.getLast? = some
                (v, ⟨r.id, r.status, (parseStatus r.status).errors, (parseStatus r.status).torqueEnabled⟩)))

/-! ## C5, the transactor: the caller, lifecycle -/

/-- A second request while one is in flight is refused as busy and the operation in flight is unaffected; a cancel ends
that operation with `CANCELLED`, the receive buffer as the last chunk left it (60_exceptions.md section 7, decision D35;
70_reset_and_hazards.md section 2, decision D36). That a cancel is possible while sending too is the model's reading
(log 21). -/
def Obligations.CallerActsDuringAnOperation : Prop :=
  (∀ (s : State) (j : Instr) (rest : List (Option Interrupt)), s.phase ≠ .idle → s.op ≠ none → s.transport = .opened →
    s.interrupts = some (.call j) :: rest →
    step s = .next { s with
      interrupts := rest, refused := true, returned := s.returned ++ [.refused .busy] })
  ∧ ∀ (s : State) (rest : List (Option Interrupt)), s.phase ≠ .idle → s.op ≠ none →
    s.interrupts = some .cancel :: rest →
    step s = .next ({ s with interrupts := rest }.endedWith .cancelled)

/-- Teardown closes the transport once, cancels an operation in flight, and does nothing the second time
(70_reset_and_hazards.md section 1, decision D37). -/
def Obligations.TeardownClosesOnce : Prop :=
  (∀ (s : State) (rest : List Request), s.ready → s.requests = .teardown :: rest →
    step s = .next { s with requests := rest, transport := .closed, trace := s.trace ++ [.close] })
  ∧ (∀ (s : State) (rest : List (Option Interrupt)), s.transport = .opened → s.phase ≠ .idle → s.op ≠ none →
    s.interrupts = some .teardown :: rest →
    step s = .next { ({ s with interrupts := rest }.endedWith .cancelled) with
      transport := .closed, trace := s.trace ++ [.close] })
  ∧ ∀ (s : State) (rest : List Request), s.transport = .closed → s.phase = .idle → s.requests = .teardown :: rest →
    step s = .next { s with requests := rest }

/-- Construction: the reset state with the arguments given, or the transport's error with every opened handle closed exactly
once (70_reset_and_hazards.md section 1; the three answers of opening are the model's, log 19). -/
def Obligations.ConstructionGivesTheResetState : Prop :=
  ∀ (m : ServoModel) (timeout : Nat) (u : Option Byte) (pol : DrainPolicy) (baud : Nat),
    (∃ s, construct .ok m timeout u pol baud = .made s
      ∧ s.phase = .idle ∧ s.op = none ∧ s.deadline = none ∧ s.slot = 0 ∧ s.acc = [] ∧ s.failed = false
      ∧ s.rxBuf = [] ∧ s.transport = .opened ∧ s.controlTable = m ∧ s.timeoutMs = timeout
      ∧ s.refused = false ∧ s.faults = [] ∧ s.modeUnknownRaw = u ∧ s.drainPolicy = pol
      ∧ s.trace = [.open baud])
    ∧ (∀ e, construct (.failed e) m timeout u pol baud = .failed e [.open baud])
    ∧ ∀ e, construct (.failedOpen e) m timeout u pol baud = .failed e [.open baud, .close]

/-! ## C5, the transactor: the whole machine -/

/-- The invariant holds after reset. -/
def Obligations.ResetSatisfiesTheInvariant : Prop := State.reset.Inv

/-- Every step keeps the invariant (10_state.md R22, R25, R26, 44_transactor.md R220, R238). -/
def Obligations.StepKeepsTheInvariant : Prop :=
  ∀ s t : State, s.Inv → step s = .next t → t.Inv

/-- Under the invariant no step stops with a fault, and it is refused only for a requested byte string that is no
instruction packet, which is the model's choice (log 11). -/
def Obligations.InvariantStatesNeverStop : Prop :=
  ∀ s : State, s.Inv →
    (∃ t, step s = .next t)
    ∨ ∃ bytes rest e, s.phase = .idle ∧ s.requests = .packet bytes :: rest ∧ decode bytes = .error e
        ∧ step s = .refused (.undecodable e)

/-- The refusal mark and the fault list are sticky, what was returned and what was called on the transport is never taken
back, and the clock never runs backwards (10_state.md R27, 00_scope.md R14). -/
def Obligations.MarksAndTraceAreNeverCleared : Prop :=
  ∀ s t : State, step s = .next t →
    (s.refused = true → t.refused = true) ∧ s.faults <+: t.faults ∧ s.returned <+: t.returned
      ∧ s.trace <+: t.trace ∧ s.now ≤ t.now

/-- No step writes the configuration (10_state.md R24, R36). -/
def Obligations.ConfigurationIsImmutable : Prop :=
  ∀ s t : State, step s = .next t →
    t.controlTable = s.controlTable ∧ t.timeoutMs = s.timeoutMs ∧ t.modeUnknownRaw = s.modeUnknownRaw
      ∧ t.drainPolicy = s.drainPolicy

/-- Only the receive loop writes the receive buffer (10_state.md R23): any other step keeps it, and a step of the receive
loop leaves the reframer's rest or incomplete buffer, or the buffer as it was. -/
def Obligations.OnlyTheReceiveLoopWritesTheBuffer : Prop :=
  ∀ s t : State, step s = .next t →
    (¬s.receiving → t.rxBuf = s.rxBuf)
      ∧ (s.receiving → t.rxBuf = s.rxBuf
          ∨ ∃ d c dt, s.deadline = some d ∧ s.nextRead (min 10 (d - s.now)) = .data c dt
            ∧ ((∃ p, extractPacket (s.rxBuf ++ c) = .complete p t.rxBuf)
              ∨ extractPacket (s.rxBuf ++ c) = .incomplete t.rxBuf))

/-- A packet is written only from `sending`, one a step, and it is the packet of the operation in flight; chunks are read
only while a reply is awaited or drained, each waiting at most 10 ms and taking no longer than it waits (20_memory.md R67,
44_transactor.md R222, R223, R239, 00_scope.md R14). -/
def Obligations.TransportIsUsedOnlyInItsPhase : Prop :=
  ∀ s t : State, step s = .next t →
    t.trace = s.trace
      ∨ (s.phase = .sending ∧ ∃ i pkt, s.op = some i ∧ encode s.params i = .ok pkt ∧ t.trace = s.trace ++ [.write pkt])
      ∨ (s.receiving ∧ ∃ w, w ≤ 10 ∧ t.trace = s.trace ++ [.read w] ∧ t.now ≤ s.now + w)
      ∨ (s.transport = .opened ∧ t.transport = .closed ∧ t.trace = s.trace ++ [.close])

/-- After teardown the transport stays closed, no transport primitive is called and every operation is refused, whether it
is asked for as an operation or by its packet (60_exceptions.md section 7, decision D37; requests of packets are the
model's, log 11). -/
def Obligations.ClosedTransportIsNeverUsed : Prop :=
  ∀ s t : State, s.Inv → s.transport = .closed → step s = .next t →
    t.transport = .closed ∧ t.trace = s.trace ∧ t.rxBuf = s.rxBuf
      ∧ ∀ i rest, (s.requests = .call i :: rest ∨ ∃ bytes, s.requests = .packet bytes :: rest ∧ decode bytes = .ok i) →
          t.refused = true ∧ t.returned = s.returned ++ [.refused .closed] ∧ t.requests = rest

/-- A one-reply operation ends within the milliseconds that remain plus one step, if every chunk read takes at least a
millisecond (derived in the spec at R237; that time passes is its fairness assumption R320). -/
def Obligations.ReceiveLoopEndsByItsDeadline : Prop :=
  ∀ (s : State) (i : Instr) (d : Nat), s.awaits i d → expectedReplies i = 1 → s.interrupts = [] →
    (∀ e ∈ s.reads, (∃ c dt, e = .data c dt ∧ 1 ≤ dt) ∨ ∃ x dt, e = .error x dt) →
    d - s.now + 1 ≤ s.reads.length →
    ∃ k t, k ≤ d - s.now + 1 ∧ Sys2Proof.core.run k s = .next t ∧ t.phase = .idle ∧ t.op = none

/-- A whole transaction: from an open, idle transactor with an empty receive buffer, an admitted operation that returns
status info, whose packet the transport takes and to which any well-built reply arrives in one chunk, ends in three steps
with that reply's status info, one packet written and one chunk read, and nothing left in the buffer. -/
def Obligations.TransactionReturnsTheReplysStatus : Prop :=
  ∀ (s : State) (i : Instr) (rest : List Request) (pkt : List Byte) (a b : Nat) (ws : List WriteEvent)
    (rs : List ReadEvent) (rid st : Byte) (ps : List Byte),
    s.ready → s.rxBuf = [] → s.interrupts = [] → s.requests = .call i :: rest → returnsInfo i = true →
    admitIds i = none → encode s.params i = .ok pkt → s.writes = .ok a :: ws →
    ps.length ≤ 253 → s.reads = .data (replyFrame rid st ps) b :: rs →
    s.op = none → s.slot = 0 → s.acc = [] → s.failed = false →
    Sys2Proof.core.run 3 s = .next { s with
      requests := rest, writes := ws, reads := rs, deadline := none, now := s.now + a + min b (min 10 s.timeoutMs),
      returned := s.returned ++ [.ok (.info ⟨rid, st, (parseStatus st).errors, st.getLsbD 4⟩)],
      trace := s.trace ++ [.write pkt, .read (min 10 s.timeoutMs)] }

/-! ## C3 again, the bytes of every conversion -/

/-- The bytes of a converted encode, all ten conversions: a numeric value is divided by the conversion's factor, rounded,
and encoded unsigned or by sign-magnitude at the conversion's sign bit, in and out of the encodable range
(42_control_table.md at R179, R193, R194); a flag is 1 or 0, a mode or a baud rate its raw value (at R175, R176). Mode
`unknown` is the byte configured for it, and refused where there is none: the spec's own decision D29. -/
def Obligations.EncodedBytesAreTheRoundedQuotient : Prop :=
  ∀ (m : ServoModel) (u : Option Byte) (name : String) (d : RegisterDef), (name, d) ∈ (tableOf m).registers →
    (∀ (v : UserValue) (x : UserReal) (f : PiNum), numericValue v = some x →
      conversionFactor (tableOf m) d.conversion = some f →
      encodeUser (tableOf m) u name v = encodeStep d.length (roundReal (userRealOf x / realOf f)) d.conversion
        ∧ ∃ s, encodeUser (tableOf m) u name v = .ok s ∧ s.length = d.length)
    ∧ (∀ b, d.conversion = .bool →
      encodeUser (tableOf m) u name (.flag b) = encodeUint (if b = true then 1 else 0) d.length)
    ∧ (d.conversion = .mode →
      (∀ k r, (k, r) ∈ [(ServoMode.position, 0), (.velocity, 1), (.pwm, 2), (.step, 3)] →
        encodeUser (tableOf m) u name (.mode k) = encodeUint r d.length)
      ∧ (∀ b, u = some b → encodeUser (tableOf m) u name (.mode .unknown) = encodeUint b.toNat d.length)
      ∧ (u = none → encodeUser (tableOf m) u name (.mode .unknown) = .error (.refuse .modeUnknown)))
    ∧ ∀ b r, d.conversion = .baudRate →
      (bitsPerSecond b, r) ∈ [(1000000, 0), (500000, 1), (250000, 2), (128000, 3), (115200, 4), (76800, 5), (57600, 6),
        (38400, 7)] →
      encodeUser (tableOf m) u name (.baud b) = encodeUint r d.length
end

