-- ==== Sys2Proof/Laws/Codec.lean ====
section
/-! SUPPORT. Byte strings as numbers: what `bytesLE` and `uintLE` compute and that they undo each other, the register widths,
and the checksum's sum. -/

namespace Sys2Proof.Machine

theorem widthOk_iff (n : Nat) : widthOk n = true ↔ n = 1 ∨ n = 2 ∨ n = 4 := by
  simp [widthOk, or_assoc]

@[simp] theorem bytesLE_length (r n : Nat) : (bytesLE r n).length = n := by
  induction n generalizing r with
  | zero => rfl
  | succ n ih => simp [bytesLE, ih]

theorem bytesLE_getElem? (n r k : Nat) (h : k < n) : (bytesLE r n)[k]? = some (BitVec.ofNat 8 (r / 256 ^ k)) := by
  induction n generalizing r k with
  | zero => omega
  | succ n ih =>
    cases k with
    | zero => simp [bytesLE]
    | succ k =>
      simp only [bytesLE, List.getElem?_cons_succ]
      rw [ih _ k (by omega), Nat.div_div_eq_div_mul, pow_succ, Nat.mul_comm]

theorem uintLE_bytesLE (n r : Nat) : uintLE (bytesLE r n) = r % 256 ^ n := by
  induction n generalizing r with
  | zero => simp [bytesLE, uintLE]; omega
  | succ n ih =>
    have h : 256 ^ (n + 1) = 256 * 256 ^ n := by rw [pow_succ, Nat.mul_comm]
    simp only [bytesLE, uintLE, ih, BitVec.toNat_ofNat]
    rw [h, Nat.mod_mul]

theorem bytesLE_uintLE (s : List Byte) : bytesLE (uintLE s) s.length = s := by
  induction s with
  | nil => rfl
  | cons b s ih =>
    have hb := b.isLt
    have hd : (b.toNat + 256 * uintLE s) / 256 = uintLE s := by omega
    simp only [uintLE, List.length_cons, bytesLE, hd, ih]
    congr 1
    apply BitVec.eq_of_toNat_eq
    simp
    omega

theorem uintLE_lt (s : List Byte) : uintLE s < 256 ^ s.length := by
  induction s with
  | nil => simp [uintLE]
  | cons b s ih =>
    have := b.isLt
    simp only [uintLE, List.length_cons, pow_succ]
    omega

theorem two_pow_eight_mul (n : Nat) : 2 ^ (8 * n) = 256 ^ n := by
  rw [pow_mul]
  norm_num

theorem byteSum_append (a b : List Byte) : byteSum (a ++ b) = byteSum a + byteSum b := by
  induction a with
  | nil => simp [byteSum]
  | cons x a ih => simp [byteSum, ih]; omega

theorem chk_toNat (body : List Byte) : (chk body).toNat = 255 - byteSum body % 256 := by
  simp [chk]

theorem extractPacket_header (l : List Byte) :
    extractPacket (0xFF#8 :: 0xFF#8 :: l) = extractAligned (0xFF#8 :: 0xFF#8 :: l) := by
  simp [extractPacket, headerByte]

theorem extractPacket_skip (g l : List Byte) (h : 0xFF#8 ∉ g) : extractPacket (g ++ l) = extractPacket l := by
  induction g with
  | nil => rfl
  | cons x g ih =>
    simp only [List.mem_cons, not_or] at h
    have hx : x ≠ headerByte := fun e => h.1 e.symm
    rw [← ih h.2]
    cases hgl : g ++ l with
    | nil => simp [hgl, extractPacket, hx]
    | cons y t => simp [hgl, extractPacket, hx]

end Sys2Proof.Machine
end

