-- ==== Sys2Proof/Laws/State.lean ====
section
/-! SUPPORT. One lemma per field per update of State, so that no proof unfolds a record update. -/

namespace Sys2Proof.Machine

/-! `finish` -/

@[simp] theorem State.finish_phase (s : State) : (s.finish).phase = .idle := rfl
@[simp] theorem State.finish_op (s : State) : (s.finish).op = none := rfl
@[simp] theorem State.finish_deadline (s : State) : (s.finish).deadline = none := rfl
@[simp] theorem State.finish_slot (s : State) : (s.finish).slot = 0 := rfl
@[simp] theorem State.finish_acc (s : State) : (s.finish).acc = [] := rfl
@[simp] theorem State.finish_failed (s : State) : (s.finish).failed = false := rfl
@[simp] theorem State.finish_rxBuf (s : State) : (s.finish).rxBuf = s.rxBuf := rfl
@[simp] theorem State.finish_transport (s : State) : (s.finish).transport = s.transport := rfl
@[simp] theorem State.finish_controlTable (s : State) : (s.finish).controlTable = s.controlTable := rfl
@[simp] theorem State.finish_timeoutMs (s : State) : (s.finish).timeoutMs = s.timeoutMs := rfl
@[simp] theorem State.finish_refused (s : State) : (s.finish).refused = s.refused := rfl
@[simp] theorem State.finish_faults (s : State) : (s.finish).faults = s.faults := rfl
@[simp] theorem State.finish_modeUnknownRaw (s : State) : (s.finish).modeUnknownRaw = s.modeUnknownRaw := rfl
@[simp] theorem State.finish_drainPolicy (s : State) : (s.finish).drainPolicy = s.drainPolicy := rfl
@[simp] theorem State.finish_now (s : State) : (s.finish).now = s.now := rfl
@[simp] theorem State.finish_writes (s : State) : (s.finish).writes = s.writes := rfl
@[simp] theorem State.finish_reads (s : State) : (s.finish).reads = s.reads := rfl
@[simp] theorem State.finish_oracleIndex (s : State) : (s.finish).oracleIndex = s.oracleIndex := rfl
@[simp] theorem State.finish_requests (s : State) : (s.finish).requests = s.requests := rfl
@[simp] theorem State.finish_interrupts (s : State) : (s.finish).interrupts = s.interrupts := rfl
@[simp] theorem State.finish_returned (s : State) : (s.finish).returned = s.returned := rfl
@[simp] theorem State.finish_trace (s : State) : (s.finish).trace = s.trace := rfl

/-! `answer` -/

@[simp] theorem State.answer_phase (s : State) (o : OpOutcome) : (s.answer o).phase = s.phase := rfl
@[simp] theorem State.answer_op (s : State) (o : OpOutcome) : (s.answer o).op = s.op := rfl
@[simp] theorem State.answer_deadline (s : State) (o : OpOutcome) : (s.answer o).deadline = s.deadline := rfl
@[simp] theorem State.answer_slot (s : State) (o : OpOutcome) : (s.answer o).slot = s.slot := rfl
@[simp] theorem State.answer_acc (s : State) (o : OpOutcome) : (s.answer o).acc = s.acc := rfl
@[simp] theorem State.answer_failed (s : State) (o : OpOutcome) : (s.answer o).failed = s.failed := rfl
@[simp] theorem State.answer_rxBuf (s : State) (o : OpOutcome) : (s.answer o).rxBuf = s.rxBuf := rfl
@[simp] theorem State.answer_transport (s : State) (o : OpOutcome) : (s.answer o).transport = s.transport := rfl
@[simp] theorem State.answer_controlTable (s : State) (o : OpOutcome) : (s.answer o).controlTable = s.controlTable := rfl
@[simp] theorem State.answer_timeoutMs (s : State) (o : OpOutcome) : (s.answer o).timeoutMs = s.timeoutMs := rfl
@[simp] theorem State.answer_refused (s : State) (o : OpOutcome) : (s.answer o).refused = s.refused := rfl
@[simp] theorem State.answer_faults (s : State) (o : OpOutcome) : (s.answer o).faults = s.faults := rfl
@[simp] theorem State.answer_modeUnknownRaw (s : State) (o : OpOutcome) : (s.answer o).modeUnknownRaw = s.modeUnknownRaw := rfl
@[simp] theorem State.answer_drainPolicy (s : State) (o : OpOutcome) : (s.answer o).drainPolicy = s.drainPolicy := rfl
@[simp] theorem State.answer_now (s : State) (o : OpOutcome) : (s.answer o).now = s.now := rfl
@[simp] theorem State.answer_writes (s : State) (o : OpOutcome) : (s.answer o).writes = s.writes := rfl
@[simp] theorem State.answer_reads (s : State) (o : OpOutcome) : (s.answer o).reads = s.reads := rfl
@[simp] theorem State.answer_oracleIndex (s : State) (o : OpOutcome) : (s.answer o).oracleIndex = s.oracleIndex := rfl
@[simp] theorem State.answer_requests (s : State) (o : OpOutcome) : (s.answer o).requests = s.requests := rfl
@[simp] theorem State.answer_interrupts (s : State) (o : OpOutcome) : (s.answer o).interrupts = s.interrupts := rfl
@[simp] theorem State.answer_returned (s : State) (o : OpOutcome) : (s.answer o).returned = s.returned ++ [o] := rfl
@[simp] theorem State.answer_trace (s : State) (o : OpOutcome) : (s.answer o).trace = s.trace := rfl

/-! `refuse` -/

@[simp] theorem State.refuse_phase (s : State) (r : RefuseReason) : (s.refuse r).phase = s.phase := rfl
@[simp] theorem State.refuse_op (s : State) (r : RefuseReason) : (s.refuse r).op = s.op := rfl
@[simp] theorem State.refuse_deadline (s : State) (r : RefuseReason) : (s.refuse r).deadline = s.deadline := rfl
@[simp] theorem State.refuse_slot (s : State) (r : RefuseReason) : (s.refuse r).slot = s.slot := rfl
@[simp] theorem State.refuse_acc (s : State) (r : RefuseReason) : (s.refuse r).acc = s.acc := rfl
@[simp] theorem State.refuse_failed (s : State) (r : RefuseReason) : (s.refuse r).failed = s.failed := rfl
@[simp] theorem State.refuse_rxBuf (s : State) (r : RefuseReason) : (s.refuse r).rxBuf = s.rxBuf := rfl
@[simp] theorem State.refuse_transport (s : State) (r : RefuseReason) : (s.refuse r).transport = s.transport := rfl
@[simp] theorem State.refuse_controlTable (s : State) (r : RefuseReason) : (s.refuse r).controlTable = s.controlTable := rfl
@[simp] theorem State.refuse_timeoutMs (s : State) (r : RefuseReason) : (s.refuse r).timeoutMs = s.timeoutMs := rfl
@[simp] theorem State.refuse_refused (s : State) (r : RefuseReason) : (s.refuse r).refused = true := rfl
@[simp] theorem State.refuse_faults (s : State) (r : RefuseReason) : (s.refuse r).faults = s.faults := rfl
@[simp] theorem State.refuse_modeUnknownRaw (s : State) (r : RefuseReason) : (s.refuse r).modeUnknownRaw = s.modeUnknownRaw := rfl
@[simp] theorem State.refuse_drainPolicy (s : State) (r : RefuseReason) : (s.refuse r).drainPolicy = s.drainPolicy := rfl
@[simp] theorem State.refuse_now (s : State) (r : RefuseReason) : (s.refuse r).now = s.now := rfl
@[simp] theorem State.refuse_writes (s : State) (r : RefuseReason) : (s.refuse r).writes = s.writes := rfl
@[simp] theorem State.refuse_reads (s : State) (r : RefuseReason) : (s.refuse r).reads = s.reads := rfl
@[simp] theorem State.refuse_oracleIndex (s : State) (r : RefuseReason) : (s.refuse r).oracleIndex = s.oracleIndex := rfl
@[simp] theorem State.refuse_requests (s : State) (r : RefuseReason) : (s.refuse r).requests = s.requests := rfl
@[simp] theorem State.refuse_interrupts (s : State) (r : RefuseReason) : (s.refuse r).interrupts = s.interrupts := rfl
@[simp] theorem State.refuse_returned (s : State) (r : RefuseReason) : (s.refuse r).returned = s.returned ++ [.refused r] := rfl
@[simp] theorem State.refuse_trace (s : State) (r : RefuseReason) : (s.refuse r).trace = s.trace := rfl

/-! `recordFault` -/

@[simp] theorem State.recordFault_phase (s : State) (r : FaultReason) : (s.recordFault r).phase = .idle := rfl
@[simp] theorem State.recordFault_op (s : State) (r : FaultReason) : (s.recordFault r).op = none := rfl
@[simp] theorem State.recordFault_deadline (s : State) (r : FaultReason) : (s.recordFault r).deadline = none := rfl
@[simp] theorem State.recordFault_slot (s : State) (r : FaultReason) : (s.recordFault r).slot = 0 := rfl
@[simp] theorem State.recordFault_acc (s : State) (r : FaultReason) : (s.recordFault r).acc = [] := rfl
@[simp] theorem State.recordFault_failed (s : State) (r : FaultReason) : (s.recordFault r).failed = false := rfl
@[simp] theorem State.recordFault_rxBuf (s : State) (r : FaultReason) : (s.recordFault r).rxBuf = s.rxBuf := rfl
@[simp] theorem State.recordFault_transport (s : State) (r : FaultReason) : (s.recordFault r).transport = s.transport := rfl
@[simp] theorem State.recordFault_controlTable (s : State) (r : FaultReason) : (s.recordFault r).controlTable = s.controlTable := rfl
@[simp] theorem State.recordFault_timeoutMs (s : State) (r : FaultReason) : (s.recordFault r).timeoutMs = s.timeoutMs := rfl
@[simp] theorem State.recordFault_refused (s : State) (r : FaultReason) : (s.recordFault r).refused = s.refused := rfl
@[simp] theorem State.recordFault_faults (s : State) (r : FaultReason) : (s.recordFault r).faults = s.faults ++ [r] := rfl
@[simp] theorem State.recordFault_modeUnknownRaw (s : State) (r : FaultReason) : (s.recordFault r).modeUnknownRaw = s.modeUnknownRaw := rfl
@[simp] theorem State.recordFault_drainPolicy (s : State) (r : FaultReason) : (s.recordFault r).drainPolicy = s.drainPolicy := rfl
@[simp] theorem State.recordFault_now (s : State) (r : FaultReason) : (s.recordFault r).now = s.now := rfl
@[simp] theorem State.recordFault_writes (s : State) (r : FaultReason) : (s.recordFault r).writes = s.writes := rfl
@[simp] theorem State.recordFault_reads (s : State) (r : FaultReason) : (s.recordFault r).reads = s.reads := rfl
@[simp] theorem State.recordFault_oracleIndex (s : State) (r : FaultReason) : (s.recordFault r).oracleIndex = s.oracleIndex := rfl
@[simp] theorem State.recordFault_requests (s : State) (r : FaultReason) : (s.recordFault r).requests = s.requests := rfl
@[simp] theorem State.recordFault_interrupts (s : State) (r : FaultReason) : (s.recordFault r).interrupts = s.interrupts := rfl
@[simp] theorem State.recordFault_returned (s : State) (r : FaultReason) : (s.recordFault r).returned = s.returned ++ [.fault r] := rfl
@[simp] theorem State.recordFault_trace (s : State) (r : FaultReason) : (s.recordFault r).trace = s.trace := rfl

/-! `calls` -/

@[simp] theorem State.calls_phase (s : State) (c : TransportCall) (dt : Nat) : (s.calls c dt).phase = s.phase := rfl
@[simp] theorem State.calls_op (s : State) (c : TransportCall) (dt : Nat) : (s.calls c dt).op = s.op := rfl
@[simp] theorem State.calls_deadline (s : State) (c : TransportCall) (dt : Nat) : (s.calls c dt).deadline = s.deadline := rfl
@[simp] theorem State.calls_slot (s : State) (c : TransportCall) (dt : Nat) : (s.calls c dt).slot = s.slot := rfl
@[simp] theorem State.calls_acc (s : State) (c : TransportCall) (dt : Nat) : (s.calls c dt).acc = s.acc := rfl
@[simp] theorem State.calls_failed (s : State) (c : TransportCall) (dt : Nat) : (s.calls c dt).failed = s.failed := rfl
@[simp] theorem State.calls_rxBuf (s : State) (c : TransportCall) (dt : Nat) : (s.calls c dt).rxBuf = s.rxBuf := rfl
@[simp] theorem State.calls_transport (s : State) (c : TransportCall) (dt : Nat) : (s.calls c dt).transport = s.transport := rfl
@[simp] theorem State.calls_controlTable (s : State) (c : TransportCall) (dt : Nat) : (s.calls c dt).controlTable = s.controlTable := rfl
@[simp] theorem State.calls_timeoutMs (s : State) (c : TransportCall) (dt : Nat) : (s.calls c dt).timeoutMs = s.timeoutMs := rfl
@[simp] theorem State.calls_refused (s : State) (c : TransportCall) (dt : Nat) : (s.calls c dt).refused = s.refused := rfl
@[simp] theorem State.calls_faults (s : State) (c : TransportCall) (dt : Nat) : (s.calls c dt).faults = s.faults := rfl
@[simp] theorem State.calls_modeUnknownRaw (s : State) (c : TransportCall) (dt : Nat) : (s.calls c dt).modeUnknownRaw = s.modeUnknownRaw := rfl
@[simp] theorem State.calls_drainPolicy (s : State) (c : TransportCall) (dt : Nat) : (s.calls c dt).drainPolicy = s.drainPolicy := rfl
@[simp] theorem State.calls_now (s : State) (c : TransportCall) (dt : Nat) : (s.calls c dt).now = s.now + dt := rfl
@[simp] theorem State.calls_writes (s : State) (c : TransportCall) (dt : Nat) : (s.calls c dt).writes = s.writes := rfl
@[simp] theorem State.calls_reads (s : State) (c : TransportCall) (dt : Nat) : (s.calls c dt).reads = s.reads := rfl
@[simp] theorem State.calls_oracleIndex (s : State) (c : TransportCall) (dt : Nat) : (s.calls c dt).oracleIndex = s.oracleIndex := rfl
@[simp] theorem State.calls_requests (s : State) (c : TransportCall) (dt : Nat) : (s.calls c dt).requests = s.requests := rfl
@[simp] theorem State.calls_interrupts (s : State) (c : TransportCall) (dt : Nat) : (s.calls c dt).interrupts = s.interrupts := rfl
@[simp] theorem State.calls_returned (s : State) (c : TransportCall) (dt : Nat) : (s.calls c dt).returned = s.returned := rfl
@[simp] theorem State.calls_trace (s : State) (c : TransportCall) (dt : Nat) : (s.calls c dt).trace = s.trace ++ [c] := rfl

/-! `startReceive` -/

@[simp] theorem State.startReceive_phase (s : State) (ph : Phase) : (s.startReceive ph).phase = ph := rfl
@[simp] theorem State.startReceive_op (s : State) (ph : Phase) : (s.startReceive ph).op = s.op := rfl
@[simp] theorem State.startReceive_deadline (s : State) (ph : Phase) : (s.startReceive ph).deadline = some (s.now + s.timeoutMs) := rfl
@[simp] theorem State.startReceive_slot (s : State) (ph : Phase) : (s.startReceive ph).slot = s.slot := rfl
@[simp] theorem State.startReceive_acc (s : State) (ph : Phase) : (s.startReceive ph).acc = s.acc := rfl
@[simp] theorem State.startReceive_failed (s : State) (ph : Phase) : (s.startReceive ph).failed = s.failed := rfl
@[simp] theorem State.startReceive_rxBuf (s : State) (ph : Phase) : (s.startReceive ph).rxBuf = s.rxBuf := rfl
@[simp] theorem State.startReceive_transport (s : State) (ph : Phase) : (s.startReceive ph).transport = s.transport := rfl
@[simp] theorem State.startReceive_controlTable (s : State) (ph : Phase) : (s.startReceive ph).controlTable = s.controlTable := rfl
@[simp] theorem State.startReceive_timeoutMs (s : State) (ph : Phase) : (s.startReceive ph).timeoutMs = s.timeoutMs := rfl
@[simp] theorem State.startReceive_refused (s : State) (ph : Phase) : (s.startReceive ph).refused = s.refused := rfl
@[simp] theorem State.startReceive_faults (s : State) (ph : Phase) : (s.startReceive ph).faults = s.faults := rfl
@[simp] theorem State.startReceive_modeUnknownRaw (s : State) (ph : Phase) : (s.startReceive ph).modeUnknownRaw = s.modeUnknownRaw := rfl
@[simp] theorem State.startReceive_drainPolicy (s : State) (ph : Phase) : (s.startReceive ph).drainPolicy = s.drainPolicy := rfl
@[simp] theorem State.startReceive_now (s : State) (ph : Phase) : (s.startReceive ph).now = s.now := rfl
@[simp] theorem State.startReceive_writes (s : State) (ph : Phase) : (s.startReceive ph).writes = s.writes := rfl
@[simp] theorem State.startReceive_reads (s : State) (ph : Phase) : (s.startReceive ph).reads = s.reads := rfl
@[simp] theorem State.startReceive_oracleIndex (s : State) (ph : Phase) : (s.startReceive ph).oracleIndex = s.oracleIndex := rfl
@[simp] theorem State.startReceive_requests (s : State) (ph : Phase) : (s.startReceive ph).requests = s.requests := rfl
@[simp] theorem State.startReceive_interrupts (s : State) (ph : Phase) : (s.startReceive ph).interrupts = s.interrupts := rfl
@[simp] theorem State.startReceive_returned (s : State) (ph : Phase) : (s.startReceive ph).returned = s.returned := rfl
@[simp] theorem State.startReceive_trace (s : State) (ph : Phase) : (s.startReceive ph).trace = s.trace := rfl

/-! Ends of an operation, in terms of `finish` and `answer`. -/

@[simp] theorem State.complete_eq (s : State) (r : OpResult) : s.complete r = s.finish.answer (.ok r) := rfl
@[simp] theorem State.raise_eq (s : State) (e : Error) : s.raise e = s.finish.answer (.err e) := rfl
@[simp] theorem State.cancel_eq (s : State) : s.cancel = s.finish.answer .cancelled := rfl
@[simp] theorem State.rejectEagerly_err (s : State) (e : Error) : s.rejectEagerly (.err e) = s.answer (.err e) := rfl
@[simp] theorem State.rejectEagerly_refuse (s : State) (r : RefuseReason) : s.rejectEagerly (.refuse r) = s.refuse r := rfl
@[simp] theorem State.params_model (s : State) : s.params.model = s.controlTable := rfl
@[simp] theorem State.params_modeUnknownRaw (s : State) : s.params.modeUnknownRaw = s.modeUnknownRaw := rfl

/-! Using up an answer of the environment. -/

/-! `dropWrite` -/

@[simp] theorem State.dropWrite_phase (s : State) : (s.dropWrite).phase = s.phase := by unfold State.dropWrite; split <;> rfl
@[simp] theorem State.dropWrite_op (s : State) : (s.dropWrite).op = s.op := by unfold State.dropWrite; split <;> rfl
@[simp] theorem State.dropWrite_deadline (s : State) : (s.dropWrite).deadline = s.deadline := by unfold State.dropWrite; split <;> rfl
@[simp] theorem State.dropWrite_slot (s : State) : (s.dropWrite).slot = s.slot := by unfold State.dropWrite; split <;> rfl
@[simp] theorem State.dropWrite_acc (s : State) : (s.dropWrite).acc = s.acc := by unfold State.dropWrite; split <;> rfl
@[simp] theorem State.dropWrite_failed (s : State) : (s.dropWrite).failed = s.failed := by unfold State.dropWrite; split <;> rfl
@[simp] theorem State.dropWrite_rxBuf (s : State) : (s.dropWrite).rxBuf = s.rxBuf := by unfold State.dropWrite; split <;> rfl
@[simp] theorem State.dropWrite_transport (s : State) : (s.dropWrite).transport = s.transport := by unfold State.dropWrite; split <;> rfl
@[simp] theorem State.dropWrite_controlTable (s : State) : (s.dropWrite).controlTable = s.controlTable := by unfold State.dropWrite; split <;> rfl
@[simp] theorem State.dropWrite_timeoutMs (s : State) : (s.dropWrite).timeoutMs = s.timeoutMs := by unfold State.dropWrite; split <;> rfl
@[simp] theorem State.dropWrite_refused (s : State) : (s.dropWrite).refused = s.refused := by unfold State.dropWrite; split <;> rfl
@[simp] theorem State.dropWrite_faults (s : State) : (s.dropWrite).faults = s.faults := by unfold State.dropWrite; split <;> rfl
@[simp] theorem State.dropWrite_modeUnknownRaw (s : State) : (s.dropWrite).modeUnknownRaw = s.modeUnknownRaw := by unfold State.dropWrite; split <;> rfl
@[simp] theorem State.dropWrite_drainPolicy (s : State) : (s.dropWrite).drainPolicy = s.drainPolicy := by unfold State.dropWrite; split <;> rfl
@[simp] theorem State.dropWrite_now (s : State) : (s.dropWrite).now = s.now := by unfold State.dropWrite; split <;> rfl
@[simp] theorem State.dropWrite_reads (s : State) : (s.dropWrite).reads = s.reads := by unfold State.dropWrite; split <;> rfl
@[simp] theorem State.dropWrite_requests (s : State) : (s.dropWrite).requests = s.requests := by unfold State.dropWrite; split <;> rfl
@[simp] theorem State.dropWrite_interrupts (s : State) : (s.dropWrite).interrupts = s.interrupts := by unfold State.dropWrite; split <;> rfl
@[simp] theorem State.dropWrite_returned (s : State) : (s.dropWrite).returned = s.returned := by unfold State.dropWrite; split <;> rfl
@[simp] theorem State.dropWrite_trace (s : State) : (s.dropWrite).trace = s.trace := by unfold State.dropWrite; split <;> rfl

/-! `dropRead` -/

@[simp] theorem State.dropRead_phase (s : State) : (s.dropRead).phase = s.phase := by unfold State.dropRead; split <;> rfl
@[simp] theorem State.dropRead_op (s : State) : (s.dropRead).op = s.op := by unfold State.dropRead; split <;> rfl
@[simp] theorem State.dropRead_deadline (s : State) : (s.dropRead).deadline = s.deadline := by unfold State.dropRead; split <;> rfl
@[simp] theorem State.dropRead_slot (s : State) : (s.dropRead).slot = s.slot := by unfold State.dropRead; split <;> rfl
@[simp] theorem State.dropRead_acc (s : State) : (s.dropRead).acc = s.acc := by unfold State.dropRead; split <;> rfl
@[simp] theorem State.dropRead_failed (s : State) : (s.dropRead).failed = s.failed := by unfold State.dropRead; split <;> rfl
@[simp] theorem State.dropRead_rxBuf (s : State) : (s.dropRead).rxBuf = s.rxBuf := by unfold State.dropRead; split <;> rfl
@[simp] theorem State.dropRead_transport (s : State) : (s.dropRead).transport = s.transport := by unfold State.dropRead; split <;> rfl
@[simp] theorem State.dropRead_controlTable (s : State) : (s.dropRead).controlTable = s.controlTable := by unfold State.dropRead; split <;> rfl
@[simp] theorem State.dropRead_timeoutMs (s : State) : (s.dropRead).timeoutMs = s.timeoutMs := by unfold State.dropRead; split <;> rfl
@[simp] theorem State.dropRead_refused (s : State) : (s.dropRead).refused = s.refused := by unfold State.dropRead; split <;> rfl
@[simp] theorem State.dropRead_faults (s : State) : (s.dropRead).faults = s.faults := by unfold State.dropRead; split <;> rfl
@[simp] theorem State.dropRead_modeUnknownRaw (s : State) : (s.dropRead).modeUnknownRaw = s.modeUnknownRaw := by unfold State.dropRead; split <;> rfl
@[simp] theorem State.dropRead_drainPolicy (s : State) : (s.dropRead).drainPolicy = s.drainPolicy := by unfold State.dropRead; split <;> rfl
@[simp] theorem State.dropRead_now (s : State) : (s.dropRead).now = s.now := by unfold State.dropRead; split <;> rfl
@[simp] theorem State.dropRead_writes (s : State) : (s.dropRead).writes = s.writes := by unfold State.dropRead; split <;> rfl
@[simp] theorem State.dropRead_requests (s : State) : (s.dropRead).requests = s.requests := by unfold State.dropRead; split <;> rfl
@[simp] theorem State.dropRead_interrupts (s : State) : (s.dropRead).interrupts = s.interrupts := by unfold State.dropRead; split <;> rfl
@[simp] theorem State.dropRead_returned (s : State) : (s.dropRead).returned = s.returned := by unfold State.dropRead; split <;> rfl
@[simp] theorem State.dropRead_trace (s : State) : (s.dropRead).trace = s.trace := by unfold State.dropRead; split <;> rfl

end Sys2Proof.Machine
end

