-- ==== Sys2Proof/Laws/Ops.lean ====
section
/-! SUPPORT. For each shared operation one lemma that says once everything it can do. Proofs cite these instead of
unfolding the operation. -/

namespace Sys2Proof.Machine

/-- Admission passes exactly for an open, idle transactor and IDs the operation may use. -/
theorem admission_eq_none_iff (i : Instr) (s : State) :
    admission i s = none ↔ s.transport = .opened ∧ s.phase = .idle ∧ admitIds i = none := by
  unfold admission
  cases h : s.transport <;> by_cases hp : s.phase = .idle <;> simp [hp]

/-- Everything the start of an operation can do. -/
theorem begin_cases (i : Instr) (pkt : Checked (List Byte)) (s : State) :
    (∃ r, admission i s = some r ∧ begin i pkt s = s.refuse r)
    ∨ (∃ e, admission i s = none ∧ pkt = .error e ∧ begin i pkt s = s.rejectEagerly e)
    ∨ (∃ bytes, admission i s = none ∧ pkt = .ok bytes ∧ begin i pkt s = { s with op := some i, phase := .sending }) := by
  unfold begin
  cases ha : admission i s with
  | some r => exact .inl ⟨r, rfl, rfl⟩
  | none =>
    cases pkt with
    | error e => exact .inr (.inl ⟨e, rfl, rfl, rfl⟩)
    | ok bytes => exact .inr (.inr ⟨bytes, rfl, rfl, rfl⟩)

/-- Everything a send that answers a next state can do. -/
theorem send_cases {pkt : Checked (List Byte)} {after : State → State} {s t : State} (h : send pkt after s = .next t) :
    ∃ bytes, pkt = .ok bytes ∧
      ((∃ e dt, s.nextWrite = .error e dt ∧ t = (s.dropWrite.calls (.write bytes) dt).raise (.transport e))
        ∨ (∃ dt, s.nextWrite = .ok dt ∧ t = after (s.dropWrite.calls (.write bytes) dt))) := by
  cases pkt with
  | error e => simp [send] at h
  | ok bytes =>
    refine ⟨bytes, rfl, ?_⟩
    cases hw : s.nextWrite with
    | ok dt =>
      simp only [send, hw, Host.Outcome.next.injEq] at h
      exact .inr ⟨dt, rfl, h.symm⟩
    | error e dt =>
      simp only [send, hw, Host.Outcome.next.injEq] at h
      exact .inl ⟨e, dt, rfl, h.symm⟩

/-- A read takes no longer than it waits. -/
theorem answerWithin_data {wait dt : Nat} {c : List Byte} {e : ReadEvent} (h : answerWithin wait e = .data c dt) :
    dt ≤ wait := by
  cases e <;> simp only [answerWithin, ReadEvent.data.injEq, reduceCtorEq] at h
  omega

theorem answerWithin_error {wait dt : Nat} {x : TransportError} {e : ReadEvent} (h : answerWithin wait e = .error x dt) :
    dt ≤ wait := by
  cases e <;> simp only [answerWithin, ReadEvent.error.injEq, reduceCtorEq] at h
  omega

/-- Everything one iteration of the receive loop that answers a next state can do. -/
theorem receive_cases {onReply : Reply → State → State} {s t : State} (h : receive onReply s = .next t) :
    ∃ d, s.deadline = some d ∧
      ((∃ e dt, s.nextRead (chunkWait d s.now) = .error e dt
          ∧ t = (s.dropRead.calls (.read (chunkWait d s.now)) dt).raise (.transport e))
        ∨ (∃ c dt, s.nextRead (chunkWait d s.now) = .data c dt ∧
            ((∃ p rest, extractPacket (s.rxBuf ++ c) = .complete p rest
                ∧ t = onReply (.packet (parseResponse p))
                    { s.dropRead.calls (.read (chunkWait d s.now)) dt with rxBuf := rest })
              ∨ (∃ b, extractPacket (s.rxBuf ++ c) = .incomplete b
                  ∧ t = (if d ≤ s.now + dt
                      then onReply .noResponse { s.dropRead.calls (.read (chunkWait d s.now)) dt with rxBuf := b }
                      else { s.dropRead.calls (.read (chunkWait d s.now)) dt with rxBuf := b }))))) := by
  cases hd : s.deadline with
  | none => simp [receive, hd] at h
  | some d =>
    refine ⟨d, rfl, ?_⟩
    cases hr : s.nextRead (chunkWait d s.now) with
    | error e dt =>
      simp only [receive, hd, hr, Host.Outcome.next.injEq] at h
      exact .inl ⟨e, dt, rfl, h.symm⟩
    | data c dt =>
      refine .inr ⟨c, dt, rfl, ?_⟩
      cases hx : extractPacket (s.rxBuf ++ c) with
      | complete p rest =>
        simp only [receive, hd, hr, hx, Host.Outcome.next.injEq] at h
        exact .inl ⟨p, rest, rfl, h.symm⟩
      | incomplete b =>
        refine .inr ⟨b, rfl, ?_⟩
        simp only [receive, hd, hr, hx, State.calls_now, State.dropRead_now] at h
        split at h <;> simp_all

/-- One transition of an operation is its start, its send or one iteration of its receive loop. -/
theorem transact_cases (i : Instr) (pkt : Checked (List Byte)) (after : State → State) (onReply : Reply → State → State)
    (s : State) :
    ((s.phase = .idle ∨ s.op ≠ some i) ∧ transact i pkt after onReply s = .next (begin i pkt s))
    ∨ (s.phase = .sending ∧ s.op = some i ∧ transact i pkt after onReply s = send pkt after s)
    ∨ ((s.phase = .awaitingResponse ∨ s.phase = .draining) ∧ s.op = some i
        ∧ transact i pkt after onReply s = receive onReply s) := by
  unfold transact
  by_cases ho : s.op = some i <;> cases hp : s.phase <;> simp [ho]

/-- Everything a teardown can do. -/
theorem teardown_cases (s : State) :
    (s.transport = .closed ∧ s.teardown = s)
    ∨ (s.transport = .opened ∧ s.phase = .idle ∧ s.teardown = { s.calls .close 0 with transport := .closed })
    ∨ (s.transport = .opened ∧ s.phase ≠ .idle
        ∧ s.teardown = { s.cancel.calls .close 0 with transport := .closed }) := by
  unfold State.teardown
  cases ht : s.transport <;> by_cases hp : s.phase = .idle <;> simp [hp]

/-- A concurrent request is refused or, were it admitted, ignored. -/
theorem refuseConcurrent_cases (i : Instr) (s : State) :
    (∃ r, admission i s = some r ∧ s.refuseConcurrent i = s.refuse r)
    ∨ (admission i s = none ∧ s.refuseConcurrent i = s) := by
  unfold State.refuseConcurrent
  cases admission i s with
  | some r => exact .inl ⟨r, rfl, rfl⟩
  | none => exact .inr ⟨rfl, rfl⟩

/-- What an info reply leads to: status info, the parse error, or no response. -/
theorem infoReply_cases (r : Reply) (s : State) :
    (∃ p, r = .packet (.ok p) ∧ infoReply r s = s.complete (.info (statusInfo p.id p.status)))
    ∨ (∃ e, r = .packet (.error e) ∧ infoReply r s = s.raise e)
    ∨ (r = .noResponse ∧ infoReply r s = s.raise .noResponse) := by
  cases r with
  | noResponse => exact .inr (.inr ⟨rfl, rfl⟩)
  | packet q =>
    cases q with
    | ok p => exact .inl ⟨p, rfl, rfl⟩
    | error e => exact .inr (.inl ⟨e, rfl, rfl⟩)

/-- A drained reply ends the operation with `ok(unit)` or, under `surface`, with an error. -/
theorem drainReply_cases (r : Reply) (s : State) :
    drainReply r s = s.complete .unit ∨ (s.drainPolicy = .surface ∧ ∃ e, drainReply r s = s.raise e) := by
  rcases r with (e | p) | _
  · cases hd : s.drainPolicy
    · exact .inl (by simp [drainReply, hd])
    · exact .inr ⟨rfl, e, by simp [drainReply, hd]⟩
  · exact .inl rfl
  · cases hd : s.drainPolicy
    · exact .inl (by simp [drainReply, hd])
    · exact .inr ⟨rfl, .noResponse, by simp [drainReply, hd]⟩

end Sys2Proof.Machine
end

