-- ==== Sys2Proof/Laws/Exec.lean ====
section
/-! SUPPORT. Every meaning as one `transact`, what an operation does after its packet is written and with a reply, and the
inversion of a step: everything one step can do, said once. -/

namespace Sys2Proof.Machine

/-- What an operation does once its packet is written. -/
def afterWritten : Instr → State → State
  | .ping _ | .recovery _ | .reset _ | .read _ _ | .regWrite _ _ => fun t => t.startReceive .awaitingResponse
  | .write _ _ awaited => fun t => t.startReceive (writePhase awaited)
  | .action _ | .syncWrite _ => fun t => t.complete .unit
  | .syncRead ids _ => syncReadStart ids

/-- What an operation does with what a receive loop returns. -/
def withReply : Instr → Reply → State → State
  | .ping _ | .recovery _ | .reset _ | .regWrite _ _ => infoReply
  | .read _ target => readReply target
  | .write _ _ awaited => writeReply awaited
  | .action _ | .syncWrite _ => noReply
  | .syncRead ids target => syncReadReply ids target

/-- Every meaning is one `transact`. -/
theorem exec_eq_transact (i : Instr) (s : State) :
    exec i s = transact i (encode s.params i) (afterWritten i) (withReply i) s := by
  cases i <;> rfl

theorem finish_answer_eq_endedWith (s : State) (o : OpOutcome) : s.finish.answer o = s.endedWith o := rfl

theorem calls_eq_afterWrite (s : State) (b : List Byte) (dt : Nat) :
    s.dropWrite.calls (.write b) dt = s.afterWrite b dt := by
  simp [State.calls, State.afterWrite]

theorem calls_eq_afterRead (s : State) (d dt : Nat) (b : List Byte) :
    { s.dropRead.calls (.read (chunkWait d s.now)) dt with rxBuf := b } = s.afterRead d dt b := by
  simp [State.calls, State.afterRead, chunkWait]

/-- The send of the operation in flight. -/
theorem exec_of_sending {i : Instr} {s : State} {pkt : List Byte} (ho : s.op = some i) (hp : s.phase = .sending)
    (he : encode s.params i = .ok pkt) : exec i s = send (.ok pkt) (afterWritten i) s := by
  rw [exec_eq_transact, he]
  simp [transact, ho, hp]

/-- One iteration of the receive loop of the operation in flight. -/
theorem exec_of_awaits {i : Instr} {s : State} {d : Nat} (ha : s.awaits i d) : exec i s = receive (withReply i) s := by
  rw [exec_eq_transact]
  obtain ⟨h1, h2 | h2, -⟩ := ha <;> simp [transact, h1, h2]

/-- A receive loop that ends hands what it returns to the operation. -/
theorem exec_of_receives {i : Instr} {s : State} {d dt : Nat} {buf : List Byte} {o : Reply} (ha : s.awaits i d)
    (h : s.receives d dt buf o) : exec i s = .next (withReply i o (s.afterRead d dt buf)) := by
  rw [exec_of_awaits ha]
  obtain ⟨c, hr, ⟨p, hx, rfl⟩ | ⟨hx, hle, rfl⟩⟩ := h
  all_goals replace hr : s.nextRead (chunkWait d s.now) = .data c dt := hr
  · simp only [receive, ha.2.2, hr, hx, calls_eq_afterRead]
  · simp only [receive, ha.2.2, hr, hx, calls_eq_afterRead]
    rw [if_pos]
    simpa [State.afterRead] using hle

/-- Everything an operation can do once its packet is written. -/
theorem afterWritten_cases (i : Instr) (s : State) :
    (∃ o, afterWritten i s = s.finish.answer o)
    ∨ (∃ ph, afterWritten i s = s.startReceive ph ∧ expectedReplies i = 1 ∧ (∀ ids target, i ≠ .syncRead ids target)
        ∧ (ph = .awaitingResponse ∨ ph = .draining) ∧ (ph = .draining ↔ ∃ id form, i = .write id form false))
    ∨ (∃ ids target, i = .syncRead ids target ∧ ids ≠ []
        ∧ afterWritten i s = { s with acc := [], failed := false, slot := 0 }.startReceive .awaitingResponse) := by
  cases i with
  | write id f w => right; left; cases w <;> exact ⟨_, rfl, rfl, by simp, by simp [writePhase], by simp [writePhase]⟩
  | syncRead ids t =>
    by_cases h : ids = []
    · left; simp [afterWritten, syncReadStart, h]
    · right; right; exact ⟨ids, t, rfl, h, by simp [afterWritten, syncReadStart, h]⟩
  | action _ | syncWrite _ => left; exact ⟨_, rfl⟩
  | ping _ | read _ _ | regWrite _ _ | recovery _ | reset _ =>
    right; left; exact ⟨_, rfl, rfl, by simp, by simp, by simp⟩

/-- A slot that reads something reads it while no slot has failed. -/
theorem slotReading_eq_some {ids : List Int} {target : ReadForm} {r : Reply} {s : State} {e : Reading × StatusInfo}
    (h : slotReading ids target r s = some e) : s.failed = false := by
  rcases r with (_ | p) | _
  · cases h
  · simp only [slotReading] at h
    split at h
    next hc => exact hc.1
    · cases h
  · cases h

/-- Everything an operation can do with a reply. -/
theorem withReply_cases (i : Instr) (r : Reply) (s : State) :
    (∃ o, withReply i r s = s.finish.answer o)
    ∨ (∃ f, withReply i r s = s.recordFault f)
    ∨ (expectedReplies i = 0 ∧ withReply i r s = s)
    ∨ (∃ ids target, i = .syncRead ids target ∧ s.slot + 1 < ids.length ∧
        ((s.failed = false ∧ ∃ e, withReply i r s =
            { s with acc := s.acc ++ [e], slot := s.slot + 1, deadline := some (s.now + s.timeoutMs) })
          ∨ withReply i r s =
            { s with failed := true, phase := .draining, slot := s.slot + 1,
                     deadline := some (s.now + s.timeoutMs) })) := by
  cases i with
  | ping _ | recovery _ | reset _ | regWrite _ _ =>
    left
    simp only [withReply]
    rcases infoReply_cases r s with ⟨p, -, h⟩ | ⟨p, -, h⟩ | ⟨-, h⟩ <;> exact ⟨_, h⟩
  | write id f w =>
    left
    simp only [withReply, writeReply]
    split
    · rcases infoReply_cases r s with ⟨p, -, h⟩ | ⟨p, -, h⟩ | ⟨-, h⟩ <;> exact ⟨_, h⟩
    · rcases drainReply_cases r s with h | ⟨-, e, h⟩ <;> exact ⟨_, h⟩
  | read id t =>
    simp only [withReply, readReply]
    split
    · split
      · left; exact ⟨_, rfl⟩
      · right; left; exact ⟨_, rfl⟩
    · left; exact ⟨_, rfl⟩
    · left; exact ⟨_, rfl⟩
  | action _ | syncWrite _ => right; right; left; exact ⟨rfl, rfl⟩
  | syncRead ids t =>
    cases hs : slotReading ids t r s with
    | some e =>
      have hc : closeSlot ids t r s = { s with acc := s.acc ++ [e] } := by simp only [closeSlot, hs]
      have hf := slotReading_eq_some hs
      simp only [withReply, syncReadReply, hc, nextSlot]
      split
      · right; right; right; exact ⟨_, _, rfl, by assumption, .inl ⟨hf, e, rfl⟩⟩
      · left; rw [if_neg (by simp [hf])]; exact ⟨_, rfl⟩
    | none =>
      have hc : closeSlot ids t r s = { s with failed := true, phase := .draining } := by simp only [closeSlot, hs]
      simp only [withReply, syncReadReply, hc, nextSlot]
      split
      · right; right; right; exact ⟨_, _, rfl, by assumption, .inr rfl⟩
      · left; exact ⟨_, rfl⟩

/-- What one chunk read of `s` before the deadline `d` can take and leave: no longer than it waits, and the buffer it
found, or the reframer's rest or incomplete buffer. -/
def leavesBuffer (s : State) (d dt : Nat) (buf : List Byte) : Prop :=
  dt ≤ chunkWait d s.now ∧ (buf = s.rxBuf ∨ ∃ c, s.nextRead (chunkWait d s.now) = .data c dt ∧
    ((∃ p, extractPacket (s.rxBuf ++ c) = .complete p buf) ∨ extractPacket (s.rxBuf ++ c) = .incomplete buf))

/-- One iteration of the receive loop in the terms of `afterRead`. -/
theorem receive_eq_next {f : Reply → State → State} {s t : State} (h : receive f s = .next t) :
    ∃ d dt buf, s.deadline = some d ∧ leavesBuffer s d dt buf ∧
      ((∃ o, t = (s.afterRead d dt buf).finish.answer o) ∨ (∃ o, t = f o (s.afterRead d dt buf))
        ∨ t = s.afterRead d dt buf) := by
  obtain ⟨d, hd, ⟨e, dt, hr, rfl⟩ | ⟨c, dt, hr, ⟨p, rest, hx, rfl⟩ | ⟨b, hx, rfl⟩⟩⟩ := receive_cases h
  · refine ⟨d, dt, s.rxBuf, hd, ⟨answerWithin_error hr, .inl rfl⟩, .inl ⟨.err (.transport e), ?_⟩⟩
    rw [← calls_eq_afterRead s d dt s.rxBuf]
    simp [State.finish, State.answer]
  · exact ⟨d, dt, rest, hd, ⟨answerWithin_data hr, .inr ⟨c, hr, .inl ⟨p, hx⟩⟩⟩, .inr (.inl ⟨_, by rw [calls_eq_afterRead]⟩)⟩
  · refine ⟨d, dt, b, hd, ⟨answerWithin_data hr, .inr ⟨c, hr, .inr hx⟩⟩, ?_⟩
    rw [calls_eq_afterRead]
    split
    · exact .inr (.inl ⟨_, rfl⟩)
    · exact .inr (.inr rfl)

/-- A send in the terms of `afterWrite`. -/
theorem send_eq_next {pkt : Checked (List Byte)} {f : State → State} {s t : State} (h : send pkt f s = .next t) :
    ∃ bytes dt, pkt = .ok bytes
      ∧ ((∃ o, t = (s.afterWrite bytes dt).finish.answer o) ∨ t = f (s.afterWrite bytes dt)) := by
  obtain ⟨b, hp, ⟨e, dt, hw, rfl⟩ | ⟨dt, hw, rfl⟩⟩ := send_cases h
  · exact ⟨b, dt, hp, .inl ⟨_, by rw [calls_eq_afterWrite]; rfl⟩⟩
  · exact ⟨b, dt, hp, .inr (by rw [calls_eq_afterWrite])⟩

/-- Everything a step of `s` that answers a next state can do. -/
inductive StepTo (s : State) : State → Prop
  | stutter : s.phase = .idle → s.requests = [] → StepTo s s
  | pause (r : List Request) (ms : Nat) : s.phase = .idle → StepTo s { s with requests := r, now := s.now + ms }
  | teardownIdle (r : List Request) : s.phase = .idle → StepTo s ({ s with requests := r } : State).teardown
  | start (r : List Request) (i : Instr) : s.phase = .idle →
      StepTo s (begin i (encode s.params i) { s with requests := r })
  | sent (r : List (Option Interrupt)) (i : Instr) (pkt : List Byte) (dt : Nat) : s.phase = .sending → s.op = some i →
      encode s.params i = .ok pkt → StepTo s (afterWritten i (({ s with interrupts := r } : State).afterWrite pkt dt))
  | sendFailed (r : List (Option Interrupt)) (i : Instr) (pkt : List Byte) (dt : Nat) (o : OpOutcome) :
      s.phase = .sending → s.op = some i → encode s.params i = .ok pkt →
      StepTo s ((({ s with interrupts := r } : State).afterWrite pkt dt).finish.answer o)
  | readFailed (r : List (Option Interrupt)) (i : Instr) (d dt : Nat) (buf : List Byte) (o : OpOutcome) :
      s.receiving → s.op = some i → s.deadline = some d → leavesBuffer s d dt buf →
      StepTo s ((({ s with interrupts := r } : State).afterRead d dt buf).finish.answer o)
  | replied (r : List (Option Interrupt)) (i : Instr) (d dt : Nat) (buf : List Byte) (o : Reply) :
      s.receiving → s.op = some i → s.deadline = some d → leavesBuffer s d dt buf →
      StepTo s (withReply i o (({ s with interrupts := r } : State).afterRead d dt buf))
  | waiting (r : List (Option Interrupt)) (i : Instr) (d dt : Nat) (buf : List Byte) :
      s.receiving → s.op = some i → s.deadline = some d → leavesBuffer s d dt buf →
      StepTo s (({ s with interrupts := r } : State).afterRead d dt buf)
  | concurrent (r : List (Option Interrupt)) (j : Instr) : s.phase ≠ .idle → s.op ≠ none →
      StepTo s (({ s with interrupts := r } : State).refuseConcurrent j)
  | cancelled (r : List (Option Interrupt)) : s.phase ≠ .idle → s.op ≠ none →
      StepTo s ({ s with interrupts := r } : State).cancel
  | teardown (r : List (Option Interrupt)) : s.phase ≠ .idle → s.op ≠ none →
      StepTo s ({ s with interrupts := r } : State).teardown

theorem stepTo_of_exec_inFlight {s t : State} {i : Instr} {r : List (Option Interrupt)} (hp : s.phase ≠ .idle)
    (ho : s.op = some i) (h : exec i { s with interrupts := r } = .next t) : StepTo s t := by
  rw [exec_eq_transact] at h
  rcases transact_cases i (encode ({ s with interrupts := r } : State).params i) (afterWritten i) (withReply i)
    ({ s with interrupts := r } : State) with ⟨h1, -⟩ | ⟨h1, h2, h3⟩ | ⟨h1, h2, h3⟩
  · rcases h1 with h1 | h1
    · exact absurd h1 hp
    · exact absurd ho h1
  · rw [h3] at h
    obtain ⟨b, dt, he, ⟨o, rfl⟩ | rfl⟩ := send_eq_next h
    · exact .sendFailed r i b dt o h1 h2 he
    · exact .sent r i b dt h1 h2 he
  · rw [h3] at h
    obtain ⟨d, dt, buf, hd, hb, ⟨o, rfl⟩ | ⟨o, rfl⟩ | rfl⟩ := receive_eq_next h
    · exact .readFailed r i d dt buf o h1 h2 hd hb
    · exact .replied r i d dt buf o h1 h2 hd hb
    · exact .waiting r i d dt buf h1 h2 hd hb

theorem stepTo_of_exec_idle {s t : State} {i : Instr} {r : List Request} (hp : s.phase = .idle)
    (h : exec i { s with requests := r } = .next t) : StepTo s t := by
  rw [exec_eq_transact] at h
  rcases transact_cases i (encode ({ s with requests := r } : State).params i) (afterWritten i) (withReply i)
    ({ s with requests := r } : State) with ⟨-, h2⟩ | ⟨h1, -, -⟩ | ⟨h1, -, -⟩
  · rw [h2] at h
    rw [← Host.Outcome.next.inj h]
    exact .start r i hp
  · simp [hp] at h1
  · simp [hp] at h1

theorem step_of_not_idle {s : State} (hp : s.phase ≠ .idle) : step s = stepInFlight s := by
  unfold step
  cases h : s.phase <;> simp_all

theorem step_of_idle {s : State} (hp : s.phase = .idle) : step s = stepIdle s := by
  unfold step
  rw [hp]

/-- The inversion of a step. -/
theorem stepTo_of_step {s t : State} (h : step s = .next t) : StepTo s t := by
  by_cases hp : s.phase = .idle
  · rw [step_of_idle hp, stepIdle] at h
    split at h
    next hr => cases h; exact .stutter hp hr
    next r rest _ =>
      cases r with
      | call i => exact stepTo_of_exec_idle hp h
      | packet b =>
        simp only [serve] at h
        split at h
        · exact stepTo_of_exec_idle hp h
        · cases h
      | pause ms => cases h; exact .pause _ _ hp
      | teardown => cases h; exact .teardownIdle _ hp
  · rw [step_of_not_idle hp, stepInFlight] at h
    split at h
    · cases h
    next i ho =>
      split at h
      next hi =>
        have hs : s = { s with interrupts := [] } := by rw [← hi]
        rw [hs] at h
        exact stepTo_of_exec_inFlight hp ho h
      · exact stepTo_of_exec_inFlight hp ho h
      next a rest _ =>
        cases h
        cases a with
        | call j => exact .concurrent _ _ hp (by simp [ho])
        | cancel => exact .cancelled _ hp (by simp [ho])
        | teardown => exact .teardown _ hp (by simp [ho])

end Sys2Proof.Machine
end

