-- ==== Sys2Proof/Laws/Numeric.lean ====
section
/-! SUPPORT. What the comparisons and the search behind rounding can do, once each: a cut's comparisons are those of its
real, every real has a cut, and the bitwise search finds the greatest number of a downward closed predicate. -/

namespace Sys2Proof.Laws

open Machine

theorem abs_realOfCut_le (c : RealCut) : |realOfCut c| ≤ (c.bound : ℝ) := (Classical.choose_spec c.real).1

theorem isGe_iff (c : RealCut) (a : PiNum) : c.isGe a = true ↔ realOf a ≤ realOfCut c :=
  ((Classical.choose_spec c.real).2 a).1

theorem isLe_iff (c : RealCut) (a : PiNum) : c.isLe a = true ↔ realOfCut c ≤ realOf a :=
  ((Classical.choose_spec c.real).2 a).2

@[simp] theorem realOf_piInt (z : Int) : realOf (piInt z) = z := by simp [realOf, piInt]

@[simp] theorem realOf_piScale (k : Rat) (x : PiNum) : realOf (piScale k x) = k * realOf x := by
  simp only [realOf, piScale]
  push_cast
  ring

/-- A real is known by its place among the rationals. -/
theorem realOfCut_eq {c : RealCut} {x : ℝ} (h : ∀ q : Rat, c.isGe ⟨q, 0⟩ = true ↔ (q : ℝ) ≤ x) : realOfCut c = x := by
  have hc : ∀ q : Rat, (q : ℝ) ≤ realOfCut c ↔ (q : ℝ) ≤ x := fun q => by
    rw [← h q, isGe_iff]
    simp [realOf]
  rcases lt_trichotomy (realOfCut c) x with hlt | heq | hlt
  · obtain ⟨q, h1, h2⟩ := exists_rat_btwn hlt
    exact absurd ((hc q).2 h2.le) (not_le.2 h1)
  · exact heq
  · obtain ⟨q, h1, h2⟩ := exists_rat_btwn hlt
    exact absurd ((hc q).1 h2.le) (not_le.2 h1)

@[simp] theorem realOfCut_cutOf (x : PiNum) : realOfCut (cutOf x) = realOf x :=
  realOfCut_eq fun q => by simp [cutOf, piLe_iff, realOf]

/-- Everything the bitwise search can do on a predicate that is closed downwards: it holds of what is found, and of nothing
greater below the limit. -/
theorem greatest_spec {p : Nat → Bool} (down : ∀ m n, m ≤ n → p n = true → p m = true) :
    ∀ (k found : Nat), p found = true → p (found + 2 ^ k) = false →
      p (greatest p k found) = true ∧ p (greatest p k found + 1) = false
  | 0, found, h0, h1 => ⟨h0, h1⟩
  | k + 1, found, h0, h1 => by
    simp only [greatest]
    split
    · next h => exact greatest_spec down k _ h (by rw [add_assoc, ← two_mul, ← pow_succ']; exact h1)
    · next h => exact greatest_spec down k _ h0 (by simpa using h)

end Sys2Proof.Laws
end

