-- ==== Sys2Proof/Laws/PerInstr.lean ====
section
/-! SUPPORT. Statements made per instruction, one lemma per constructor of Instr. -/

namespace Sys2Proof.Laws

open Machine

/-- Everything a packet that can be assembled is (41_packet_codec.md R140). -/
theorem packet_ok {id : Int} {code : Byte} {params : List Int} {s : List Byte} (h : packet id code params = .ok s) :
    idOk id = true ∧ params.all byteOk = true ∧ params.length ≤ 253
      ∧ s = frame (toByte id :: BitVec.ofNat 8 (params.length + 2) :: code :: params.map toByte) := by
  unfold packet at h
  split at h
  · cases h
  split at h
  · cases h
  split at h
  · cases h
  next h1 h2 h3 =>
    refine ⟨by simpa using h1, ?_, by omega, ?_⟩
    · cases hb : params.all byteOk
      · simp [hb] at h2
      · rfl
    · exact (Except.ok.inj h).symm

/-- The instruction code of an instruction (30_encoding.md R85). -/
def codeOf : Instr → Byte
  | .ping _ => codePing
  | .read _ _ => codeRead
  | .write _ _ _ => codeWrite
  | .regWrite _ _ => codeRegWrite
  | .action _ => codeAction
  | .recovery _ => codeRecovery
  | .reset _ => codeReset
  | .syncRead _ _ => codeSyncRead
  | .syncWrite _ => codeSyncWrite

/-- The packet of an instruction starts with the header and carries the instruction's code at offset 4 (R80, R85). -/
def CodeByte.Statement (i : Instr) : Prop :=
  ∀ p s, encode p i = .ok s → s.take 2 = [headerByte, headerByte] ∧ s[4]? = some (codeOf i)

/-- A packet shows the code it was assembled with. -/
theorem packet_code {id : Int} {code : Byte} {params : List Int} {s : List Byte} (h : packet id code params = .ok s) :
    s.take 2 = [headerByte, headerByte] ∧ s[4]? = some code := by
  obtain ⟨-, -, -, rfl⟩ := packet_ok h
  simp [frame]

theorem CodeByte.ping (id : Int) : CodeByte.Statement (.ping id) := fun _ _ h => packet_code h

theorem CodeByte.read (id : Int) (target : ReadForm) : CodeByte.Statement (.read id target) := by
  intro p s h
  simp only [encode, readPacket] at h
  split at h
  · simp only [buildRead] at h
    split at h
    · cases h
    · exact packet_code h
  · cases h

theorem CodeByte.write (id : Int) (form : WriteForm) (awaited : Bool) : CodeByte.Statement (.write id form awaited) := by
  intro p s h
  simp only [encode, writePacket] at h
  split at h
  · simp only [buildWrite] at h
    split at h
    · cases h
    · exact packet_code h
  · cases h

theorem CodeByte.regWrite (id : Int) (form : RegWriteForm) : CodeByte.Statement (.regWrite id form) := by
  intro p s h
  simp only [encode, regWritePacket] at h
  split at h
  · simp only [buildRegWrite] at h
    split at h
    · cases h
    · exact packet_code h
  · cases h

theorem CodeByte.action (id : Int) : CodeByte.Statement (.action id) := fun _ _ h => packet_code h

theorem CodeByte.recovery (id : Int) : CodeByte.Statement (.recovery id) := fun _ _ h => packet_code h

theorem CodeByte.reset (id : Int) : CodeByte.Statement (.reset id) := fun _ _ h => packet_code h

theorem CodeByte.syncRead (ids : List Int) (target : ReadForm) : CodeByte.Statement (.syncRead ids target) := by
  intro p s h
  simp only [encode, syncReadPacket] at h
  split at h
  · simp only [buildSyncRead] at h
    split at h
    · cases h
    · split at h
      · cases h
      · exact packet_code h
  · cases h

theorem CodeByte.syncWrite (form : SyncWriteForm) : CodeByte.Statement (.syncWrite form) := by
  intro p s h
  simp only [encode, syncWritePacket] at h
  split at h
  · simp only [buildSyncWrite] at h
    split at h
    · cases h
    · split at h
      · cases h
      · exact packet_code h
  · cases h

end Sys2Proof.Laws
end

