-- ==== Sys2Proof/Tests/Slice0.lean ====
section
/-! SUPPORT. Tests of the model against the spec's own vectors (95_test_vectors.md, named by their numbers), ill-formed terms
that each check refuses, and for every statement with hypotheses a witness that meets them all. -/

namespace Sys2Proof.Tests

open Sys2Proof Sys2Proof.Machine

/-! ## Helpers -/

/-- The parameters of the spec's vectors: the STS3215 table, no raw value for mode `unknown`. -/
def p0 : Params := ⟨.sts3215, none⟩

/-- `x` steps of the position scale, `2π/4096` each. -/
def steps (x : Rat) : UserValue := .num (.exact ⟨0, x * mkRat 2 4096⟩)

/-- `x` steps of the speed scale. -/
def speedSteps (x : Rat) : UserValue := .num (.exact ⟨0, x * mkRat 100 4096⟩)

/-- A rational user value. -/
def ratio (n : Int) (d : Nat) : UserValue := .num (.exact ⟨mkRat n d, 0⟩)

/-- π/n as a user value, negated or not. -/
def piOver (n : Int) : UserValue := .num (.exact ⟨0, mkRat 1 1 / n⟩)

def enc (name : String) (v : UserValue) : Checked (List Byte) := encodeUser sts3215 none name v
def dec (name : String) (s : List Byte) : Checked UserValue := decodeUser sts3215 name s

/-- The reply of V7.1: servo 1, status 0. -/
def okReply : List Byte := [0xFF, 0xFF, 0x01, 0x02, 0x00, 0xFC]
/-- The reply of V7.8: servo 1, the two bytes of 1304. -/
def posReply : List Byte := [0xFF, 0xFF, 0x01, 0x04, 0x00, 0x18, 0x05, 0xDD]
/-- The second reply of V7.22: servo 2, 1024. -/
def posReply2 : List Byte := [0xFF, 0xFF, 0x02, 0x04, 0x00, 0x00, 0x04, 0xF5]
/-- The info of a reply of servo 1 with status 0. -/
def okInfo : StatusInfo := ⟨1, 0, [], false⟩

/-- An idle transactor asked for one operation. -/
def caller (i : Instr) : State := { State.reset with requests := [.call i] }
/-- The operation's packet is about to be written, and the transport answers `w`. -/
def sending (i : Instr) (w : WriteEvent) : State := { State.reset with op := some i, phase := .sending, writes := [w] }
/-- The operation reads a reply until 100 ms, and the transport answers `r`. -/
def awaiting (i : Instr) (r : ReadEvent) : State :=
  { State.reset with op := some i, phase := .awaitingResponse, deadline := some 100, reads := [r] }
/-- The same in `draining`. -/
def draining (i : Instr) (r : ReadEvent) : State := { awaiting i r with phase := .draining }
/-- `awaiting` at a later slot of a SYNC_READ. -/
def atSlot (i : Instr) (k : Nat) (acc : List (Reading × StatusInfo)) (r : ReadEvent) : State :=
  { awaiting i r with slot := k, acc := acc }

/-- The next state of an answer. -/
def nextOf : Host.Outcome State Fault Refusal → Option State
  | .next t => some t
  | .fault _ => none
  | .refused _ => none

/-- What one step returns to the caller. -/
def returns (s : State) : Option (List OpOutcome) := (nextOf (step s)).map State.returned
/-- The transport calls of one step after construction's. -/
def calls (s : State) : Option (List TransportCall) := (nextOf (step s)).map fun t => t.trace.drop 1
/-- The phase after one step. -/
def phaseAfter (s : State) : Option Phase := (nextOf (step s)).map State.phase

/-! ## WellFormed: an ill-formed term for each check -/

theorem test_wf_id_range : (Instr.ping 255).wellFormed p0 = false ∧ (Instr.action (-1)).wellFormed p0 = false
    ∧ (Instr.recovery 255).wellFormed p0 = false ∧ (Instr.reset 255).wellFormed p0 = false := by decide
theorem test_wf_read_byte : (Instr.read 1 (.addressed 256 2)).wellFormed p0 = false
    ∧ (Instr.read 1 (.addressed 0 (-1))).wellFormed p0 = false ∧ (Instr.read 255 (.addressed 0 1)).wellFormed p0 = false := by
  decide
theorem test_wf_read_register : (Instr.read 1 (.named "nonexistent" .raw)).wellFormed p0 = false := by decide
theorem test_wf_write_byte : (Instr.write 1 (.addressed 0 [256]) true).wellFormed p0 = false
    ∧ (Instr.write 1 (.addressed 256 []) true).wellFormed p0 = false := by decide
theorem test_wf_write_long : (Instr.write 1 (.addressed 0 (List.replicate 253 0)) true).wellFormed p0 = false := by decide +kernel
theorem test_wf_write_named : (Instr.write 1 (.named "nonexistent" (.int 0) .raw) true).wellFormed p0 = false
    ∧ (Instr.write 1 (.named "torque_enable" (.int 1) .converted) true).wellFormed p0 = false
    ∧ (Instr.write 1 (.named "mode" (.mode .unknown) .converted) true).wellFormed p0 = false
    ∧ (Instr.write 1 (.named "torque_enable" (.flag true) .raw) true).wellFormed p0 = false := by decide
theorem test_wf_regWrite : (Instr.regWrite 1 (.addressed 0 [256])).wellFormed p0 = false
    ∧ (Instr.regWrite 1 (.named "nonexistent" (.int 0))).wellFormed p0 = false
    ∧ (Instr.regWrite 1 (.named "baud_rate" (.int 0))).wellFormed p0 = false
    ∧ (Instr.regWrite 255 (.addressed 0 [])).wellFormed p0 = false := by decide
theorem test_wf_syncRead : (Instr.syncRead [255] (.addressed 0 1)).wellFormed p0 = false
    ∧ (Instr.syncRead [] (.addressed 0 256)).wellFormed p0 = false
    ∧ (Instr.syncRead [1] (.named "nonexistent" .raw)).wellFormed p0 = false
    ∧ (Instr.syncRead (List.replicate 252 1) (.addressed 0 1)).wellFormed p0 = false := by decide +kernel
theorem test_wf_syncWrite_addressed : (Instr.syncWrite (.addressed 0x2A 2 [(1, [0])])).wellFormed p0 = false
    ∧ (Instr.syncWrite (.addressed 256 0 [])).wellFormed p0 = false
    ∧ (Instr.syncWrite (.addressed 0 0 [(255, [])])).wellFormed p0 = false
    ∧ (Instr.syncWrite (.addressed 0 1 [(1, [256])])).wellFormed p0 = false
    ∧ (Instr.syncWrite (.addressed 0 0 (List.replicate 252 (1, [])))).wellFormed p0 = false := by decide +kernel
theorem test_wf_syncWrite_named : (Instr.syncWrite (.named "nonexistent" [] .raw)).wellFormed p0 = false
    ∧ (Instr.syncWrite (.named "mode" [(1, .int 0)] .converted)).wellFormed p0 = false
    ∧ (Instr.syncWrite (.named "id" [(255, .int 0)] .raw)).wellFormed p0 = false
    ∧ (Instr.syncWrite (.named "goal_position" (List.replicate 84 (1, .int 0)) .raw)).wellFormed p0 = false := by decide

/-! ## Decoding: the spec's words -/

theorem test_decode_ping : decode [0xFF, 0xFF, 0x05, 0x02, 0x01, 0xF7] = .ok (.ping 5) := by decide -- S5
theorem test_decode_read : decode [0xFF, 0xFF, 0x00, 0x04, 0x02, 0x00, 0x00, 0xF9] = .ok (.read 0 (.addressed 0 0)) := by
  decide -- V2.3
theorem test_decode_write : decode [0xFF, 0xFF, 0xFE, 0x04, 0x03, 0x00, 0x01, 0xF9]
    = .ok (.write 0xFE (.addressed 0 [1]) true) := by decide -- V2.5
theorem test_decode_regWrite : decode [0xFF, 0xFF, 0x01, 0x05, 0x04, 0x2A, 0x00, 0x08, 0xC3]
    = .ok (.regWrite 1 (.addressed 0x2A [0, 8])) := by decide -- V2.6
theorem test_decode_action : decode [0xFF, 0xFF, 0x01, 0x02, 0x05, 0xF7] = .ok (.action 1) := by decide -- V2.7
theorem test_decode_recovery : decode [0xFF, 0xFF, 0x01, 0x02, 0x06, 0xF6] = .ok (.recovery 1) := by decide -- V2.8
theorem test_decode_reset : decode [0xFF, 0xFF, 0x01, 0x02, 0x0A, 0xF2] = .ok (.reset 1) := by decide -- V2.9
theorem test_decode_syncWrite : decode [0xFF, 0xFF, 0xFE, 0x0A, 0x83, 0x2A, 0x02, 0x01, 0x00, 0x08, 0x02, 0x00, 0x88, 0xB5]
    = .ok (.syncWrite (.addressed 0x2A 2 [(1, [0, 8]), (2, [0, 0x88])])) := by decide -- V2.10
theorem test_decode_syncRead : decode [0xFF, 0xFF, 0xFE, 0x04, 0x82, 0x38, 0x02, 0x41] = .ok (.syncRead [] (.addressed 0x38 2)) := by
  decide -- V2.14
theorem test_decode_rejects : decode [0xFF, 0xFF, 0x01, 0x02, 0x01, 0xFC] = .error .badChecksum
    ∧ decode [0xFF, 0xFF, 0x01, 0x03, 0x01, 0xFB] = .error .badLength
    ∧ decode [0xFF, 0xFE, 0x01, 0x02, 0x01, 0xFB] = .error .noHeader
    ∧ decode [0xFF, 0xFF, 0xFF, 0x02, 0x01, 0xFD] = .error .badId
    ∧ decode [0xFF, 0xFF, 0x01, 0x02, 0x07, 0xF5] = .error (.unknownCode 7)
    ∧ decode [0xFF, 0xFF, 0x01, 0x02, 0x02, 0xFA] = .error .badParams := by decide
/-- The table's nine rows with their free bits 0 (log 10). -/
theorem test_table_rows : decodeTableWord 40 0xFFFF000201 = some (.ping 0)
    ∧ decodeTableWord 40 0xFFFF000402 = some (.read 0 (.addressed 0 0))
    ∧ decodeTableWord 40 0xFFFF000003 = some (.write 0 (.addressed 0 []) true)
    ∧ decodeTableWord 40 0xFFFF000004 = some (.regWrite 0 (.addressed 0 []))
    ∧ decodeTableWord 40 0xFFFF000205 = some (.action 0)
    ∧ decodeTableWord 40 0xFFFF000206 = some (.recovery 0)
    ∧ decodeTableWord 40 0xFFFF00020A = some (.reset 0)
    ∧ decodeTableWord 40 0xFFFFFE0082 = some (.syncRead [] (.addressed 0 0))
    ∧ decodeTableWord 40 0xFFFFFE0083 = some (.syncWrite (.addressed 0 0 [])) := by decide
theorem test_fetch : nextOf (step (State.reset.withFetchWord 40 0xFFFF000402))
    = some { State.reset with op := some (.read 0 (.addressed 0 0)), phase := .sending } := by decide

/-! ## C1, the integer codec -/

theorem test_encode_uint : encodeUint 2048 2 = .ok [0x00, 0x08] ∧ encodeUint 300 1 = .ok [0x2C]
    ∧ encodeUint 70000 2 = .ok [0x70, 0x11] ∧ encodeUint (-1) 4 = .ok [0xFF, 0xFF, 0xFF, 0xFF]
    ∧ encodeUint 0x12345678 4 = .ok [0x78, 0x56, 0x34, 0x12] ∧ encodeUint 256 1 = .ok [0x00]
    ∧ encodeUint 5 3 = .error (.refuse .intWidth) := by decide -- V1.1 to V1.7
theorem test_decode_uint : decodeUint [0x18, 0x05] = .ok 1304 ∧ decodeUint [0xFF, 0xFF, 0xFF, 0xFF] = .ok 4294967295 := by
  decide -- S11, V1.8
theorem test_decode_int_signed : decodeIntSigned [0xFF, 0xFF] = .ok (-1) ∧ decodeIntSigned [0x00, 0x80] = .ok (-32768)
    ∧ decodeIntSigned [0x7F] = .ok 127 ∧ decodeIntSigned [0x80] = .ok (-128)
    ∧ decodeIntSigned [0xFF, 0xFF, 0xFF, 0xFF] = .ok (-1) := by decide -- S1, S2, V1.9, V1.10
theorem test_encode_sign_magnitude : encodeSignMagnitude (-1000) 11 2 = .ok [0xE8, 0x0B]
    ∧ encodeSignMagnitude (-40000) 15 2 = .ok [0x40, 0x9C] ∧ encodeSignMagnitude (-5) 7 1 = .ok [0x85]
    ∧ encodeSignMagnitude 1 16 2 = .error (.refuse .signBitWidth) := by decide -- S3, V1.11, V1.12, V1.17
theorem test_decode_sign_magnitude : decodeSignMagnitude [0x85] 7 = .ok (-5) ∧ decodeSignMagnitude [0xFF, 0xFF] 10 = .ok (-1023)
    ∧ decodeSignMagnitude [0xFF, 0x03] 10 = .ok 1023 ∧ decodeSignMagnitude [0x00, 0x80] 15 = .ok 0 := by decide -- V1.13 to V1.16
theorem test_chk : chk [0xFE, 0x02, 0x05] = 0xFA ∧ chk [0xFD, 0x02, 0x00] = 0x00 := by decide -- V1.18, V1.19

/-! ## C2, the packet codec -/

theorem test_build : buildPing 1 = .ok [0xFF, 0xFF, 0x01, 0x02, 0x01, 0xFB]
    ∧ buildPing 0 = .ok [0xFF, 0xFF, 0x00, 0x02, 0x01, 0xFC] ∧ buildPing 0xFE = .ok [0xFF, 0xFF, 0xFE, 0x02, 0x01, 0xFE]
    ∧ buildRead 1 0x38 2 = .ok [0xFF, 0xFF, 0x01, 0x04, 0x02, 0x38, 0x02, 0xBE]
    ∧ buildWrite 1 0x2A [] = .ok [0xFF, 0xFF, 0x01, 0x03, 0x03, 0x2A, 0xCE]
    ∧ buildAction = .ok [0xFF, 0xFF, 0xFE, 0x02, 0x05, 0xFA]
    ∧ buildSyncWrite 0x2A 2 [] = .ok [0xFF, 0xFF, 0xFE, 0x04, 0x83, 0x2A, 0x02, 0x4E]
    ∧ buildSyncRead 0x38 2 [1, 2] = .ok [0xFF, 0xFF, 0xFE, 0x06, 0x82, 0x38, 0x02, 0x01, 0x02, 0x3C] := by
  decide -- S4, V2.1, V2.2, S6, V2.4, S8, V2.11, V2.13
theorem test_build_refuses : buildSyncWrite 0x2A 2 [(1, [0])] = .error (.refuse .syncWriteLength)
    ∧ buildPing 255 = .error (.refuse .idRange) ∧ buildRead 1 256 2 = .error (.refuse .byteRange)
    ∧ buildWrite 1 0 (List.replicate 253 0) = .error (.refuse .packetTooLong) := by decide +kernel -- V2.12, V2.15 to V2.17
theorem test_build_longest : (buildWrite 1 0 (List.replicate 252 0)).map (fun s => (s.length, s[3]?)) = .ok (259, some 0xFF) := by
  decide +kernel -- V2.18
theorem test_parse : parseResponse okReply = .ok ⟨1, 0, []⟩ ∧ parseResponse posReply = .ok ⟨1, 0, [0x18, 0x05]⟩
    ∧ parseResponse (okReply ++ [0x77, 0x77]) = .ok ⟨1, 0, []⟩
    ∧ parseResponse [0xFF, 0xFF, 0xFD, 0x02, 0x00, 0x00] = .ok ⟨0xFD, 0, []⟩ := by decide -- S9, S10, V3.8, V3.11
theorem test_parse_fails : parseResponse [0xFF, 0xFF, 0x01, 0x02, 0x00, 0xFD] = .error .invalidChecksum
    ∧ parseResponse [0xFF] = .error .invalidHeader ∧ parseResponse [0xFE, 0xFF, 0x01, 0x02, 0x00, 0xFC] = .error .invalidHeader
    ∧ parseResponse [0xFF, 0xFF, 0x01] = .error .incompletePacket
    ∧ parseResponse [0xFF, 0xFF, 0x01, 0x04, 0x00, 0x18] = .error .incompletePacket
    ∧ parseResponse [0xFF, 0xFF, 0x01, 0x01, 0x00] = .error .incompletePacket := by decide -- V3.1, V3.2, V3.4 to V3.7
theorem test_reframe : extractPacket ([0x00, 0x00] ++ okReply) = .complete okReply []
    ∧ extractPacket [0x01, 0xFF] = .incomplete [0xFF] ∧ extractPacket [0xFF, 0x01] = .incomplete []
    ∧ extractPacket [0xFF, 0xFF, 0x01, 0x04, 0x00] = .incomplete [0xFF, 0xFF, 0x01, 0x04, 0x00]
    ∧ extractPacket (0xFF :: okReply) = .complete [0xFF, 0xFF, 0xFF, 0x01, 0x02] [0x00, 0xFC]
    ∧ extractPacket ([0xFF, 0xFF, 0x00, 0x0A] ++ okReply) = .incomplete ([0xFF, 0xFF, 0x00, 0x0A] ++ okReply) := by
  decide -- S12, V4.2, V4.3, V4.5, V4.6, V4.8

/-! ## C3 and C4, the control table, the conversions, the status parser -/

theorem test_lookup : lookupRegister sts3215 "goal_position" = .ok ⟨42, 2, .position⟩
    ∧ lookupRegister sts3215 "Goal_Position" = .error (.err .unknownRegister) := by decide -- V5.1, V5.2
theorem test_position : enc "goal_position" (piOver 1) = .ok [0x00, 0x08] ∧ enc "goal_position" (piOver (-1)) = .ok [0x00, 0x88]
    ∧ enc "goal_position" (piOver 2) = .ok [0x00, 0x04] ∧ enc "goal_position" (ratio 1 1) = .ok [0x8C, 0x02]
    ∧ enc "goal_position" (steps (mkRat 1 2)) = .ok [0x01, 0x00] ∧ enc "goal_position" (steps (mkRat (-1) 2)) = .ok [0x01, 0x80]
    ∧ enc "goal_position" (steps (mkRat (-2) 5)) = .ok [0x00, 0x00] ∧ enc "goal_position" (steps 40000) = .ok [0x40, 0x9C] := by
  decide +kernel -- S13, S15, V5.3, V5.5 to V5.9
theorem test_position_decode : dec "present_position" [0x00, 0x08] = .ok (piOver 1)
    ∧ dec "present_position" [0xFF, 0xFF] = .ok (steps (-32767)) ∧ dec "present_position" [0x00, 0x80] = .ok (steps 0)
    ∧ dec "goal_position" [0x40, 0x9C] = .ok (steps (-7232)) ∧ dec "goal_position" [0x00] = .error (.refuse .decodeLength) := by
  decide +kernel -- S14, V5.9 to V5.11, V5.41
/-- R12's own examples; a tie of goal_position missed by 10^-120 on either side; and 3·10^30 less 10^30·π, whose nearest
integer is minus the first 30 decimals of π rounded, by hand from those decimals. -/
theorem test_round : enc "position_offset" (ratio 5 2) = .ok [0x03, 0x00] ∧ enc "position_offset" (ratio (-5) 2) = .ok [0x03, 0x08]
    ∧ enc "position_offset" (ratio (-2) 5) = .ok [0x00, 0x00]
    ∧ enc "goal_position" (.num (.exact ⟨-(1 / 10 ^ 120), mkRat 4095 4096⟩)) = .ok [0xFF, 0x07]
    ∧ enc "goal_position" (.num (.exact ⟨1 / 10 ^ 120, mkRat 4095 4096⟩)) = .ok [0x00, 0x08]
    ∧ enc "return_delay" (.num (.exact ⟨3 * 10 ^ 30, -(10 ^ 30)⟩)) = .ok [0x10] := by decide +kernel
/-- The wait of a read is bounded (R14): a transport that would take 500 ms answers after the 10 it was asked for. -/
theorem test_read_waits : (nextOf (step (awaiting (.ping 1) (.data [] 500)))).map State.now = some 10 := by decide
theorem test_speed : enc "goal_speed" (ratio 1 1) = .ok [0x0D, 0x00] ∧ enc "goal_speed" (speedSteps 100) = .ok [0x64, 0x00]
    ∧ enc "goal_speed" (speedSteps (-1)) = .ok [0xFF, 0xFF] ∧ dec "present_speed" [0x0D, 0x80] = .ok (speedSteps (-13)) := by
  decide +kernel -- V5.12 to V5.15
theorem test_load : dec "present_load" [0xE8, 0x83] = .ok (ratio 100 1) ∧ enc "present_load" (ratio 100 1) = .ok [0xE8, 0x03]
    ∧ dec "present_load" [0xE8, 0x87] = .ok (ratio (-100) 1) ∧ enc "present_load" (ratio (-50) 1) = .ok [0xF4, 0x05]
    ∧ enc "present_load" (ratio 1023 10) = .ok [0xFF, 0x03] ∧ dec "present_load" [0xFF, 0xFF] = .ok (ratio (-1023) 10) := by
  decide +kernel -- V5.16 to V5.20
theorem test_scale : dec "present_voltage" [0x78] = .ok (ratio 12 1) ∧ enc "present_voltage" (ratio 5 100) = .ok [0x01]
    ∧ enc "present_voltage" (ratio 15 100) = .ok [0x02] ∧ enc "max_torque" (ratio 1 2) = .ok [0xF4, 0x01]
    ∧ enc "max_torque" (ratio (-1) 1000) = .ok [0xFF, 0xFF] := by decide +kernel -- V5.21 to V5.25
theorem test_offset : enc "position_offset" (.int (-1000)) = .ok [0xE8, 0x0B] ∧ dec "position_offset" [0xE8, 0x0B] = .ok (.int (-1000))
    ∧ enc "position_offset" (.int 2047) = .ok [0xFF, 0x07] ∧ enc "position_offset" (.int (-2047)) = .ok [0xFF, 0x0F]
    ∧ enc "position_offset" (.int 2048) = .ok [0x00, 0x08] ∧ dec "position_offset" [0x00, 0x08] = .ok (.int 0)
    ∧ dec "position_offset" [0xFF, 0xFF] = .ok (.int (-2047)) := by decide +kernel -- S16, S17, V5.26 to V5.28
theorem test_named_values : enc "torque_enable" (.flag true) = .ok [0x01] ∧ enc "torque_enable" (.flag false) = .ok [0x00]
    ∧ dec "torque_enable" [0x02] = .ok (.flag true) ∧ enc "torque_enable" (ratio 1 1) = .error (.refuse .valueKind)
    ∧ enc "mode" (.mode .velocity) = .ok [0x01] ∧ enc "mode" (.mode .step) = .ok [0x03] ∧ dec "mode" [0x07] = .ok (.mode .unknown)
    ∧ enc "mode" (.mode .unknown) = .error (.refuse .modeUnknown) ∧ enc "baud_rate" (.baud .b57600) = .ok [0x06]
    ∧ dec "baud_rate" [0x04] = .ok (.baud .b115200) ∧ dec "baud_rate" [0x09] = .ok (.baud .b1000000) := by
  decide +kernel -- V5.29 to V5.36
theorem test_plain_values : enc "return_delay" (.int 256) = .ok [0x00] ∧ enc "return_delay" (.int (-1)) = .ok [0xFF]
    ∧ enc "return_delay" (ratio 5 2) = .ok [0x03] ∧ dec "present_current" [0x10, 0x01] = .ok (.int 272)
    ∧ encodeRaw sts3215 "present_current" (.int 70000) = .ok [0x70, 0x11] ∧ decodeRaw [0x18, 0x05] = .ok (.int 1304) := by
  decide +kernel -- V5.37 to V5.40
theorem test_status : parseStatus 0x25 = ⟨[.voltageError, .temperatureError, .overloadError], false⟩
    ∧ parseStatus 0x10 = ⟨[], true⟩ ∧ hasError 0x10 = false ∧ hasError 0x01 = true ∧ parseStatus 0xC0 = ⟨[], false⟩
    ∧ parseStatus 0xFF = ⟨[.voltageError, .sensorError, .temperatureError, .currentError, .overloadError], true⟩ := by
  decide -- S18, V6.2, V6.3, V6.7, V6.8

/-! ## C5, one step at a time -/

theorem test_ping_sends : calls (sending (.ping 1) (.ok 0)) = some [.write [0xFF, 0xFF, 0x01, 0x02, 0x01, 0xFB]] := by
  decide -- V7.1
theorem test_ping_reply : returns (awaiting (.ping 1) (.data okReply 0)) = some [.ok (.info okInfo)] := by decide -- V7.1
theorem test_ping_timeout : returns { awaiting (.ping 1) (.data [] 10) with now := 90 } = some [.err .noResponse] := by
  decide -- V7.2, its tenth read
theorem test_ping_other_id : returns (awaiting (.ping 1) (.data [0xFF, 0xFF, 0x07, 0x02, 0x00, 0xF6] 0))
    = some [.ok (.info ⟨7, 0, [], false⟩)] := by decide -- V7.7
theorem test_read_sends : calls (sending (.read 1 (.named "present_position" .converted)) (.ok 0))
    = some [.write [0xFF, 0xFF, 0x01, 0x04, 0x02, 0x38, 0x02, 0xBE]] := by decide -- V7.8
theorem test_read_converted : returns (awaiting (.read 1 (.named "present_position" .converted)) (.data posReply 0))
    = some [.ok (.reading (.value (steps 1304)) okInfo)] := by decide +kernel -- V7.8
theorem test_read_raw : returns (awaiting (.read 1 (.named "present_position" .raw)) (.data posReply 0))
    = some [.ok (.reading (.value (.int 1304)) okInfo)] := by decide -- V7.9
theorem test_read_length : (nextOf (step (awaiting (.read 1 (.named "present_position" .converted))
      (.data [0xFF, 0xFF, 0x01, 0x03, 0x00, 0x18, 0xE3] 0)))).map State.faults = some [.replyLengthMismatch] := by
  decide -- V7.10
theorem test_read_unknown : returns (caller (.read 1 (.named "nonexistent" .converted))) = some [.err .unknownRegister] := by
  decide -- V7.11
theorem test_write_sends : calls (sending (.write 1 (.named "goal_position" (piOver 1) .converted) false) (.ok 0))
    = some [.write [0xFF, 0xFF, 0x01, 0x05, 0x03, 0x2A, 0x00, 0x08, 0xC4]] := by decide +kernel -- V7.13
theorem test_write_drains : returns { draining (.write 1 (.addressed 0x2A [0, 8]) false) (.data [] 10) with now := 90 }
    = some [.ok .unit] := by decide -- V7.13, its tenth read
theorem test_write_surface : returns { draining (.write 1 (.addressed 0x2A [0, 8]) false) (.data [] 10) with
      now := 90, drainPolicy := .surface } = some [.err .noResponse] := by decide -- V7.14
theorem test_regWrite_sends : calls (sending (.regWrite 1 (.named "goal_position" (piOver 2))) (.ok 0))
    = some [.write [0xFF, 0xFF, 0x01, 0x05, 0x04, 0x2A, 0x00, 0x04, 0xC7]] := by decide +kernel -- V7.17
theorem test_regWrite_reply : returns (awaiting (.regWrite 1 (.addressed 0x2A [0, 4]))
    (.data [0xFF, 0xFF, 0x01, 0x02, 0x10, 0xEC] 0)) = some [.ok (.info ⟨1, 0x10, [], true⟩)] := by decide -- V7.17
theorem test_action : returns (sending (.action 0xFE) (.ok 0)) = some [.ok .unit]
    ∧ calls (sending (.action 0xFE) (.ok 0)) = some [.write [0xFF, 0xFF, 0xFE, 0x02, 0x05, 0xFA]] := by decide -- V7.18
/-- ACTION to one servo is the builder's alone (R145, V2.7): the transactor sends nothing (log 12). -/
theorem test_action_unicast : buildAction 1 = .ok [0xFF, 0xFF, 0x01, 0x02, 0x05, 0xF7]
    ∧ returns (caller (.action 1)) = some [.refused .idRange] ∧ calls (caller (.action 1)) = some [] := by decide
theorem test_recovery : calls (sending (.recovery 1) (.ok 0)) = some [.write [0xFF, 0xFF, 0x01, 0x02, 0x06, 0xF6]]
    ∧ returns (awaiting (.recovery 1) (.data okReply 0)) = some [.ok (.info okInfo)] := by decide -- V7.19
theorem test_reset : calls (sending (.reset 1) (.ok 0)) = some [.write [0xFF, 0xFF, 0x01, 0x02, 0x0A, 0xF2]]
    ∧ returns (awaiting (.reset 1) (.data okReply 0)) = some [.ok (.info okInfo)] := by decide -- V7.20
theorem test_syncWrite : calls (sending
      (.syncWrite (.named "goal_position" [(1, piOver 1), (2, piOver (-1))] .converted)) (.ok 0))
    = some [.write [0xFF, 0xFF, 0xFE, 0x0A, 0x83, 0x2A, 0x02, 0x01, 0x00, 0x08, 0x02, 0x00, 0x88, 0xB5]] := by
  decide +kernel -- V7.21
theorem test_syncWrite_ends : returns (sending (.syncWrite (.addressed 0x2A 2 [])) (.ok 0)) = some [.ok .unit] := by
  decide -- V7.21
theorem test_syncRead_last : returns (atSlot (.syncRead [1, 2] (.named "present_position" .converted)) 1
      [(.value (piOver 1), okInfo)] (.data posReply2 0))
    = some [.ok (.readings [(.value (piOver 1), okInfo), (.value (piOver 2), ⟨2, 0, [], false⟩)])] := by
  decide +kernel -- V7.22
theorem test_syncRead_order : phaseAfter (awaiting (.syncRead [1, 2] (.named "present_position" .converted)) (.data posReply2 0))
    = some .draining := by decide -- V7.23, its first reply
theorem test_transport_errors : returns (sending (.ping 1) (.error (.other 3) 0)) = some [.err (.transport (.other 3))]
    ∧ returns (awaiting (.ping 1) (.error .timeout 0)) = some [.err (.transport .timeout)] := by decide -- V7.31, V7.6
theorem test_refusals : returns (caller (.ping 0xFE)) = some [.refused .broadcastNeedsReply]
    ∧ returns (caller (.syncRead [1, 0xFE] (.named "present_position" .raw))) = some [.refused .broadcastNeedsReply]
    ∧ returns { caller (.ping 1) with transport := .closed } = some [.refused .closed]
    ∧ returns { awaiting (.ping 1) (.data okReply 0) with interrupts := [some (.call (.ping 1))] } = some [.refused .busy] := by
  decide -- V7.27 to V7.30

/-! ## Witnesses: every hypothesis met, at the ends of its range -/

/-- One well-formed instruction of each kind, at the ends of their ranges. -/
def samples : List Instr :=
  [.ping 253, .read 0 (.named "present_position" .converted), .write 253 (.named "torque_enable" (.flag true) .converted) true,
   .write 1 (.addressed 255 [255]) false, .regWrite 1 (.named "mode" (.mode .step)), .action 254, .recovery 0, .reset 253,
   .syncRead [253, 0] (.addressed 255 255), .syncRead [] (.named "id" .raw), .syncWrite (.addressed 0x2A 2 [(254, [0, 8])])]

/-- Those that return status info. -/
def infoSamples : List Instr :=
  [.ping 253, .recovery 0, .reset 253, .regWrite 1 (.addressed 0x2A [0, 8]), .write 1 (.addressed 0x2A []) true]

/-- The packet of a PING to servo 1. -/
def pingPacket : List Byte := [0xFF, 0xFF, 0x01, 0x02, 0x01, 0xFB]

/-- A state that meets `receives` with the reply `r` of one chunk. -/
theorem receives_packet (s : State) (d : Nat) (c : List Byte) (r : Except Error Response)
    (hr : s.nextRead (min 10 (d - s.now)) = .data c 0) (hx : extractPacket (s.rxBuf ++ c) = .complete c []) (hp : parseResponse c = r) :
    s.receives d 0 [] (.packet r) :=
  ⟨c, hr, .inl ⟨c, hx, by rw [hp]⟩⟩

/-- A state that meets `receives` when the deadline passes exactly. -/
theorem receives_nothing (i : Instr) : ({ awaiting i (.data [] 10) with now := 90 } : State).receives 100 10 [] .noResponse :=
  ⟨[], rfl, .inr ⟨rfl, Nat.le_refl 100, rfl⟩⟩

theorem witness_EncodeUintIsLittleEndianTruncation : ((1 : Nat) = 1 ∨ 1 = 2 ∨ 1 = 4) ∧ 0 < 1
    ∧ ((4 : Nat) = 1 ∨ 4 = 2 ∨ 4 = 4) ∧ 3 < 4 ∧ ¬((3 : Nat) = 1 ∨ 3 = 2 ∨ 3 = 4) := by decide
theorem witness_UnsignedCodecRoundTrips : ((2 : Nat) = 1 ∨ 2 = 2 ∨ 2 = 4)
    ∧ (([0xFF, 0xFF, 0xFF, 0xFF] : List Byte).length = 1 ∨ ([0xFF, 0xFF, 0xFF, 0xFF] : List Byte).length = 2
      ∨ ([0xFF, 0xFF, 0xFF, 0xFF] : List Byte).length = 4)
    ∧ ¬(([] : List Byte).length = 1 ∨ ([] : List Byte).length = 2 ∨ ([] : List Byte).length = 4) := by decide
theorem witness_SignMagnitudeRoundTrips : ((2 : Nat) = 1 ∨ 2 = 2 ∨ 2 = 4) ∧ 15 < 8 * 2 ∧ (-32767 : Int).natAbs ≤ 2 ^ 15 - 1
    ∧ (([0xFF, 0xFF] : List Byte).length = 1 ∨ ([0xFF, 0xFF] : List Byte).length = 2 ∨ ([0xFF, 0xFF] : List Byte).length = 4)
    ∧ 15 < 8 * ([0xFF, 0xFF] : List Byte).length ∧ 8 * 2 ≤ 16 ∧ 8 * ([0xFF, 0xFF] : List Byte).length ≤ 16
    ∧ ¬(([] : List Byte).length = 1 ∨ ([] : List Byte).length = 2 ∨ ([] : List Byte).length = 4) := by decide
theorem witness_DecodeIntSignedIsTwosComplement : (([0x00, 0x80] : List Byte).length = 1
      ∨ ([0x00, 0x80] : List Byte).length = 2 ∨ ([0x00, 0x80] : List Byte).length = 4)
    ∧ ¬(([] : List Byte).length = 1 ∨ ([] : List Byte).length = 2 ∨ ([] : List Byte).length = 4)
    ∧ ¬(([0, 0, 0] : List Byte).length = 1 ∨ ([0, 0, 0] : List Byte).length = 2 ∨ ([0, 0, 0] : List Byte).length = 4) := by
  decide
theorem witness_PacketHasTheInstructionLayout : packet 254 0x01 [] = .ok [0xFF, 0xFF, 0xFE, 0x02, 0x01, 0xFE]
    ∧ packet 0 0x02 [0, 0] = .ok [0xFF, 0xFF, 0x00, 0x04, 0x02, 0x00, 0x00, 0xF9] := by decide
theorem witness_EveryBuiltPacketIsChecksummed : samples.all (fun i => (encode p0 i).isOk) = true := by decide +kernel
theorem witness_EachInstructionHasItsParameterLayout :
    encode p0 (.ping 1) = .ok pingPacket
    ∧ encode p0 (.action 254) = .ok [0xFF, 0xFF, 0xFE, 0x02, 0x05, 0xFA]
    ∧ encode p0 (.recovery 1) = .ok [0xFF, 0xFF, 0x01, 0x02, 0x06, 0xF6]
    ∧ encode p0 (.reset 1) = .ok [0xFF, 0xFF, 0x01, 0x02, 0x0A, 0xF2]
    ∧ encode p0 (.read 0 (.addressed 0 0)) = .ok [0xFF, 0xFF, 0x00, 0x04, 0x02, 0x00, 0x00, 0xF9]
    ∧ encode p0 (.write 1 (.addressed 0x2A []) true) = .ok [0xFF, 0xFF, 0x01, 0x03, 0x03, 0x2A, 0xCE]
    ∧ encode p0 (.regWrite 1 (.addressed 0x2A [0, 8])) = .ok [0xFF, 0xFF, 0x01, 0x05, 0x04, 0x2A, 0x00, 0x08, 0xC3]
    ∧ encode p0 (.syncRead [] (.addressed 0x38 2)) = .ok [0xFF, 0xFF, 0xFE, 0x04, 0x82, 0x38, 0x02, 0x41]
    ∧ encode p0 (.syncWrite (.addressed 0x2A 2 [])) = .ok [0xFF, 0xFF, 0xFE, 0x04, 0x83, 0x2A, 0x02, 0x4E] := by decide
theorem witness_BuildersRefuseByName : ¬((0 : Int) ≤ 255 ∧ (255 : Int) ≤ 254) ∧ ¬((0 : Int) ≤ -1 ∧ (-1 : Int) ≤ 254)
    ∧ ((0 : Int) ≤ 254 ∧ (254 : Int) ≤ 254) ∧ (∃ q ∈ [(256 : Int)], ¬(0 ≤ q ∧ q ≤ 255))
    ∧ (∀ q ∈ List.replicate 254 (255 : Int), 0 ≤ q ∧ q ≤ 255) ∧ 253 < (List.replicate 254 (255 : Int)).length
    ∧ ¬((0 : Int) ≤ 256 ∧ (256 : Int) ≤ 255) ∧ ((0 : Int) ≤ 255 ∧ (255 : Int) ≤ 255)
    ∧ (∃ id ∈ [(1 : Int), 255], ¬(0 ≤ id ∧ id ≤ 254))
    ∧ (∀ q ∈ [((0 : Int), [(8 : Int), 0])], (0 ≤ q.1 ∧ q.1 ≤ 254) ∧ (q.2.length : Int) = 2)
    ∧ ((([1] : List Int).length : Int) ≠ 2) := by decide +kernel
theorem witness_DecodeInvertsEncode :
    (Instr.write 254 (.addressed 255 (List.replicate 252 255)) true).wellFormed p0 = true
    ∧ (Instr.write 254 (.addressed 255 (List.replicate 252 255)) true).isPacketForm = true
    ∧ (Instr.syncWrite (.addressed 0x2A 2 [(1, [0, 8]), (254, [0, 0x88])])).wellFormed p0 = true
    ∧ (Instr.syncWrite (.addressed 0x2A 2 [(1, [0, 8]), (254, [0, 0x88])])).isPacketForm = true := by decide +kernel
theorem witness_DecodeGivesTheExpansion : encode p0 (.read 1 (.named "present_position" .raw))
      = .ok [0xFF, 0xFF, 0x01, 0x04, 0x02, 0x38, 0x02, 0xBE]
    ∧ ("mode", ⟨33, 1, .mode⟩) ∈ p0.table.registers
    ∧ encodeByName p0 "mode" .converted (.mode .step) = .ok [0x03]
    ∧ encodeByName p0 "mode" .converted (.mode .unknown) = .error (.refuse .modeUnknown)
    ∧ encodeByName p0 "mode" .raw (.int 255) = .ok [0xFF] ∧ encodeByName p0 "mode" .raw (.flag true) = .error (.refuse .valueKind)
    ∧ (∀ q ∈ [(((1 : Int), UserValue.mode .step), ([0x03] : List Byte))], encodeByName p0 "mode" .converted q.1.2 = .ok q.2)
    ∧ ∀ q ∈ [((1 : Int), UserValue.mode .step)], ∃ s, encodeByName p0 "mode" .converted q.2 = .ok s := by
  refine ⟨by decide, by decide +kernel, by decide +kernel, by decide +kernel, by decide +kernel, by decide +kernel, by decide +kernel,
    fun q hq => ⟨[0x03], ?_⟩⟩
  obtain rfl := List.mem_singleton.1 hq
  decide +kernel
theorem witness_EncodeInvertsDecode : decode [0xFF, 0xFF, 0xFE, 0x04, 0x83, 0x2A, 0x02, 0x4E]
    = .ok (.syncWrite (.addressed 0x2A 2 [])) := by decide
theorem witness_ParseResponseAcceptsExactlyValidFrames : (List.replicate 253 (0 : Byte)).length ≤ 253
    ∧ parseResponse okReply = .ok ⟨1, 0, []⟩ := by decide +kernel
theorem witness_ReframerKeepsWhatMayComplete : extractPacket [0x01, 0xFF] = .incomplete [0xFF]
    ∧ extractPacket [0xFF, 0x01] = .incomplete [] := by decide
theorem witness_ReframerSplitsOnePacketOff : extractPacket (0x00 :: okReply ++ [0xFF]) = .complete okReply [0xFF]
    ∧ extractPacket [0xFF, 0xFF, 0x01, 0x00] = .complete [0xFF, 0xFF, 0x01, 0x00] []
    ∧ parseResponse [0xFF, 0xFF, 0x01, 0x00] = .error .incompletePacket := by decide
theorem witness_ReframerRecoversTheStream :
    (∀ q ∈ [([(0x00 : Byte), 0xFE], okReply), ([], posReply)], 0xFF#8 ∉ q.1 ∧ q.2.take 2 = [0xFF#8, 0xFF#8]
      ∧ ∃ len, q.2[3]? = some len ∧ q.2.length = len.toNat + 4) ∧ 0xFF#8 ∉ [(0x01 : Byte)] := by
  refine ⟨?_, by decide⟩
  simp only [List.mem_cons, List.not_mem_nil, or_false]
  rintro q (rfl | rfl)
  · exact ⟨by decide, by decide, 2, by decide, by decide⟩
  · exact ⟨by decide, by decide, 4, by decide, by decide⟩
theorem witness_LookupFindsExactlyTheTable : ("goal_position", ⟨42, 2, .position⟩) ∈ (tableOf .sts3215).registers
    ∧ (∀ d, ("Goal_Position", d) ∉ (tableOf .sts3215).registers) ∧ State.reset.ready
    ∧ admitIds (.read 0 (.named "Goal_Position" .raw)) = none ∧ admitIds (.write 253 (.named "Goal_Position" (.int 0) .raw) true) = none
    ∧ admitIds (.regWrite 1 (.named "Goal_Position" (.int 0))) = none ∧ admitIds (.syncRead [] (.named "Goal_Position" .raw)) = none
    ∧ admitIds (.syncWrite (.named "Goal_Position" [] .raw)) = none := by
  refine ⟨by decide +kernel, fun d h => ?_, by decide, by decide, by decide, by decide, by decide, by decide⟩
  have hn : "Goal_Position" ∉ (tableOf .sts3215).registers.map Prod.fst := by decide
  exact hn (List.mem_map_of_mem (f := Prod.fst) h)
theorem witness_RawToModeIsTotal : 3 < 4 ∧ 7 < 8 := by decide
theorem witness_ConvertedEncodeRefusesWrongKinds : ("mode", ⟨33, 1, .mode⟩) ∈ (tableOf .sts3215).registers
    ∧ valueAccepted ⟨.sts3215, none⟩ .mode (.mode .step) = true ∧ valueAccepted ⟨.sts3215, some 9⟩ .mode (.mode .unknown) = true
    ∧ valueAccepted ⟨.sts3215, none⟩ .mode (.mode .unknown) = false ∧ valueAccepted ⟨.sts3215, none⟩ .mode (.int 0) = false := by
  decide +kernel
theorem witness_SignBitsOfTheConversions : ([0x00, 0x88] : List Byte).length = 2
    ∧ decodeSignMagnitude [0x00, 0x88] 15 = .ok (-2048) ∧ decodeSignMagnitude [0xE8, 0x87] 10 = .ok (-1000)
    ∧ decodeSignMagnitude [0xE8, 0x0B] 11 = .ok (-1000)
    ∧ ("present_load", ⟨60, 2, .loadSigned⟩) ∈ (tableOf .sts3215).registers
    ∧ numericValue (.num (.named 0)) = some (.named 0) := by decide +kernel
theorem witness_RawReadsAreUnsigned : ("present_load", ⟨60, 2, .loadSigned⟩) ∈ p0.table.registers
    ∧ ([0xFF, 0xFF] : List Byte).length = 2 ∧ (∀ d, ("Goal_Position", d) ∉ p0.table.registers)
    ∧ (∀ z, encodeUint z 2 = .ok (bytesLE (z % (2 ^ (8 * 2) : Nat)).toNat 2))
    ∧ (∀ z, UserValue.flag true ≠ .int z)
    ∧ ∃ e ∈ [((1 : Int), UserValue.flag true)], ∀ z, e.2 ≠ .int z := by
  refine ⟨by decide +kernel, by decide, fun d h => ?_, fun z => rfl, fun z h => (nomatch h), _, List.mem_cons_self,
    fun z h => (nomatch h)⟩
  have hn : "Goal_Position" ∉ p0.table.registers.map Prod.fst := by decide
  exact hn (List.mem_map_of_mem (f := Prod.fst) h)
/-- Ties on both sides of 0, and two reals that are each other's negative. -/
theorem witness_RoundingIsNearestTiesAway :
    |realOfCut (cutOf ⟨1 / 2, 0⟩) - ((1 : Int) : ℝ)| = 1 / 2 ∧ |realOfCut (cutOf ⟨-1 / 2, 0⟩) - ((0 : Int) : ℝ)| = 1 / 2
    ∧ realOfCut (cutOf ⟨-1 / 2, 0⟩) = -realOfCut (cutOf ⟨1 / 2, 0⟩) := by
  simp only [Laws.realOfCut_cutOf, realOf]
  norm_num [abs_of_neg]
theorem witness_RoundedQuotientsAreExact : (0 : Rat) < mkRat 2 4096 := by decide +kernel
theorem witness_EncodedBytesAreTheRoundedQuotient : ("goal_position", ⟨42, 2, .position⟩) ∈ (tableOf .sts3215).registers
    ∧ numericValue (.num (.named 7)) = some (.named 7)
    ∧ conversionFactor (tableOf .sts3215) .position = some sts3215.positionScale
    ∧ ("lock", ⟨55, 1, .bool⟩) ∈ (tableOf .sts3215).registers ∧ ("mode", ⟨33, 1, .mode⟩) ∈ (tableOf .sts3215).registers
    ∧ (ServoMode.step, 3) ∈ [(ServoMode.position, 0), (.velocity, 1), (.pwm, 2), (.step, 3)]
    ∧ (some 9 : Option Byte) = some 9 ∧ (none : Option Byte) = none
    ∧ ("baud_rate", ⟨6, 1, .baudRate⟩) ∈ (tableOf .sts3215).registers ∧ bitsPerSecond .b38400 = 38400
    ∧ bitsPerSecond .b1000000 = 1000000 := by
  decide +kernel
theorem witness_NumericConversionsRoundTrip : ("id", ⟨5, 1, .none⟩) ∈ (tableOf .sts3215).registers
    ∧ numericValue (.int 255) = some (.exact (piInt 255)) ∧ conversionFactor (tableOf .sts3215) .none = some oneStep
    ∧ (rawRange 1 .none).1 ≤ roundReal (userRealOf (.exact (piInt 255)) / realOf oneStep)
    ∧ roundReal (userRealOf (.exact (piInt 255)) / realOf oneStep) ≤ (rawRange 1 .none).2 := by
  have h : roundReal (userRealOf (.exact (piInt 255)) / realOf oneStep) = 255 := by
    simp only [userRealOf, oneStep, Laws.realOf_piInt, roundReal]
    norm_num [Int.floor_eq_iff]
  refine ⟨by decide +kernel, rfl, rfl, ?_, ?_⟩ <;> rw [h] <;> decide
theorem witness_NamedValuesRoundTrip : ("lock", ⟨55, 1, .bool⟩) ∈ (tableOf .sts3215).registers
    ∧ ("baud_rate", ⟨6, 1, .baudRate⟩) ∈ (tableOf .sts3215).registers ∧ ("mode", ⟨33, 1, .mode⟩) ∈ (tableOf .sts3215).registers
    ∧ ServoMode.step ≠ .unknown ∧ ([0x09] : List Byte).length = 1 ∧ ([] : List Byte).length ≠ 1 := by decide +kernel
theorem witness_StepRunsTheDecodedInstruction : State.reset.phase = .idle ∧ decode pingPacket = .ok (.ping 1)
    ∧ (awaiting (.ping 1) (.data [] 0)).phase ≠ .idle ∧ (awaiting (.ping 1) (.data [] 0)).op = some (.ping 1)
    ∧ (awaiting (.ping 1) (.data [] 0)).interrupts = [] ∧ State.reset.requests = []
    ∧ ({ State.reset with requests := [.pause 5] } : State).phase = .idle := by decide
theorem witness_AdmittedRequestStartsSending : State.reset.ready
    ∧ samples.all (fun i => admitIds i == none && (encode State.reset.params i).isOk) = true := by decide +kernel
theorem witness_AdmissionRefusesInOrder : ({ State.reset with transport := .closed } : State).transport = .closed
    ∧ (awaiting (.ping 1) (.data [] 0)).op ≠ some (.ping 2) ∧ State.reset.ready
    ∧ unicastId (.reset 255) = some 255 ∧ ¬((0 : Int) ≤ 255 ∧ (255 : Int) ≤ 254) ∧ unicastId (.ping 254) = some 254 ∧ (253 : Int) ≠ 0xFE
    ∧ (254 : Int) ∈ [1, 254] ∧ (∃ e ∈ [((255 : Int), UserValue.int 0)], ¬(0 ≤ e.1 ∧ e.1 ≤ 254))
    ∧ (∃ e ∈ [((-1 : Int), ([] : List Int))], ¬(0 ≤ e.1 ∧ e.1 ≤ 254)) := by
  refine ⟨rfl, by decide, by decide, rfl, by decide, rfl, by decide, by decide, ⟨_, List.mem_cons_self, by decide⟩,
    ⟨_, List.mem_cons_self, by decide⟩⟩
theorem witness_EagerFailuresSendNothing : State.reset.ready
    ∧ encode State.reset.params (.read 1 (.named "nonexistent" .raw)) = .error (.err .unknownRegister)
    ∧ admitIds (.read 1 (.named "nonexistent" .raw)) = none
    ∧ encode State.reset.params (.read 1 (.addressed 256 2)) = .error (.refuse .byteRange)
    ∧ admitIds (.read 1 (.addressed 256 2)) = none := by decide
theorem witness_TransportErrorsAreReturnedVerbatim : (sending (.ping 1) (.error (.other 3) 5)).op = some (.ping 1)
    ∧ (sending (.ping 1) (.error (.other 3) 5)).phase = .sending ∧ encode State.reset.params (.ping 1) = .ok pingPacket
    ∧ (sending (.ping 1) (.error (.other 3) 5)).nextWrite = .error (.other 3) 5
    ∧ (awaiting (.ping 1) (.error .timeout 50)).awaits (.ping 1) 100
    ∧ (awaiting (.ping 1) (.error .timeout 50)).nextRead (min 10 (100 - 0)) = .error .timeout 10 := by decide
theorem witness_PacketWrittenThenReplyIsRead :
    (∀ i ∈ .read 0 (.addressed 0 0) :: .write 1 (.addressed 0x2A []) false :: .syncRead [1] (.addressed 0 0) :: infoSamples,
      (sending i (.ok 7)).op = some i ∧ (sending i (.ok 7)).phase = .sending ∧ (encode (sending i (.ok 7)).params i).isOk = true
        ∧ (sending i (.ok 7)).nextWrite = .ok 7) ∧ (∀ i ∈ infoSamples, returnsInfo i = true) ∧ ([1] : List Int) ≠ [] := by
  decide +kernel
theorem witness_ActionIsFireAndForget : State.reset.ready ∧ (sending (.action 0xFE) (.ok 7)).op = some (.action 0xFE)
    ∧ (sending (.action 0xFE) (.ok 7)).phase = .sending ∧ (sending (.action 0xFE) (.ok 7)).nextWrite = .ok 7
    ∧ (sending (.action 0xFE) (.error .timeout 7)).nextWrite = .error .timeout 7 ∧ (sending (.action 0xFE) (.ok 7)).Inv := by
  refine ⟨by decide, by decide, by decide, by decide, by decide, ?_⟩
  constructor <;> simp [sending, State.reset, admitIds, Config.broadcastId, State.receiving]
  exact ⟨[0xFF, 0xFF, 0xFE, 0x02, 0x05, 0xFA], by decide⟩
theorem witness_BroadcastsEndOnceWritten :
    ∀ i ∈ [Instr.action 0xFE, .syncWrite (.addressed 0x2A 2 [(254, [0, 8])]), .syncRead [] (.addressed 0x38 2)],
      (sending i (.ok 7)).op = some i ∧ (sending i (.ok 7)).phase = .sending ∧ (encode (sending i (.ok 7)).params i).isOk = true
        ∧ (sending i (.ok 7)).nextWrite = .ok 7 := by decide
theorem witness_IncompleteChunkIsKept : ({ awaiting (.ping 1) (.data [0xFF] 9) with now := 90 } : State).awaits (.ping 1) 100
    ∧ ({ awaiting (.ping 1) (.data [0xFF] 9) with now := 90 } : State).nextRead (min 10 (100 - 90)) = .data [0xFF] 9
    ∧ extractPacket [0xFF] = .incomplete [0xFF] ∧ 90 + 9 < 100 := by decide
theorem witness_StatusInfoIsReturned : (∀ i ∈ infoSamples, returnsInfo i = true ∧ (awaiting i (.data okReply 0)).awaits i 100)
    ∧ ∀ i, (awaiting i (.data okReply 0)).receives 100 0 [] (.packet (.ok ⟨1, 0, []⟩)) :=
  ⟨by decide, fun i => receives_packet _ _ _ _ rfl (by simp only [awaiting]; decide) (by decide)⟩
theorem witness_FailedReplyIsReturned : returnsInfo (.ping 1) = true
    ∧ (awaiting (.ping 1) (.data [0xFF, 0xFF, 0x01, 0x01, 0x00] 0)).awaits (.ping 1) 100
    ∧ (awaiting (.ping 1) (.data [0xFF, 0xFF, 0x01, 0x01, 0x00] 0)).receives 100 0 [] (.packet (.error .incompletePacket))
    ∧ ({ awaiting (.read 1 (.addressed 0 0)) (.data [] 10) with now := 90 } : State).awaits (.read 1 (.addressed 0 0)) 100
    ∧ ({ awaiting (.read 1 (.addressed 0 0)) (.data [] 10) with now := 90 } : State).receives 100 10 [] .noResponse :=
  ⟨rfl, by decide, receives_packet _ _ _ _ rfl (by decide) (by decide), by decide, receives_nothing _⟩
theorem witness_ReadReturnsTheValue :
    (awaiting (.read 1 (.named "present_position" .converted)) (.data posReply 0)).awaits
      (.read 1 (.named "present_position" .converted)) 100
    ∧ (awaiting (.read 1 (.named "present_position" .converted)) (.data posReply 0)).receives 100 0 []
        (.packet (.ok ⟨1, 0, [0x18, 0x05]⟩))
    ∧ ("present_position", ⟨56, 2, .position⟩) ∈ (tableOf .sts3215).registers
    ∧ (awaiting (.read 1 (.addressed 0x38 2)) (.data posReply 0)).awaits (.read 1 (.addressed 0x38 2)) 100
    ∧ (awaiting (.read 1 (.addressed 0x38 2)) (.data posReply 0)).receives 100 0 [] (.packet (.ok ⟨1, 0, [0x18, 0x05]⟩))
    ∧ ((([0x18, 0x05] : List Byte).length : Int) = 2) :=
  ⟨by decide, receives_packet _ _ _ _ rfl (by decide) (by decide), by decide +kernel, by decide,
    receives_packet _ _ _ _ rfl (by decide) (by decide), by decide⟩
theorem witness_ReadOfWrongLengthFaults :
    (awaiting (.read 1 (.named "id" .raw)) (.data okReply 0)).awaits (.read 1 (.named "id" .raw)) 100
    ∧ (awaiting (.read 1 (.named "id" .raw)) (.data okReply 0)).receives 100 0 [] (.packet (.ok ⟨1, 0, []⟩))
    ∧ ("id", ⟨5, 1, .none⟩) ∈ (tableOf .sts3215).registers ∧ ([] : List Byte).length ≠ 1
    ∧ (awaiting (.read 1 (.addressed 0 1)) (.data okReply 0)).awaits (.read 1 (.addressed 0 1)) 100
    ∧ (awaiting (.read 1 (.addressed 0 1)) (.data okReply 0)).receives 100 0 [] (.packet (.ok ⟨1, 0, []⟩))
    ∧ (([] : List Byte).length : Int) ≠ 1 :=
  ⟨by decide, receives_packet _ _ _ _ rfl (by decide) (by decide), by decide +kernel, by decide, by decide,
    receives_packet _ _ _ _ rfl (by decide) (by decide), by decide⟩
theorem witness_DrainedWriteDiscardsTheReply :
    (draining (.write 1 (.addressed 0 []) false) (.data okReply 0)).awaits (.write 1 (.addressed 0 []) false) 100
    ∧ (draining (.write 1 (.addressed 0 []) false) (.data okReply 0)).receives 100 0 [] (.packet (.ok ⟨1, 0, []⟩))
    ∧ (draining (.write 1 (.addressed 0 []) false) (.data [0xFF, 0xFF, 0x01, 0x01, 0x00] 0)).receives 100 0 []
        (.packet (.error .incompletePacket))
    ∧ ({ draining (.write 1 (.addressed 0 []) false) (.data [] 10) with now := 90 } : State).receives 100 10 [] .noResponse :=
  ⟨by decide, receives_packet _ _ _ _ rfl (by decide) (by decide), receives_packet _ _ _ _ rfl (by decide) (by decide),
    [], rfl, .inr ⟨rfl, by decide, rfl⟩⟩
theorem witness_SyncReadSlotSucceeds :
    (awaiting (.syncRead [1, 2] (.addressed 0x38 2)) (.data posReply 0)).awaits (.syncRead [1, 2] (.addressed 0x38 2)) 100
    ∧ (awaiting (.syncRead [1, 2] (.addressed 0x38 2)) (.data posReply 0)).failed = false
    ∧ (awaiting (.syncRead [1, 2] (.addressed 0x38 2)) (.data posReply 0)).receives 100 0 []
        (.packet (.ok ⟨1, 0, [0x18, 0x05]⟩))
    ∧ ([1, 2] : List Int)[0]? = some (((1 : Byte).toNat : Nat) : Int) ∧ 0 + 1 < ([1, 2] : List Int).length
    ∧ slotGives p0 (.addressed 0x38 2) [0x18, 0x05] (.params [0x18, 0x05])
    ∧ (atSlot (.syncRead [1, 2] (.addressed 0x38 2)) 1 [] (.data posReply2 0)).receives 100 0 []
        (.packet (.ok ⟨2, 0, [0x00, 0x04]⟩))
    ∧ ([1, 2] : List Int)[1]? = some (((2 : Byte).toNat : Nat) : Int) ∧ 1 + 1 = ([1, 2] : List Int).length :=
  ⟨by decide, rfl, receives_packet _ _ _ _ rfl (by decide) (by decide), by decide, by decide, ⟨by decide, rfl⟩,
    receives_packet _ _ _ _ rfl (by decide) (by decide), by decide, by decide⟩
theorem witness_SyncReadSlotFails :
    (awaiting (.syncRead [1, 2] (.addressed 0x38 2)) (.data posReply2 0)).awaits (.syncRead [1, 2] (.addressed 0x38 2)) 100
    ∧ (awaiting (.syncRead [1, 2] (.addressed 0x38 2)) (.data posReply2 0)).receives 100 0 []
        (.packet (.ok ⟨2, 0, [0x00, 0x04]⟩))
    ∧ ([1, 2] : List Int)[0]? ≠ some (((2 : Byte).toNat : Nat) : Int) ∧ 0 < ([1, 2] : List Int).length
    ∧ (∀ v, ¬slotGives p0 (.addressed 0x38 2) [] v)
    ∧ ({ awaiting (.syncRead [1] (.addressed 0x38 2)) (.data [] 10) with now := 90 } : State).receives 100 10 [] .noResponse :=
  ⟨by decide, receives_packet _ _ _ _ rfl (by decide) (by decide), by decide, by decide,
    fun _ h => absurd h.1 (by decide), receives_nothing _⟩
theorem witness_StatusByteIsNeverAnError :
    (awaiting (.ping 1) (.data [0xFF, 0xFF, 0x01, 0x02, 0xFF, 0xFD] 0)).awaits (.ping 1) 100
    ∧ (∀ i, (awaiting i (.data [0xFF, 0xFF, 0x01, 0x02, 0xFF, 0xFD] 0)).receives 100 0 [] (.packet (.ok ⟨1, 0xFF, []⟩)))
    ∧ returnsInfo (.ping 1) = true ∧ slotGives p0 (.addressed 0 0) [] (.params [])
    ∧ (awaiting (.read 1 (.addressed 0 0)) (.data [] 0)).awaits (.read 1 (.addressed 0 0)) 100
    ∧ (awaiting (.write 1 (.addressed 0 []) false) (.data [] 0)).awaits (.write 1 (.addressed 0 []) false) 100
    ∧ (awaiting (.syncRead [1] (.addressed 0 0)) (.data [] 0)).awaits (.syncRead [1] (.addressed 0 0)) 100
    ∧ ([1] : List Int)[0]? = some (((1 : Byte).toNat : Nat) : Int) :=
  ⟨by decide, fun i => receives_packet _ _ _ _ rfl (by simp only [awaiting]; decide) (by decide), rfl, ⟨by decide, rfl⟩,
    by decide, by decide, by decide, by decide⟩
theorem witness_CallerActsDuringAnOperation : (awaiting (.ping 1) (.data [] 0)).phase ≠ .idle
    ∧ (awaiting (.ping 1) (.data [] 0)).op ≠ none ∧ (awaiting (.ping 1) (.data [] 0)).transport = .opened
    ∧ (sending (.ping 1) (.ok 0)).phase ≠ .idle := by decide
theorem witness_TeardownClosesOnce : State.reset.ready ∧ (awaiting (.ping 1) (.data [] 0)).transport = .opened
    ∧ (awaiting (.ping 1) (.data [] 0)).phase ≠ .idle ∧ (awaiting (.ping 1) (.data [] 0)).op ≠ none
    ∧ ({ State.reset with transport := .closed } : State).phase = .idle := by decide
/-- A SYNC_READ with its first slot read meets the invariant. -/
theorem witness_StepKeepsTheInvariant :
    (atSlot (.syncRead [1, 2] (.addressed 0x38 2)) 1 [(.params [0x18, 0x05], okInfo)] (.data posReply2 0)).Inv
    ∧ (nextOf (step (atSlot (.syncRead [1, 2] (.addressed 0x38 2)) 1 [(.params [0x18, 0x05], okInfo)]
        (.data posReply2 0)))).isSome = true := by
  refine ⟨?_, by decide⟩
  constructor <;> simp [atSlot, awaiting, State.reset, admitIds, expectedReplies, State.receiving]
  exact ⟨[0xFF, 0xFF, 0xFE, 0x06, 0x82, 0x38, 0x02, 0x01, 0x02, 0x3C], by decide⟩
/-- And so does one with a packet about to be sent; a request that is no packet is refused. -/
theorem witness_InvariantStatesNeverStop : (sending (.ping 253) (.ok 0)).Inv
    ∧ decode [0xFF, 0xFF, 0x01, 0x02, 0x07, 0xF5] = .error (.unknownCode 7) := by
  refine ⟨?_, by decide⟩
  constructor <;> simp [sending, State.reset, admitIds, admitUnicast, idOk, Config.idMax, State.receiving]
  exact ⟨[0xFF, 0xFF, 0xFD, 0x02, 0x01, 0xFF], by decide⟩
theorem witness_MarksAndTraceAreNeverCleared : (nextOf (step { caller (.ping 254) with refused := true })).isSome = true := by
  decide
theorem witness_ConfigurationIsImmutable : (nextOf (step (caller (.ping 1)))).isSome = true := by decide
theorem witness_OnlyTheReceiveLoopWritesTheBuffer : (nextOf (step (awaiting (.ping 1) (.data [0xFF] 0)))).isSome = true
    ∧ (awaiting (.ping 1) (.data [0xFF] 0)).receiving ∧ ¬(caller (.ping 1)).receiving
    ∧ (nextOf (step (caller (.ping 1)))).isSome = true := by decide
theorem witness_TransportIsUsedOnlyInItsPhase : (nextOf (step (sending (.ping 1) (.ok 0)))).isSome = true
    ∧ (nextOf (step (awaiting (.ping 1) (.data [] 0)))).isSome = true := by decide
theorem witness_ClosedTransportIsNeverUsed :
    ({ caller (.ping 1) with transport := .closed, trace := [.open 1000000, .close] } : State).Inv
    ∧ (nextOf (step { caller (.ping 1) with transport := .closed, trace := [.open 1000000, .close] })).isSome = true
    ∧ (nextOf (step { State.reset with requests := [.packet pingPacket], transport := .closed })).isSome = true
    ∧ decode pingPacket = .ok (.ping 1) := by
  refine ⟨?_, by decide, by decide, by decide⟩
  constructor <;> simp [caller, State.reset, State.receiving]
theorem witness_ReceiveLoopEndsByItsDeadline :
    ({ awaiting (.ping 1) (.data [] 1) with now := 99, reads := [.data [] 1, .error .timeout 0] } : State).awaits (.ping 1) 100
    ∧ expectedReplies (.ping 1) = 1
    ∧ (∀ e ∈ [ReadEvent.data [] 1, .error .timeout 0],
        (∃ c dt, e = .data c dt ∧ 1 ≤ dt) ∨ ∃ x dt, e = ReadEvent.error x dt)
    ∧ 100 - 99 + 1 ≤ [ReadEvent.data [] 1, .error .timeout 0].length := by
  refine ⟨by decide, rfl, ?_, by decide⟩
  simp only [List.mem_cons, List.not_mem_nil, or_false]
  rintro e (rfl | rfl)
  · exact .inl ⟨_, _, rfl, le_refl _⟩
  · exact .inr ⟨_, _, rfl⟩
theorem witness_TransactionReturnsTheReplysStatus :
    let s : State := { caller (.ping 1) with writes := [.ok 3], reads := [.data (replyFrame 7 0xFF []) 4] }
    s.ready ∧ s.rxBuf = [] ∧ s.interrupts = [] ∧ s.requests = [.call (.ping 1)] ∧ returnsInfo (.ping 1) = true
      ∧ admitIds (.ping 1) = none ∧ encode s.params (.ping 1) = .ok pingPacket ∧ s.writes = [.ok 3]
      ∧ ([] : List Byte).length ≤ 253 ∧ s.reads = [.data (replyFrame 7 0xFF []) 4] ∧ s.op = none ∧ s.slot = 0 ∧ s.acc = []
      ∧ s.failed = false := by decide

end Sys2Proof.Tests
end

section
/-! Rounding is exact (00_scope.md R12): the bitwise search of `roundQuotient` finds `⌊|x| / unit + 1/2⌋` for every real and
every unit the control table has, so `roundQuotient` is `roundReal` of the quotient, and `roundReal` is R12's formula. -/

namespace Sys2Proof.Laws

open Machine

/-! The search -/

/-- The search of `roundQuotient`, on a predicate that compares with a real: enough bits and it finds the rounded real. -/
theorem greatest_eq_floor {p : Nat → Bool} {y : ℝ} (hp : ∀ n : Nat, p n = true ↔ (n : ℝ) - 1 / 2 ≤ y) (h0 : 0 ≤ y)
    {k : Nat} (hk : y + 1 / 2 < (2 : ℝ) ^ k) : (greatest p k 0 : ℤ) = ⌊y + 1 / 2⌋ := by
  have down : ∀ m n, m ≤ n → p n = true → p m = true := fun m n hmn hn => by
    have hmn' : (m : ℝ) ≤ n := by exact_mod_cast hmn
    rw [hp] at hn ⊢
    linarith
  have hfirst : p 0 = true := (hp 0).2 (by push_cast; linarith)
  have hlimit : p (0 + 2 ^ k) = false := by
    rw [Bool.eq_false_iff, Ne, hp]
    push_cast
    linarith
  obtain ⟨holds, fails⟩ := greatest_spec down k 0 hfirst hlimit
  rw [hp] at holds
  rw [Bool.eq_false_iff, Ne, hp] at fails
  push_cast at fails
  rw [eq_comm, Int.floor_eq_iff]
  push_cast
  constructor <;> linarith

/-- The measure of a unit that `quotientBits` divides by is no greater than the unit. -/
theorem rat_add_pi_le_realOf {unit : PiNum} (hpi : 0 ≤ unit.pi) : (unit.rat : ℝ) + unit.pi ≤ realOf unit := by
  have hpi' : (0 : ℝ) ≤ unit.pi := by exact_mod_cast hpi
  unfold realOf
  nlinarith [Real.pi_gt_three]

/-- The bits the search starts from are enough for a positive unit. -/
theorem abs_div_lt_two_pow_quotientBits (c : RealCut) {unit : PiNum} (hpos : 0 < unit.rat + unit.pi) (hpi : 0 ≤ unit.pi) :
    |realOfCut c| / realOf unit + 1 / 2 < (2 : ℝ) ^ quotientBits c unit := by
  have hpos' : (0 : ℝ) < unit.rat + unit.pi := by exact_mod_cast hpos
  have hquot : |realOfCut c| / realOf unit ≤ (c.bound : ℝ) / (unit.rat + unit.pi) :=
    div_le_div₀ (Nat.cast_nonneg _) (abs_realOfCut_le c) hpos' (rat_add_pi_le_realOf hpi)
  set q : Rat := (c.bound : Rat) / (unit.rat + unit.pi) with hq
  have hq0 : 0 ≤ q.floor := Int.floor_nonneg.2 (div_nonneg (Nat.cast_nonneg _) hpos.le)
  have hfloor : (q : ℝ) < (q.floor.toNat : ℝ) + 1 := by
    have h : q < (q.floor : Rat) + 1 := Int.lt_floor_add_one q
    rw [← Int.toNat_of_nonneg hq0] at h
    exact_mod_cast h
  have hbits : ((q.floor.toNat + 2 : ℕ) : ℝ) < (2 : ℝ) ^ quotientBits c unit := by
    exact_mod_cast (Nat.lt_log2_self : q.floor.toNat + 2 < 2 ^ ((q.floor.toNat + 2).log2 + 1))
  have hqr : (q : ℝ) = (c.bound : ℝ) / (unit.rat + unit.pi) := by
    rw [hq]
    push_cast
    rfl
  push_cast at hbits
  linarith

/-- `roundQuotient` rounds the exact real quotient, for every real and every positive unit `q + p·π` without a negative
part of π. -/
theorem roundQuotient_eq_roundReal (c : RealCut) {unit : PiNum} (hpos : 0 < unit.rat + unit.pi) (hpi : 0 ≤ unit.pi) :
    roundQuotient c unit = roundReal (realOfCut c / realOf unit) := by
  have hpos' : (0 : ℝ) < unit.rat + unit.pi := by exact_mod_cast hpos
  have hunit : 0 < realOf unit := hpos'.trans_le (rat_add_pi_le_realOf hpi)
  have hbits := abs_div_lt_two_pow_quotientBits c hpos hpi
  have hsign : c.isGe (piInt 0) = true ↔ 0 ≤ realOfCut c / realOf unit := by
    rw [isGe_iff, realOf_piInt, Int.cast_zero, le_div_iff₀ hunit, zero_mul]
  unfold roundQuotient roundReal
  by_cases hx : 0 ≤ realOfCut c / realOf unit
  · have hx' : 0 ≤ realOfCut c := by simpa using (le_div_iff₀ hunit).1 hx
    rw [if_pos (hsign.2 hx), if_pos hx]
    rw [abs_of_nonneg hx'] at hbits
    refine greatest_eq_floor (fun n => ?_) hx hbits
    rw [isGe_iff, realOf_piScale, le_div_iff₀ hunit]
    push_cast
    rfl
  · have hx' : realOfCut c < 0 := by
      rw [not_le, div_lt_iff₀ hunit, zero_mul] at hx
      exact hx
    rw [if_neg (fun h => hx (hsign.1 h)), if_neg hx]
    rw [abs_of_neg hx', neg_div] at hbits
    rw [greatest_eq_floor (fun n => ?_) (by linarith) hbits]
    rw [isLe_iff, realOf_piScale, ← neg_div, le_div_iff₀ hunit]
    push_cast
    constructor <;> intro h <;> linarith

/-! `roundReal` -/

/-- R12's formula. -/
theorem roundReal_eq_sign_mul (x : ℝ) : (roundReal x : ℝ) = Real.sign x * (⌊|x| + 1 / 2⌋ : ℝ) := by
  rcases lt_trichotomy x 0 with hx | rfl | hx
  · simp [roundReal, not_le.2 hx, Real.sign_of_neg hx, abs_of_neg hx]
  · norm_num [roundReal]
  · simp [roundReal, hx.le, Real.sign_of_pos hx, abs_of_pos hx]

theorem abs_roundReal (x : ℝ) : |roundReal x| = ⌊|x| + 1 / 2⌋ := by
  have hfloor : 0 ≤ ⌊|x| + 1 / 2⌋ := Int.floor_nonneg.2 (by positivity)
  rcases le_or_gt 0 x with hx | hx
  · rw [abs_of_nonneg hx] at hfloor ⊢
    rw [roundReal, if_pos hx, abs_of_nonneg hfloor]
  · rw [abs_of_neg hx] at hfloor ⊢
    rw [roundReal, if_neg (not_le.2 hx), abs_neg, abs_of_nonneg hfloor]

theorem roundReal_neg (x : ℝ) : roundReal (-x) = -roundReal x := by
  have h : (roundReal (-x) : ℝ) = ((-roundReal x : ℤ) : ℝ) := by
    push_cast
    rw [roundReal_eq_sign_mul, roundReal_eq_sign_mul, Real.sign_neg, abs_neg, neg_mul]
  exact_mod_cast h

theorem abs_sub_roundReal_le (x : ℝ) : |x - (roundReal x : ℝ)| ≤ 1 / 2 := by
  unfold roundReal
  split
  · have h1 := Int.floor_le (x + 1 / 2)
    have h2 := Int.lt_floor_add_one (x + 1 / 2)
    rw [abs_le]
    constructor <;> linarith
  · have h1 := Int.floor_le (-x + 1 / 2)
    have h2 := Int.lt_floor_add_one (-x + 1 / 2)
    rw [abs_le]
    push_cast
    constructor <;> linarith

/-- At a tie no candidate has a larger magnitude than the rounded value. -/
theorem abs_le_abs_roundReal_of_tie {x : ℝ} {z : ℤ} (h : |x - (z : ℝ)| = 1 / 2) : |z| ≤ |roundReal x| := by
  rw [abs_roundReal, Int.le_floor]
  push_cast
  calc |(z : ℝ)| = |x - (x - z)| := by rw [sub_sub_cancel]
    _ ≤ |x| + |x - z| := abs_sub x (x - z)
    _ = |x| + 1 / 2 := by rw [h]

/-! Every real has a place. -/

/-- The place of a real among the numbers `q + p·π`. -/
noncomputable def cutOfReal (r : ℝ) : RealCut where
  isGe a := decide (realOf a ≤ r)
  isLe a := decide (r ≤ realOf a)
  bound := ⌈|r|⌉₊
  real := ⟨r, Nat.le_ceil _, fun _ => ⟨decide_eq_true_iff, decide_eq_true_iff⟩⟩

@[simp] theorem realOfCut_cutOfReal (r : ℝ) : realOfCut (cutOfReal r) = r :=
  realOfCut_eq fun q => by simp [cutOfReal, realOf]

theorem roundQuotient_one (c : RealCut) : roundQuotient c (piInt 1) = roundReal (realOfCut c) := by
  rw [roundQuotient_eq_roundReal c (by norm_num [piInt]) (by norm_num [piInt]), realOf_piInt, Int.cast_one, div_one]

/-- Settles O25: `roundQuotient` by one step is `roundReal` of the real, which has the four properties of R12. -/
theorem roundingIsNearestTiesAway : Obligations.RoundingIsNearestTiesAway := by
  refine ⟨fun r => ⟨cutOfReal r, realOfCut_cutOfReal r⟩, fun c => ?_, fun c c' h => ?_⟩
  · rw [roundQuotient_one]
    exact ⟨roundReal_eq_sign_mul _, abs_sub_roundReal_le _, fun z => abs_le_abs_roundReal_of_tie⟩
  · rw [roundQuotient_one, roundQuotient_one, h, roundReal_neg]

end Sys2Proof.Laws
end

section
/-! Which calls on the transport a step makes (20_memory.md section 4, 44_transactor.md sections 1 and 3): what each part of
a step adds to `trace`, and then the inversion of a step. -/

namespace Sys2Proof.Machine

@[simp] theorem State.afterWrite_trace (s : State) (bytes : List Byte) (dt : Nat) :
    (s.afterWrite bytes dt).trace = s.trace ++ [.write bytes] := rfl

@[simp] theorem State.afterRead_trace (s : State) (d dt : Nat) (buf : List Byte) :
    (s.afterRead d dt buf).trace = s.trace ++ [.read (chunkWait d s.now)] := rfl

@[simp] theorem State.afterRead_now (s : State) (d dt : Nat) (buf : List Byte) :
    (s.afterRead d dt buf).now = s.now + dt := rfl

theorem chunkWait_le (d now : Nat) : chunkWait d now ≤ 10 := min_le_left _ _

/-- The start of an operation sends nothing (44_transactor.md R220, 60_exceptions.md R271). -/
@[simp] theorem begin_trace (i : Instr) (pkt : Checked (List Byte)) (s : State) : (begin i pkt s).trace = s.trace := by
  rcases begin_cases i pkt s with ⟨r, -, h⟩ | ⟨e, -, -, h⟩ | ⟨bytes, -, -, h⟩
  · rw [h, State.refuse_trace]
  · cases e <;> simp [h]
  · rw [h]

/-- After the write an operation ends or starts its receive loop, without a call. -/
@[simp] theorem afterWritten_trace (i : Instr) (s : State) : (afterWritten i s).trace = s.trace := by
  rcases afterWritten_cases i s with ⟨o, h⟩ | ⟨ph, h, -⟩ | ⟨ids, target, -, -, h⟩ <;> simp [h]

/-- What an operation does with a reply makes no call and takes no time. -/
theorem withReply_trace_now (i : Instr) (r : Reply) (s : State) :
    (withReply i r s).trace = s.trace ∧ (withReply i r s).now = s.now := by
  rcases withReply_cases i r s with ⟨o, h⟩ | ⟨f, h⟩ | ⟨-, h⟩ | ⟨ids, target, -, -, ⟨-, e, h⟩ | h⟩ <;> simp [h]

@[simp] theorem State.refuseConcurrent_trace (s : State) (i : Instr) : (s.refuseConcurrent i).trace = s.trace := by
  rcases refuseConcurrent_cases i s with ⟨r, -, h⟩ | ⟨-, h⟩ <;> simp [h]

/-- A teardown closes an open transport, and makes no call on a closed one (70_reset_and_hazards.md R302). -/
theorem State.teardown_trace (s : State) :
    s.teardown.trace = s.trace
      ∨ (s.transport = .opened ∧ s.teardown.transport = .closed ∧ s.teardown.trace = s.trace ++ [.close]) := by
  rcases teardown_cases s with ⟨-, h⟩ | ⟨ho, -, h⟩ | ⟨ho, -, h⟩
  · exact .inl (by rw [h])
  · exact .inr ⟨ho, by simp [h]⟩
  · exact .inr ⟨ho, by simp [h]⟩

/-- A chunk read of `s`, whatever the step does after it (`t`), is one read that waits at most 10 ms and takes no longer. -/
theorem read_within_wait {s t : State} {r : List (Option Interrupt)} {d dt : Nat} {buf : List Byte}
    (hb : leavesBuffer s d dt buf) (htrace : t.trace = (({ s with interrupts := r } : State).afterRead d dt buf).trace)
    (hnow : t.now = (({ s with interrupts := r } : State).afterRead d dt buf).now) :
    ∃ w, w ≤ 10 ∧ t.trace = s.trace ++ [.read w] ∧ t.now ≤ s.now + w := by
  obtain ⟨hdt, -⟩ := hb
  exact ⟨chunkWait d s.now, chunkWait_le _ _, htrace, by rw [hnow]; exact Nat.add_le_add_left hdt _⟩

/-- Settles O56, by the cases of a step (`StepTo`). -/
theorem transportIsUsedOnlyInItsPhase : Obligations.TransportIsUsedOnlyInItsPhase := by
  intro s t h
  cases stepTo_of_step h with
  | stutter | pause | cancelled => exact .inl rfl
  | start => exact .inl (begin_trace ..)
  | concurrent => exact .inl (State.refuseConcurrent_trace ..)
  | sent r i pkt dt hp ho he => exact .inr (.inl ⟨hp, i, pkt, ho, he, afterWritten_trace ..⟩)
  | sendFailed r i pkt dt o hp ho he => exact .inr (.inl ⟨hp, i, pkt, ho, he, rfl⟩)
  | readFailed r i d dt buf o hp ho hd hb => exact .inr (.inr (.inl ⟨hp, read_within_wait hb rfl rfl⟩))
  | waiting r i d dt buf hp ho hd hb => exact .inr (.inr (.inl ⟨hp, read_within_wait hb rfl rfl⟩))
  | replied r i d dt buf o hp ho hd hb =>
    obtain ⟨htrace, hnow⟩ := withReply_trace_now i o (({ s with interrupts := r } : State).afterRead d dt buf)
    exact .inr (.inr (.inl ⟨hp, read_within_wait hb htrace hnow⟩))
  | teardownIdle r => exact (State.teardown_trace { s with requests := r }).imp_right fun h => .inr (.inr h)
  | teardown r => exact (State.teardown_trace { s with interrupts := r }).imp_right fun h => .inr (.inr h)

end Sys2Proof.Machine
end

section
/-! Instruction packets and their decoding (30_encoding.md R80 to R88, 41_packet_codec.md R140 to R149): bytes as the integers a
builder takes, the layout of a packet, and for each builder the instruction its packet decodes to. -/

namespace Sys2Proof.Laws

open Machine

/-! Bytes and IDs -/

theorem byteOk_iff (z : Int) : byteOk z = true ↔ 0 ≤ z ∧ z ≤ 255 := by simp [byteOk]

theorem idOk_iff (z : Int) : idOk z = true ↔ 0 ≤ z ∧ z ≤ 254 := by simp [idOk]

theorem byteOk_of_idOk {z : Int} (h : idOk z = true) : byteOk z = true := by
  rw [idOk_iff] at h
  rw [byteOk_iff]
  omega

theorem toByte_toNat {z : Int} (h : byteOk z = true) : (toByte z).toNat = z.toNat := by
  rw [byteOk_iff] at h
  simp only [toByte, BitVec.toNat_ofInt]
  omega

theorem byteInt_toByte {z : Int} (h : byteOk z = true) : byteInt (toByte z) = z := by
  rw [byteInt, toByte_toNat h, Int.toNat_of_nonneg ((byteOk_iff z).1 h).1]

theorem byteInts_map_toByte {l : List Int} (h : l.all byteOk = true) : byteInts (l.map toByte) = l := by
  rw [byteInts, List.map_map]
  exact (List.map_congr_left fun z hz => byteInt_toByte (List.all_eq_true.1 h z hz)).trans (List.map_id' l)

/-- No servo ID is the header byte (30_encoding.md R87). -/
theorem toByte_ne_header {z : Int} (h : idOk z = true) : toByte z ≠ 0xFF#8 := by
  intro heq
  have hz := toByte_toNat (byteOk_of_idOk h)
  rw [heq, BitVec.toNat_ofNat] at hz
  rw [idOk_iff] at h
  omega

/-! The decoder at each instruction code (30_encoding.md R85) -/

section
variable {id : Byte} (hid : id ≠ 0xFF#8) (params : List Byte)
include hid

theorem decodeBody_ping : decodeBody id codePing params = decodeBare (.ping (byteInt id)) params := if_neg hid

theorem decodeBody_read : decodeBody id codeRead params = decodeRead id params := if_neg hid

theorem decodeBody_write : decodeBody id codeWrite params = decodeWrite id params := if_neg hid

theorem decodeBody_regWrite : decodeBody id codeRegWrite params = decodeRegWrite id params := if_neg hid

theorem decodeBody_action : decodeBody id codeAction params = decodeBare (.action (byteInt id)) params := if_neg hid

theorem decodeBody_recovery : decodeBody id codeRecovery params = decodeBare (.recovery (byteInt id)) params := if_neg hid

theorem decodeBody_reset : decodeBody id codeReset params = decodeBare (.reset (byteInt id)) params := if_neg hid

theorem decodeBody_syncRead : decodeBody id codeSyncRead params = decodeSyncRead id params := if_neg hid

theorem decodeBody_syncWrite : decodeBody id codeSyncWrite params = decodeSyncWrite id params := if_neg hid

end

/-! Any packet -/

/-- A packet that can be assembled decodes by its ID, code and parameters: header, LEN and checksum are right. -/
theorem decode_packet {id : Int} {code : Byte} {params : List Int} {s : List Byte} (h : packet id code params = .ok s) :
    decode s = decodeBody (toByte id) code (params.map toByte) := by
  obtain ⟨-, -, hlen, rfl⟩ := packet_ok h
  have hLEN : (BitVec.ofNat 8 (params.length + 2)).toNat = params.length + 2 := by
    rw [BitVec.toNat_ofNat]
    omega
  simp [decode, frame, hLEN]

/-- The ID byte of a packet is not the header byte, and gives the ID back. -/
theorem packet_id {id : Int} {code : Byte} {params : List Int} {s : List Byte} (h : packet id code params = .ok s) :
    toByte id ≠ 0xFF#8 ∧ byteInt (toByte id) = id := by
  obtain ⟨hid, -⟩ := packet_ok h
  exact ⟨toByte_ne_header hid, byteInt_toByte (byteOk_of_idOk hid)⟩

/-! Each builder -/

/-- A packet without parameters decodes to what the decoder makes of its ID and code. -/
theorem decode_packet_nil {id : Int} {code : Byte} {s : List Byte} {bare : Int → Instr} (h : packet id code [] = .ok s)
    (hbody : ∀ b : Byte, b ≠ 0xFF#8 → decodeBody b code [] = decodeBare (bare (byteInt b)) []) :
    decode s = .ok (bare id) := by
  obtain ⟨hne, hid⟩ := packet_id h
  rw [decode_packet h, List.map_nil, hbody _ hne, hid]
  rfl

theorem decode_buildPing {id : Int} {s : List Byte} (h : buildPing id = .ok s) : decode s = .ok (.ping id) :=
  decode_packet_nil h fun _ hne => decodeBody_ping hne []

theorem decode_buildAction {id : Int} {s : List Byte} (h : buildAction id = .ok s) : decode s = .ok (.action id) :=
  decode_packet_nil h fun _ hne => decodeBody_action hne []

theorem decode_buildRecovery {id : Int} {s : List Byte} (h : buildRecovery id = .ok s) : decode s = .ok (.recovery id) :=
  decode_packet_nil h fun _ hne => decodeBody_recovery hne []

theorem decode_buildReset {id : Int} {s : List Byte} (h : buildReset id = .ok s) : decode s = .ok (.reset id) :=
  decode_packet_nil h fun _ hne => decodeBody_reset hne []

theorem buildRead_ok {id a l : Int} {s : List Byte} (h : buildRead id a l = .ok s) :
    byteOk a = true ∧ byteOk l = true ∧ packet id codeRead [a, l] = .ok s := by
  unfold buildRead at h
  split at h
  · cases h
  · next hal => simpa [h] using hal

theorem decode_buildRead {id a l : Int} {s : List Byte} (h : buildRead id a l = .ok s) :
    decode s = .ok (.read id (.addressed a l)) := by
  obtain ⟨ha, hl, h⟩ := buildRead_ok h
  obtain ⟨hne, hid⟩ := packet_id h
  rw [decode_packet h, decodeBody_read hne]
  simp only [List.map, decodeRead, hid, byteInt_toByte ha, byteInt_toByte hl]

theorem buildWrite_ok {id a : Int} {data : List Int} {s : List Byte} (h : buildWrite id a data = .ok s) :
    packet id codeWrite (a :: data) = .ok s := by
  unfold buildWrite at h
  split at h
  · cases h
  · exact h

/-- The address and the data of a packet that writes come back. -/
theorem packet_address_data {id a : Int} {code : Byte} {data : List Int} {s : List Byte}
    (h : packet id code (a :: data) = .ok s) : byteInt (toByte a) = a ∧ byteInts (data.map toByte) = data := by
  obtain ⟨-, hbytes, -⟩ := packet_ok h
  obtain ⟨ha, hdata⟩ := Bool.and_eq_true_iff.1 hbytes
  exact ⟨byteInt_toByte ha, byteInts_map_toByte hdata⟩

theorem decode_buildWrite {id a : Int} {data : List Int} {s : List Byte} (h : buildWrite id a data = .ok s) :
    decode s = .ok (.write id (.addressed a data) true) := by
  have h := buildWrite_ok h
  obtain ⟨hne, hid⟩ := packet_id h
  obtain ⟨ha, hdata⟩ := packet_address_data h
  rw [decode_packet h, decodeBody_write hne]
  simp only [List.map, decodeWrite, hid, ha, hdata]

theorem buildRegWrite_ok {id a : Int} {data : List Int} {s : List Byte} (h : buildRegWrite id a data = .ok s) :
    packet id codeRegWrite (a :: data) = .ok s := by
  unfold buildRegWrite at h
  split at h
  · cases h
  · exact h

theorem decode_buildRegWrite {id a : Int} {data : List Int} {s : List Byte} (h : buildRegWrite id a data = .ok s) :
    decode s = .ok (.regWrite id (.addressed a data)) := by
  have h := buildRegWrite_ok h
  obtain ⟨hne, hid⟩ := packet_id h
  obtain ⟨ha, hdata⟩ := packet_address_data h
  rw [decode_packet h, decodeBody_regWrite hne]
  simp only [List.map, decodeRegWrite, hid, ha, hdata]

theorem buildSyncRead_ok {a l : Int} {ids : List Int} {s : List Byte} (h : buildSyncRead a l ids = .ok s) :
    byteOk a = true ∧ byteOk l = true ∧ ids.all idOk = true
      ∧ packet Config.broadcastId codeSyncRead (a :: l :: ids) = .ok s := by
  unfold buildSyncRead at h
  split at h
  · cases h
  split at h
  · cases h
  next hal hids =>
    obtain ⟨ha, hl⟩ : byteOk a = true ∧ byteOk l = true := by simpa using hal
    exact ⟨ha, hl, by simpa using hids, h⟩

theorem decode_buildSyncRead {a l : Int} {ids : List Int} {s : List Byte} (h : buildSyncRead a l ids = .ok s) :
    decode s = .ok (.syncRead ids (.addressed a l)) := by
  obtain ⟨ha, hl, hids, h⟩ := buildSyncRead_ok h
  have hne : (ids.map toByte).all (fun b => b != 0xFF#8) = true := by
    simpa using fun z hz => toByte_ne_header (List.all_eq_true.1 hids z hz)
  have hbytes : ids.all byteOk = true :=
    List.all_eq_true.2 fun z hz => byteOk_of_idOk (List.all_eq_true.1 hids z hz)
  rw [decode_packet h, decodeBody_syncRead (packet_id h).1, List.map_cons, List.map_cons, decodeSyncRead, if_neg (by decide)]
  simp only [hne, if_true, byteInt_toByte ha, byteInt_toByte hl, byteInts_map_toByte hbytes]

theorem buildSyncWrite_ok {a l : Int} {pairs : List (Int × List Int)} {s : List Byte}
    (h : buildSyncWrite a l pairs = .ok s) :
    byteOk a = true ∧ byteOk l = true ∧ syncWritePairsCheck l pairs = none
      ∧ packet Config.broadcastId codeSyncWrite (a :: l :: syncWriteParams pairs) = .ok s := by
  unfold buildSyncWrite at h
  split at h
  · cases h
  split at h
  · cases h
  next hal _ hpairs =>
    obtain ⟨ha, hl⟩ : byteOk a = true ∧ byteOk l = true := by simpa using hal
    exact ⟨ha, hl, hpairs, h⟩

/-- The checks of R148 pass exactly when each pair has an ID in range and as many bytes as announced. -/
theorem syncWritePairsCheck_eq_none_iff (l : Int) (pairs : List (Int × List Int)) :
    syncWritePairsCheck l pairs = none ↔ ∀ e ∈ pairs, idOk e.1 = true ∧ (e.2.length : Int) = l := by
  induction pairs with
  | nil => simp [syncWritePairsCheck]
  | cons e pairs ih =>
    rw [syncWritePairsCheck, List.forall_mem_cons, ← ih]
    cases hid : idOk e.1 <;> by_cases hlen : (e.2.length : Int) = l <;> simp [hlen]

/-- The groups of a SYNC_WRITE's parameters are its pairs, when each pair has the announced number of bytes. -/
theorem decodeGroups_syncWriteParams {l : Nat} {pairs : List (Int × List Int)} (hlen : ∀ e ∈ pairs, e.2.length = l)
    (hbytes : (syncWriteParams pairs).all byteOk = true) {k : Nat} (hk : (syncWriteParams pairs).length ≤ k) :
    decodeGroups l k ((syncWriteParams pairs).map toByte) = some pairs := by
  induction pairs generalizing k with
  | nil => rw [syncWriteParams, List.map_nil, decodeGroups]
  | cons e pairs ih =>
    obtain ⟨id, data⟩ := e
    obtain ⟨rfl, hlen⟩ := List.forall_mem_cons.1 hlen
    simp only [syncWriteParams, List.all_cons, List.all_append, Bool.and_eq_true] at hbytes
    obtain ⟨hid, hdata, hrest⟩ := hbytes
    simp only [syncWriteParams, List.length_cons, List.length_append] at hk
    obtain ⟨k, rfl⟩ : ∃ k', k = k' + 1 := ⟨k - 1, by omega⟩
    have hmore := ih hlen hrest (k := k) (by omega)
    simp [syncWriteParams, decodeGroups, hmore, byteInt_toByte hid, byteInts_map_toByte hdata]

theorem decode_buildSyncWrite {a l : Int} {pairs : List (Int × List Int)} {s : List Byte}
    (h : buildSyncWrite a l pairs = .ok s) : decode s = .ok (.syncWrite (.addressed a l pairs)) := by
  obtain ⟨ha, hl, hpairs, h⟩ := buildSyncWrite_ok h
  rw [syncWritePairsCheck_eq_none_iff] at hpairs
  obtain ⟨-, hbytes, -⟩ := packet_ok h
  have hparams : (syncWriteParams pairs).all byteOk = true := by simpa [ha, hl] using hbytes
  have hids : pairs.all (fun e => idOk e.1) = true := List.all_eq_true.2 fun e he => (hpairs e he).1
  have hlen : ∀ e ∈ pairs, e.2.length = (toByte l).toNat := fun e he => by
    rw [toByte_toNat hl, ← (hpairs e he).2, Int.toNat_natCast]
  have hgroups := decodeGroups_syncWriteParams hlen hparams (k := ((syncWriteParams pairs).map toByte).length) (by simp)
  rw [decode_packet h, decodeBody_syncWrite (packet_id h).1, List.map_cons, List.map_cons, decodeSyncWrite, if_neg (by decide)]
  simp only [hgroups, hids, if_true, byteInt_toByte ha, byteInt_toByte hl]

/-- Settles O5: `packet` succeeds only on an ID in range, and gives the frame of R80. -/
theorem packetHasTheInstructionLayout : Obligations.PacketHasTheInstructionLayout := by
  intro id code params s h
  obtain ⟨hid, -, -, rfl⟩ := packet_ok h
  exact ⟨rfl, by simp [frame], (idOk_iff id).1 hid⟩

end Sys2Proof.Laws
end

section
/-! The packet of every instruction (30_encoding.md R96): its operands resolved, then one builder call. A register by name gives
the address and the length of its definition, and each of its values the bytes of `encodeByName`. -/

namespace Sys2Proof.Laws

open Machine

/-! Resolving, then building -/

theorem bind_eq_ok {α β : Type} {x : Checked α} {f : α → Checked β} {b : β} (h : x.bind f = .ok b) :
    ∃ a, x = .ok a ∧ f a = .ok b := by
  cases x with
  | ok a => exact ⟨a, rfl, h⟩
  | error e => cases h

theorem encode_read (p : Params) (id : Int) (target : ReadForm) :
    encode p (.read id target) = (resolveRead p target).bind fun r => buildRead id r.1 r.2 := by
  rw [encode, readPacket]
  cases resolveRead p target <;> rfl

theorem encode_write (p : Params) (id : Int) (form : WriteForm) (w : Bool) :
    encode p (.write id form w) = (resolveWrite p form).bind fun r => buildWrite id r.1 r.2 := by
  rw [encode, writePacket]
  cases resolveWrite p form <;> rfl

theorem encode_regWrite (p : Params) (id : Int) (form : RegWriteForm) :
    encode p (.regWrite id form) = (resolveRegWrite p form).bind fun r => buildRegWrite id r.1 r.2 := by
  rw [encode, regWritePacket]
  cases resolveRegWrite p form <;> rfl

theorem encode_syncRead (p : Params) (ids : List Int) (target : ReadForm) :
    encode p (.syncRead ids target) = (resolveRead p target).bind fun r => buildSyncRead r.1 r.2 ids := by
  rw [encode, syncReadPacket]
  cases resolveRead p target <;> rfl

theorem encode_syncWrite (p : Params) (form : SyncWriteForm) :
    encode p (.syncWrite form) = (resolveSyncWrite p form).bind fun r => buildSyncWrite r.1 r.2.1 r.2.2 := by
  rw [encode, syncWritePacket]
  cases resolveSyncWrite p form <;> rfl

/-- Decoding the packet of an instruction gives its expansion: both resolve the operands alike, and decoding undoes the
builder. -/
theorem decode_encode_eq_expand {p : Params} {i : Instr} {s : List Byte} (h : encode p i = .ok s) :
    ∃ j, expand p i = .ok j ∧ decode s = .ok j ∧ j.isPacketForm = true := by
  cases i with
  | ping id => exact ⟨_, rfl, decode_buildPing h, rfl⟩
  | action id => exact ⟨_, rfl, decode_buildAction h, rfl⟩
  | recovery id => exact ⟨_, rfl, decode_buildRecovery h, rfl⟩
  | reset id => exact ⟨_, rfl, decode_buildReset h, rfl⟩
  | read id target =>
    rw [encode_read] at h
    obtain ⟨r, hr, hb⟩ := bind_eq_ok h
    exact ⟨_, congrArg (Except.map _) hr, decode_buildRead hb, rfl⟩
  | write id form w =>
    rw [encode_write] at h
    obtain ⟨r, hr, hb⟩ := bind_eq_ok h
    exact ⟨_, congrArg (Except.map _) hr, decode_buildWrite hb, rfl⟩
  | regWrite id form =>
    rw [encode_regWrite] at h
    obtain ⟨r, hr, hb⟩ := bind_eq_ok h
    exact ⟨_, congrArg (Except.map _) hr, decode_buildRegWrite hb, rfl⟩
  | syncRead ids target =>
    rw [encode_syncRead] at h
    obtain ⟨r, hr, hb⟩ := bind_eq_ok h
    exact ⟨_, congrArg (Except.map _) hr, decode_buildSyncRead hb, rfl⟩
  | syncWrite form =>
    rw [encode_syncWrite] at h
    obtain ⟨r, hr, hb⟩ := bind_eq_ok h
    exact ⟨_, congrArg (Except.map _) hr, decode_buildSyncWrite hb, rfl⟩

/-! A register by name -/

/-- A list of pairs without a repeated key finds each of its pairs. -/
theorem lookup_of_mem {α β : Type} [BEq α] [LawfulBEq α] {l : List (α × β)} (hl : (l.map Prod.fst).Nodup) {a : α} {b : β}
    (h : (a, b) ∈ l) : l.lookup a = some b := by
  obtain ⟨l₁, l₂, rfl⟩ := List.append_of_mem h
  refine List.lookup_eq_some_iff.2 ⟨l₁, l₂, rfl, fun q hq => bne_iff_ne.2 ?_⟩
  rw [List.map_append, List.nodup_append] at hl
  exact (hl.2.2 q.1 (List.mem_map_of_mem hq) a (by simp)).symm

/-- The keys of every table are unique (10_state.md R34). -/
theorem registers_keys_nodup (m : ServoModel) : ((tableOf m).registers.map Prod.fst).Nodup := by
  cases m
  decide +kernel

/-- Lookup finds every register of a table (42_control_table.md R170). -/
theorem lookupRegister_of_mem {m : ServoModel} {name : String} {d : RegisterDef} (h : (name, d) ∈ (tableOf m).registers) :
    lookupRegister (tableOf m) name = .ok d := by
  rw [lookupRegister, findRegister, lookup_of_mem (registers_keys_nodup m) h]

section
variable {p : Params} {name : String} {d : RegisterDef} (hd : lookupRegister p.table name = .ok d)
include hd

/-- `enc(name, v, mode)` is the encoding of the register's definition. -/
theorem encodeByName_of_lookup (view : View) (v : UserValue) :
    encodeByName p name view v = encodeView p.table p.modeUnknownRaw view d v := by
  cases view <;> simp only [encodeByName, encodeUser, encodeRaw, encodeView, hd]

theorem encode_read_named (id : Int) (view : View) :
    encode p (.read id (.named name view)) = buildRead id d.address d.length := by
  rw [encode_read, resolveRead, hd]
  rfl

theorem encode_syncRead_named (ids : List Int) (view : View) :
    encode p (.syncRead ids (.named name view)) = buildSyncRead d.address d.length ids := by
  rw [encode_syncRead, resolveRead, hd]
  rfl

theorem encode_write_named (id : Int) (v : UserValue) (view : View) (w : Bool) :
    encode p (.write id (.named name v view) w)
      = (encodeByName p name view v).bind fun s => buildWrite id d.address (byteInts s) := by
  rw [encode_write, encodeByName_of_lookup hd, resolveWrite, hd]
  cases h : encodeView p.table p.modeUnknownRaw view d v <;> simp only [h] <;> rfl

theorem encode_regWrite_named (id : Int) (v : UserValue) :
    encode p (.regWrite id (.named name v))
      = (encodeByName p name .converted v).bind fun s => buildRegWrite id d.address (byteInts s) := by
  rw [encode_regWrite, encodeByName_of_lookup hd, resolveRegWrite, hd]
  cases h : encodeConversion p.table p.modeUnknownRaw d v <;> simp only [h, encodeView] <;> rfl

theorem encode_syncWrite_named (pairs : List (Int × UserValue)) (view : View) :
    encode p (.syncWrite (.named name pairs view))
      = (encodePairs p view d pairs).bind fun ds => buildSyncWrite d.address d.length ds := by
  rw [encode_syncWrite, resolveSyncWrite, hd]
  cases h : encodePairs p view d pairs <;> simp only [h] <;> rfl

/-- The values of a SYNC_WRITE that can all be encoded, each with its bytes. -/
theorem encodePairs_of_forall_ok {view : View} {entries : List ((Int × UserValue) × List Byte)}
    (h : ∀ q ∈ entries, encodeByName p name view q.1.2 = .ok q.2) :
    encodePairs p view d (entries.map Prod.fst) = .ok (entries.map fun q => (q.1.1, byteInts q.2)) := by
  induction entries with
  | nil => rfl
  | cons q entries ih =>
    obtain ⟨hq, hentries⟩ := List.forall_mem_cons.1 h
    rw [encodeByName_of_lookup hd] at hq
    simp only [List.map_cons, encodePairs, hq, ih hentries]

/-- The first value of a SYNC_WRITE that cannot be encoded gives the failure. -/
theorem encodePairs_of_first_error {view : View} {before after : List (Int × UserValue)} {entry : Int × UserValue} {e : Stop}
    (hbefore : ∀ q ∈ before, ∃ s, encodeByName p name view q.2 = .ok s)
    (hentry : encodeByName p name view entry.2 = .error e) :
    encodePairs p view d (before ++ entry :: after) = .error e := by
  induction before with
  | nil =>
    rw [encodeByName_of_lookup hd] at hentry
    simp only [List.nil_append, encodePairs, hentry]
  | cons q before ih =>
    obtain ⟨⟨s, hq⟩, hrest⟩ := List.forall_mem_cons.1 hbefore
    rw [encodeByName_of_lookup hd] at hq
    simp only [List.cons_append, encodePairs, hq, ih hrest]

end

/-- Settles O11: decoding undoes each builder (`decode_encode_eq_expand`), and each form is one builder call. -/
theorem decodeGivesTheExpansion : Obligations.DecodeGivesTheExpansion := by
  refine ⟨fun p i s h => decode_encode_eq_expand h, fun p => ⟨fun id => ⟨rfl, rfl, rfl, rfl⟩,
    fun id a l data ids pairs w => ⟨rfl, rfl, rfl, rfl, rfl⟩, fun name d hmem => ?_⟩⟩
  have hd : lookupRegister p.table name = .ok d := lookupRegister_of_mem hmem
  refine ⟨encode_read_named hd, encode_syncRead_named hd, fun id v view w s h => ?_, fun id v view w e h => ?_,
    fun id v s h => ?_, fun id v e h => ?_, fun view entries h => ?_, fun view before after entry e hbefore h => ?_⟩
  · rw [encode_write_named hd, h]
    rfl
  · rw [encode_write_named hd, h]
    rfl
  · rw [encode_regWrite_named hd, h]
    rfl
  · rw [encode_regWrite_named hd, h]
    rfl
  · rw [encode_syncWrite_named hd, encodePairs_of_forall_ok hd h]
    rfl
  · rw [encode_syncWrite_named hd, encodePairs_of_first_error hd hbefore h]
    rfl

end Sys2Proof.Laws
end

section
/-! The integer codec (40_integer_codec.md R120 to R126): what each of its functions answers on the widths of the block and
elsewhere, and that decoding and encoding undo each other. -/

namespace Sys2Proof.Laws

open Machine

/-! Unsigned integers -/

theorem encodeUint_of_width {n : Nat} (hn : n = 1 ∨ n = 2 ∨ n = 4) (v : Int) :
    encodeUint v n = .ok (bytesLE (v % (2 ^ (8 * n) : Nat)).toNat n) :=
  if_pos ((widthOk_iff n).2 hn)

theorem encodeUint_of_not_width {n : Nat} (hn : ¬(n = 1 ∨ n = 2 ∨ n = 4)) (v : Int) :
    encodeUint v n = .error (.refuse .intWidth) :=
  if_neg (mt (widthOk_iff n).1 hn)

theorem decodeUint_of_width {s : List Byte} (hs : s.length = 1 ∨ s.length = 2 ∨ s.length = 4) :
    decodeUint s = .ok (uintLE s) :=
  if_pos ((widthOk_iff s.length).2 hs)

theorem decodeUint_of_not_width {s : List Byte} (hs : ¬(s.length = 1 ∨ s.length = 2 ∨ s.length = 4)) :
    decodeUint s = .error (.refuse .intWidth) :=
  if_neg (mt (widthOk_iff s.length).1 hs)

theorem emod_toNat_lt (v : Int) {m : Nat} (hm : 0 < m) : (v % (m : Int)).toNat < m := by
  have := Int.emod_nonneg v (show (m : Int) ≠ 0 by omega)
  have := Int.emod_lt_of_pos v (show (0 : Int) < m by omega)
  omega

theorem emod_toNat_of_lt {u m : Nat} (h : u < m) : ((u : Int) % (m : Int)).toNat = u := by
  rw [← Int.natCast_mod, Int.toNat_natCast, Nat.mod_eq_of_lt h]

theorem uintLE_bytesLE_of_lt {n r : Nat} (h : r < 2 ^ (8 * n)) : uintLE (bytesLE r n) = r := by
  rw [uintLE_bytesLE, ← two_pow_eight_mul, Nat.mod_eq_of_lt h]

theorem uintLE_lt_two_pow (s : List Byte) : uintLE s < 2 ^ (8 * s.length) :=
  (uintLE_lt s).trans_eq (two_pow_eight_mul s.length).symm

/-- Settles O1: on the widths of the block `encodeUint` is `bytesLE` of the residue, whose bytes are its base-256 digits. -/
theorem encodeUintIsLittleEndianTruncation : Obligations.EncodeUintIsLittleEndianTruncation :=
  ⟨fun v n hn => ⟨_, encodeUint_of_width hn v, bytesLE_length _ n, fun k hk => bytesLE_getElem? n _ k hk⟩,
    fun v _ hn => encodeUint_of_not_width hn v⟩

/-- Settles O2: `uintLE` and `bytesLE` undo each other, and both the residue and a decoded value are below 2^(8n). -/
theorem unsignedCodecRoundTrips : Obligations.UnsignedCodecRoundTrips := by
  refine ⟨fun v n hn => ⟨_, encodeUint_of_width hn v, ?_⟩, fun s hs => ⟨_, decodeUint_of_width hs, ?_⟩,
    fun s hs => decodeUint_of_not_width hs⟩
  · rw [decodeUint_of_width (by rwa [bytesLE_length]), uintLE_bytesLE_of_lt (emod_toNat_lt v (Nat.two_pow_pos _))]
  · rw [encodeUint_of_width hs, emod_toNat_of_lt (uintLE_lt_two_pow s), bytesLE_uintLE]

/-! Sign-magnitude integers -/

theorem encodeSignMagnitude_of_lt {b n : Nat} (hb : b < 8 * n) (v : Int) :
    encodeSignMagnitude v b n = encodeUint (signMagnitudeRaw v b) n :=
  if_neg (Nat.not_le.2 hb)

theorem encodeSignMagnitude_of_le {b n : Nat} (hb : 8 * n ≤ b) (v : Int) :
    encodeSignMagnitude v b n = .error (.refuse .signBitWidth) :=
  if_pos hb

theorem decodeSignMagnitude_of_lt {s : List Byte} {b : Nat} (hs : s.length = 1 ∨ s.length = 2 ∨ s.length = 4)
    (hb : b < 8 * s.length) : decodeSignMagnitude s b = .ok (signMagnitudeValue (uintLE s) b) := by
  simp only [decodeSignMagnitude, decodeUint_of_width hs, if_neg (Nat.not_le.2 hb)]

theorem decodeSignMagnitude_of_le {s : List Byte} {b : Nat} (hs : s.length = 1 ∨ s.length = 2 ∨ s.length = 4)
    (hb : 8 * s.length ≤ b) : decodeSignMagnitude s b = .error (.refuse .signBitWidth) := by
  simp only [decodeSignMagnitude, decodeUint_of_width hs, if_pos hb]

theorem decodeSignMagnitude_of_not_width {s : List Byte} (hs : ¬(s.length = 1 ∨ s.length = 2 ∨ s.length = 4)) (b : Nat) :
    decodeSignMagnitude s b = .error (.refuse .intWidth) := by
  simp only [decodeSignMagnitude, decodeUint_of_not_width hs]

/-- The masks of R124 in arithmetic: bit `b` is the sign, the `b` bits below it the magnitude. -/
theorem signMagnitudeValue_eq (u b : Nat) :
    signMagnitudeValue u b = if u / 2 ^ b % 2 = 1 then -((u % 2 ^ b : Nat) : Int) else ((u % 2 ^ b : Nat) : Int) := by
  simp only [signMagnitudeValue, Nat.one_shiftLeft, Nat.and_two_pow_sub_one_eq_mod, Nat.testBit_eq_decide_div_mod_eq,
    decide_eq_true_eq]

/-- The raw value of a number in range as a pattern of `b + 1` bits: the or of R123 is a sum, as the magnitude is below the
sign bit. -/
def signMagnitudePattern (v : Int) (b : Nat) : Nat :=
  if v < 0 then 2 ^ b + v.natAbs else v.natAbs

theorem signMagnitudeRaw_eq_pattern {v : Int} {b : Nat} (hv : v.natAbs < 2 ^ b) :
    signMagnitudeRaw v b = signMagnitudePattern v b := by
  rw [signMagnitudeRaw, signMagnitudePattern]
  split
  · rw [← Nat.shiftLeft_add_eq_or_of_lt hv, Nat.one_shiftLeft]
  · omega

theorem signMagnitudePattern_lt {v : Int} {b : Nat} (hv : v.natAbs < 2 ^ b) : signMagnitudePattern v b < 2 ^ (b + 1) := by
  rw [signMagnitudePattern, pow_succ]
  split <;> omega

theorem signMagnitudePattern_lt_width {v : Int} {b n : Nat} (hv : v.natAbs < 2 ^ b) (hb : b < 8 * n) :
    signMagnitudePattern v b < 2 ^ (8 * n) :=
  (signMagnitudePattern_lt hv).trans_le (Nat.pow_le_pow_right Nat.two_pos hb)

/-- Reading undoes the pattern: a negative number sets the sign bit, any other leaves it clear (R125). -/
theorem signMagnitudeValue_pattern {v : Int} {b : Nat} (hv : v.natAbs < 2 ^ b) :
    signMagnitudeValue (signMagnitudePattern v b) b = v := by
  rw [signMagnitudeValue_eq, signMagnitudePattern]
  by_cases hneg : v < 0
  · have hsign : (2 ^ b + v.natAbs) / 2 ^ b = 1 := by
      rw [Nat.add_div_left _ (Nat.two_pow_pos b), Nat.div_eq_of_lt hv]
    rw [if_pos hneg, hsign, if_pos rfl, Nat.add_mod_left, Nat.mod_eq_of_lt hv]
    omega
  · rw [if_neg hneg, Nat.div_eq_of_lt hv, if_neg (by decide), Nat.mod_eq_of_lt hv]
    omega

/-- In range the encoding loses nothing: the pattern has at most 8n bits. -/
theorem encodeSignMagnitude_of_range {v : Int} {b n : Nat} (hn : n = 1 ∨ n = 2 ∨ n = 4) (hb : b < 8 * n)
    (hv : v.natAbs < 2 ^ b) : encodeSignMagnitude v b n = .ok (bytesLE (signMagnitudePattern v b) n) := by
  rw [encodeSignMagnitude_of_lt hb, encodeUint_of_width hn, signMagnitudeRaw_eq_pattern hv,
    emod_toNat_of_lt (signMagnitudePattern_lt_width hv hb)]

theorem decodeSignMagnitude_bytesLE_pattern {v : Int} {b n : Nat} (hn : n = 1 ∨ n = 2 ∨ n = 4) (hb : b < 8 * n)
    (hv : v.natAbs < 2 ^ b) : decodeSignMagnitude (bytesLE (signMagnitudePattern v b) n) b = .ok v := by
  rw [decodeSignMagnitude_of_lt (by rwa [bytesLE_length]) (by rwa [bytesLE_length]),
    uintLE_bytesLE_of_lt (signMagnitudePattern_lt_width hv hb), signMagnitudeValue_pattern hv]

/-- Settles O3: the round trip goes through `signMagnitudePattern`, the reading through `signMagnitudeValue_eq`. -/
theorem signMagnitudeRoundTrips : Obligations.SignMagnitudeRoundTrips := by
  refine ⟨fun v b n hn hb hv => ?_, fun s b hs hb => ⟨_, decodeUint_of_width hs, ?_⟩, fun v b n =>
    ⟨fun hb => encodeSignMagnitude_of_lt hb v, fun hb => encodeSignMagnitude_of_le hb v⟩, fun s b =>
    ⟨fun hs hb => decodeSignMagnitude_of_le hs hb, fun hs => decodeSignMagnitude_of_not_width hs b⟩⟩
  · have hv : v.natAbs < 2 ^ b := Nat.lt_of_le_pred (Nat.two_pow_pos b) hv
    exact ⟨_, encodeSignMagnitude_of_range hn hb hv, decodeSignMagnitude_bytesLE_pattern hn hb hv⟩
  · rw [decodeSignMagnitude_of_lt hs hb, signMagnitudeValue_eq]

/-! Two's complement integers -/

theorem decodeIntSigned_of_width {s : List Byte} (hs : s.length = 1 ∨ s.length = 2 ∨ s.length = 4) :
    decodeIntSigned s = .ok (signExtend (8 * s.length) (uintLE s)) := by
  simp only [decodeIntSigned, decodeUint_of_width hs]

theorem decodeIntSigned_of_not_width {s : List Byte} (hs : ¬(s.length = 1 ∨ s.length = 2 ∨ s.length = 4)) :
    decodeIntSigned s = .error (.refuse .intWidth) := by
  simp only [decodeIntSigned, decodeUint_of_not_width hs]

/-- The top bit of an N-bit pattern is set exactly from 2^(N-1) on, so `sext_N` subtracts 2^N there (00_scope.md R11). -/
theorem signExtend_eq {n u : Nat} (hn : 0 < n) (hu : u < 2 ^ n) :
    signExtend n u = if 2 ^ (n - 1) ≤ u then (u : Int) - (2 ^ n : Nat) else (u : Int) := by
  have htop : u.testBit (n - 1) = true ↔ 2 ^ (n - 1) ≤ u :=
    ⟨Nat.ge_two_pow_of_testBit, fun h => Nat.testBit_of_two_pow_le_and_two_pow_add_one_gt h (by rwa [Nat.sub_add_cancel hn])⟩
  simp only [signExtend, htop]

/-- Settles O4: `decodeIntSigned` extends the sign of a pattern of 8n bits. -/
theorem decodeIntSignedIsTwosComplement : Obligations.DecodeIntSignedIsTwosComplement := by
  refine ⟨fun s hs => ⟨_, decodeUint_of_width hs, ?_⟩, fun s hs => decodeIntSigned_of_not_width hs⟩
  rw [decodeIntSigned_of_width hs, signExtend_eq (by omega) (uintLE_lt_two_pow s)]

end Sys2Proof.Laws
end

section
/-! Every packet an instruction sends is a packet of one builder (30_encoding.md R96), and so has a right LEN and a right checksum
(41_packet_codec.md R150) and the parameters of its instruction (30_encoding.md R86). -/

namespace Sys2Proof.Laws

open Machine

/-! The frame of a body -/

@[simp] theorem frame_length (body : List Byte) : (frame body).length = body.length + 3 := by simp [frame]

@[simp] theorem frame_drop_two (body : List Byte) : (frame body).drop 2 = body ++ [chk body] := rfl

/-- The bytes from ID to the last parameter are those the checksum covers. -/
theorem frame_covered (body : List Byte) : ((frame body).drop 2).take ((frame body).length - 3) = body := by
  rw [frame_length, Nat.add_sub_cancel, frame_drop_two, List.take_left]

theorem frame_last (body : List Byte) : (frame body)[(frame body).length - 1]? = some (chk body) := by
  rw [← List.getLast?_eq_getElem?]
  exact List.getLast?_concat (l := headerByte :: headerByte :: body)

/-- The sum from ID to the checksum, which complements the sum of what it covers (30_encoding.md R84). -/
theorem byteSum_append_chk (body : List Byte) : byteSum (body ++ [chk body]) % 256 = 255 := by
  rw [byteSum_append, byteSum, byteSum, chk_toNat]
  omega

/-! The packet behind an instruction's bytes -/

/-- Whatever the form of its operands, an instruction sends one packet in the layout of R80. -/
theorem encode_eq_packet {p : Params} {i : Instr} {s : List Byte} (h : encode p i = .ok s) :
    ∃ id code params, packet id code params = .ok s := by
  cases i with
  | ping id | action id | recovery id | reset id => exact ⟨_, _, _, h⟩
  | read id target =>
    obtain ⟨r, -, hb⟩ := bind_eq_ok ((encode_read p id target).symm.trans h)
    obtain ⟨-, -, hpacket⟩ := buildRead_ok hb
    exact ⟨_, _, _, hpacket⟩
  | write id form w =>
    obtain ⟨r, -, hb⟩ := bind_eq_ok ((encode_write p id form w).symm.trans h)
    exact ⟨_, _, _, buildWrite_ok hb⟩
  | regWrite id form =>
    obtain ⟨r, -, hb⟩ := bind_eq_ok ((encode_regWrite p id form).symm.trans h)
    exact ⟨_, _, _, buildRegWrite_ok hb⟩
  | syncRead ids target =>
    obtain ⟨r, -, hb⟩ := bind_eq_ok ((encode_syncRead p ids target).symm.trans h)
    obtain ⟨-, -, -, hpacket⟩ := buildSyncRead_ok hb
    exact ⟨_, _, _, hpacket⟩
  | syncWrite form =>
    obtain ⟨r, -, hb⟩ := bind_eq_ok ((encode_syncWrite p form).symm.trans h)
    obtain ⟨-, -, -, hpacket⟩ := buildSyncWrite_ok hb
    exact ⟨_, _, _, hpacket⟩

/-- LEN does not wrap: at most 253 parameters leave it below 256 (R140). -/
theorem lenByte_toNat {n : Nat} (h : n ≤ 253) : (BitVec.ofNat 8 (n + 2)).toNat = n + 2 := by
  rw [BitVec.toNat_ofNat]
  omega

theorem toByte_toNat_le_of_idOk {id : Int} (h : idOk id = true) : (toByte id).toNat ≤ 254 := by
  rw [toByte_toNat (byteOk_of_idOk h)]
  rw [idOk_iff] at h
  omega

/-- Settles O6: every instruction sends one `packet`, which is the frame of at most 253 parameters. -/
theorem everyBuiltPacketIsChecksummed : Obligations.EveryBuiltPacketIsChecksummed := by
  intro p i s h
  obtain ⟨id, code, params, hpacket⟩ := encode_eq_packet h
  obtain ⟨hid, -, hlen, rfl⟩ := packet_ok hpacket
  have hlength : (frame (toByte id :: BitVec.ofNat 8 (params.length + 2) :: code :: params.map toByte)).length
      = params.length + 6 := by simp
  refine ⟨by omega, by omega, ⟨_, rfl, ?_⟩, ⟨_, rfl, toByte_toNat_le_of_idOk hid⟩, ⟨_, frame_last _, ?_⟩, ?_⟩
  · rw [lenByte_toNat hlen, hlength]
  · rw [frame_covered, chk_toNat]
  · rw [frame_drop_two, byteSum_append_chk]

/-! The parameters of each instruction -/

theorem frame_of_packet {id : Int} {code : Byte} {params : List Int} {s : List Byte} (h : packet id code params = .ok s) :
    s = frame (toByte id :: BitVec.ofNat 8 (params.length + 2) :: code :: params.map toByte) := by
  obtain ⟨-, -, -, hs⟩ := packet_ok h
  exact hs

/-- The parameter bytes of a SYNC_WRITE's pairs are one group per servo, its ID before its data (R148). -/
theorem syncWriteParams_eq_flatMap (pairs : List (Int × List Int)) :
    syncWriteParams pairs = pairs.flatMap fun e => e.1 :: e.2 := by
  induction pairs with
  | nil => rfl
  | cons e pairs ih => rw [syncWriteParams, ih, List.flatMap_cons, List.cons_append]

theorem map_syncWriteParams (pairs : List (Int × List Int)) :
    (syncWriteParams pairs).map toByte = pairs.flatMap fun e => toByte e.1 :: e.2.map toByte := by
  rw [syncWriteParams_eq_flatMap, List.map_flatMap]
  rfl

theorem syncWriteParams_length {l : Int} {pairs : List (Int × List Int)} (h : ∀ e ∈ pairs, (e.2.length : Int) = l) :
    (syncWriteParams pairs).length = pairs.length * (l.toNat + 1) := by
  induction pairs with
  | nil => rw [syncWriteParams, List.length_nil, List.length_nil, Nat.zero_mul]
  | cons e pairs ih =>
    obtain ⟨he, hrest⟩ := List.forall_mem_cons.1 h
    rw [syncWriteParams, List.length_cons, List.length_append, ih hrest, List.length_cons, Nat.succ_mul]
    omega

theorem frame_of_buildSyncWrite {a l : Int} {pairs : List (Int × List Int)} {s : List Byte}
    (h : buildSyncWrite a l pairs = .ok s) :
    s = frame (0xFE#8 :: BitVec.ofNat 8 (pairs.length * (l.toNat + 1) + 4) :: 0x83#8 :: toByte a :: toByte l
          :: pairs.flatMap (fun e => toByte e.1 :: e.2.map toByte))
      ∧ ∀ e ∈ pairs, (e.2.length : Int) = l := by
  obtain ⟨-, -, hpairs, hpacket⟩ := buildSyncWrite_ok h
  rw [syncWritePairsCheck_eq_none_iff] at hpairs
  have hlen : ∀ e ∈ pairs, (e.2.length : Int) = l := fun e he => (hpairs e he).2
  refine ⟨?_, hlen⟩
  rw [frame_of_packet hpacket, List.length_cons, List.length_cons, syncWriteParams_length hlen, List.map_cons, List.map_cons,
    map_syncWriteParams]
  rfl

/-- Settles O7: each builder is one call of `packet`, whose layout is `frame_of_packet`. -/
theorem eachInstructionHasItsParameterLayout : Obligations.EachInstructionHasItsParameterLayout := by
  refine ⟨fun p i id s code hi h => ?_, fun p id a l s h => ?_, fun p id a data w s h => ⟨frame_of_packet (buildWrite_ok h), rfl⟩,
    fun p id a data s h => ⟨frame_of_packet (buildRegWrite_ok h), rfl⟩, fun p a l ids s h => ?_, fun p a l pairs s h => ?_⟩
  · obtain ⟨rfl, rfl⟩ | ⟨rfl, rfl⟩ | ⟨rfl, rfl⟩ | ⟨rfl, rfl⟩ := hi <;> exact ⟨frame_of_packet h, rfl⟩
  · obtain ⟨-, -, hpacket⟩ := buildRead_ok h
    exact ⟨frame_of_packet hpacket, rfl⟩
  · obtain ⟨-, -, -, hpacket⟩ := buildSyncRead_ok h
    exact ⟨frame_of_packet hpacket, rfl⟩
  · obtain ⟨hs, hlen⟩ := frame_of_buildSyncWrite h
    exact ⟨hs, hlen, rfl⟩

end Sys2Proof.Laws
end

section
/-! The reframer and the response parser (41_packet_codec.md R151 to R155): the one shape of what the reframer splits off, and the
answer of the parser on it. -/

namespace Sys2Proof.Laws

open Machine

/-! Pieces that the reframer splits off whole -/

/-- A string that starts with the header and has as many bytes as its LEN byte announces, right or wrong in all else (R152). -/
def IsPiece (p : List Byte) : Prop :=
  ∃ id len rest, p = 0xFF#8 :: 0xFF#8 :: id :: len :: rest ∧ rest.length = len.toNat

theorem isPiece_iff (p : List Byte) :
    IsPiece p ↔ p.take 2 = [0xFF#8, 0xFF#8] ∧ ∃ len, p[3]? = some len ∧ p.length = len.toNat + 4 := by
  constructor
  · rintro ⟨id, len, rest, rfl, hlen⟩
    exact ⟨rfl, len, rfl, by simp [hlen]⟩
  · rintro ⟨hheader, len, hlen, hlength⟩
    match p with
    | [] | [_] | [_, _] | [_, _, _] => cases hlen
    | h0 :: h1 :: id :: len' :: rest =>
      obtain ⟨rfl, rfl⟩ : h0 = 0xFF#8 ∧ h1 = 0xFF#8 := by simpa using hheader
      obtain rfl : len' = len := Option.some.inj hlen
      exact ⟨id, len', rest, rfl, by simpa using hlength⟩

theorem replyFrame_eq (id status : Byte) (params : List Byte) :
    replyFrame id status params = 0xFF#8 :: 0xFF#8 :: id :: BitVec.ofNat 8 (params.length + 2) :: status
      :: (params ++ [chk (id :: BitVec.ofNat 8 (params.length + 2) :: status :: params)]) := rfl

/-- A reply has LEN as its number of parameters plus 2, without wrap (30_encoding.md R81). -/
theorem isPiece_replyFrame (id status : Byte) {params : List Byte} (h : params.length ≤ 253) :
    IsPiece (replyFrame id status params) := by
  refine ⟨id, _, _, replyFrame_eq id status params, ?_⟩
  rw [lenByte_toNat h]
  simp

/-! The reframer -/

theorem extractAligned_of_lt {h0 h1 id len : Byte} {rest : List Byte} (h : rest.length < len.toNat) :
    extractAligned (h0 :: h1 :: id :: len :: rest) = .incomplete (h0 :: h1 :: id :: len :: rest) :=
  if_pos (Nat.add_lt_add_right h 4)

theorem extractAligned_append (h0 h1 id len : Byte) {rest : List Byte} (h : rest.length = len.toNat) (c : List Byte) :
    extractAligned (h0 :: h1 :: id :: len :: (rest ++ c)) = .complete (h0 :: h1 :: id :: len :: rest) c := by
  simp [extractAligned, ← h]

/-- On a buffer that starts with two bytes, the reframer keeps the whole buffer or splits off LEN + 4 bytes. -/
theorem extractAligned_cases (h0 h1 : Byte) (rest : List Byte) :
    extractAligned (h0 :: h1 :: rest) = .incomplete (h0 :: h1 :: rest)
    ∨ ∃ id len params c, rest = id :: len :: (params ++ c) ∧ params.length = len.toNat
        ∧ extractAligned (h0 :: h1 :: rest) = .complete (h0 :: h1 :: id :: len :: params) c := by
  match rest with
  | [] | [_] => exact .inl rfl
  | id :: len :: rest =>
    by_cases h : rest.length < len.toNat
    · exact .inl (extractAligned_of_lt h)
    · have htake : (rest.take len.toNat).length = len.toNat := List.length_take_of_le (Nat.not_lt.1 h)
      have hsplit := extractAligned_append h0 h1 id len htake (rest.drop len.toNat)
      rw [List.take_append_drop] at hsplit
      exact .inr ⟨id, len, _, _, by rw [List.take_append_drop], htake, hsplit⟩

/-- A byte that cannot begin the header is discarded, when the next byte shows it. -/
theorem extractPacket_discard {b0 b1 : Byte} (h : ¬(b0 = headerByte ∧ b1 = headerByte)) (rest : List Byte) :
    extractPacket (b0 :: b1 :: rest) = extractPacket (b1 :: rest) := by
  rw [extractPacket, if_neg h]

theorem extractPacket_piece_append {p : List Byte} (h : IsPiece p) (c : List Byte) : extractPacket (p ++ c) = .complete p c := by
  obtain ⟨id, len, rest, rfl, hlen⟩ := h
  exact (extractPacket_header _).trans (extractAligned_append _ _ id len hlen c)

/-- What the reframer splits off is a piece of the buffer, and only what is before it is lost (R153 (c)). -/
theorem extractPacket_complete {b p r : List Byte} (h : extractPacket b = .complete p r) :
    IsPiece p ∧ ∃ garbage, b = garbage ++ p ++ r := by
  induction b using extractPacket.induct with
  | case1 => cases h
  | case2 => simp [extractPacket] at h
  | case3 b hb => simp [extractPacket, hb] at h
  | case4 b0 b1 rest hb =>
    obtain ⟨rfl, rfl⟩ := hb
    rw [extractPacket_header] at h
    obtain hkept | ⟨id, len, params, c, rfl, hlen, hsplit⟩ := extractAligned_cases 0xFF#8 0xFF#8 rest
    · simp [hkept] at h
    · obtain ⟨rfl, rfl⟩ : _ = p ∧ c = r := by simpa [hsplit] using h
      exact ⟨⟨id, len, params, rfl, hlen⟩, [], rfl⟩
  | case5 b0 b1 rest hb ih =>
    rw [extractPacket_discard hb] at h
    obtain ⟨hp, garbage, hrest⟩ := ih h
    exact ⟨hp, b0 :: garbage, by rw [hrest]; rfl⟩

/-- Settles O15, along the reframer's recursion: a discarded byte is discarded whatever follows it. -/
theorem reframerKeepsWhatMayComplete : Obligations.ReframerKeepsWhatMayComplete := by
  intro b b' h
  induction b using extractPacket.induct with
  | case1 =>
    obtain rfl : [] = b' := Extract.incomplete.inj h
    exact ⟨rfl, fun c => rfl⟩
  | case2 =>
    obtain rfl : [headerByte] = b' := by simpa [extractPacket] using h
    exact ⟨h, fun c => rfl⟩
  | case3 b hb =>
    obtain rfl : [] = b' := by simpa [extractPacket, hb] using h
    exact ⟨rfl, fun c => extractPacket_skip [b] c (by simpa using Ne.symm hb)⟩
  | case4 b0 b1 rest hb =>
    obtain ⟨rfl, rfl⟩ := hb
    obtain hkept | ⟨id, len, params, c, -, -, hsplit⟩ := extractAligned_cases 0xFF#8 0xFF#8 rest
    · obtain rfl : _ = b' := by simpa [extractPacket_header, hkept] using h
      exact ⟨h, fun c => rfl⟩
    · simp [extractPacket_header, hsplit] at h
  | case5 b0 b1 rest hb ih =>
    rw [extractPacket_discard hb] at h
    obtain ⟨hstable, happend⟩ := ih h
    exact ⟨hstable, fun c => (extractPacket_discard hb (rest ++ c)).trans (happend c)⟩

/-- Settles O17, by induction on the pieces: the garbage before each is skipped, and the piece split off whole. -/
theorem reframerRecoversTheStream : Obligations.ReframerRecoversTheStream := by
  intro pieces last hpieces hlast
  induction pieces with
  | nil => simpa [drains, extractPacket] using extractPacket_skip last [] hlast
  | cons q pieces ih =>
    obtain ⟨⟨hgarbage, hpiece⟩, hrest⟩ := List.forall_mem_cons.1 hpieces
    refine ⟨pieces.flatMap (fun q => q.1 ++ q.2) ++ last, ?_, ih hrest⟩
    rw [List.flatMap_cons, List.append_assoc, List.append_assoc, extractPacket_skip _ _ hgarbage,
      extractPacket_piece_append ((isPiece_iff q.2).2 hpiece)]

/-! The response parser -/

section
variable (id len status : Byte) {params : List Byte}

/-- A LEN below 2, or above the number of bytes that follow it, makes the packet incomplete. -/
theorem parseResponse_incomplete {rest : List Byte} (h : rest.length < len.toNat ∨ len.toNat < 2) :
    parseResponse (0xFF#8 :: 0xFF#8 :: id :: len :: rest) = .error .incompletePacket := by
  simp only [parseResponse, and_self, if_true, parseBody, List.length_cons]
  split
  · rfl
  · rw [if_pos (by omega)]

/-- Where LEN is 2 or more and its bytes are there, the checksum alone decides. -/
theorem parseResponse_checksum (hlen : params.length + 2 = len.toNat) (c : Byte) (trailing : List Byte) :
    parseResponse (0xFF#8 :: 0xFF#8 :: id :: len :: status :: (params ++ c :: trailing))
      = if chk (id :: len :: status :: params) = c then .ok ⟨id, status, params⟩ else .error .invalidChecksum := by
  simp [parseResponse, parseBody, ← hlen, parseCovered]

end

/-- The bytes after a LEN of 2 or more that they reach: status, parameters, checksum and what follows the packet. -/
theorem exists_status_params_checksum {n : Nat} {rest : List Byte} (hn : 2 ≤ n) (h : n ≤ rest.length) :
    ∃ status params c trailing, rest = status :: (params ++ c :: trailing) ∧ params.length + 2 = n := by
  obtain ⟨k, rfl⟩ : ∃ k, n = k + 2 := ⟨n - 2, by omega⟩
  match rest with
  | [] => simp at h
  | status :: rest =>
    have hk : k < rest.length := by simpa using h
    exact ⟨status, rest.take k, rest[k], rest.drop (k + 1), by simp, by simp [Nat.le_of_lt hk]⟩

/-- A response that parses starts with the header and has a LEN byte. -/
theorem parseResponse_ok_header {s : List Byte} {r : Response} (h : parseResponse s = .ok r) :
    ∃ id len rest, s = 0xFF#8 :: 0xFF#8 :: id :: len :: rest := by
  unfold parseResponse at h
  split at h
  next h0 h1 body =>
    split at h
    next hheader =>
      obtain ⟨rfl, rfl⟩ := hheader
      split at h
      next id len rest => exact ⟨id, len, rest, rfl⟩
      next => cases h
    next => cases h
  next => cases h

theorem parseResponse_replyFrame (id status : Byte) {params : List Byte} (h : params.length ≤ 253) (trailing : List Byte) :
    parseResponse (replyFrame id status params ++ trailing) = .ok ⟨id, status, params⟩ := by
  have hparse := parseResponse_checksum id _ status (lenByte_toNat h).symm
    (chk (id :: BitVec.ofNat 8 (params.length + 2) :: status :: params)) trailing
  rw [if_pos rfl] at hparse
  simpa [replyFrame_eq] using hparse

/-- A response that parses begins with the frame of its fields: none of the parser's checks failed. -/
theorem replyFrame_of_parseResponse {s : List Byte} {r : Response} (h : parseResponse s = .ok r) :
    r.params.length ≤ 253 ∧ ∃ trailing, s = replyFrame r.id r.status r.params ++ trailing := by
  obtain ⟨id, len, rest, rfl⟩ := parseResponse_ok_header h
  by_cases hshort : rest.length < len.toNat ∨ len.toNat < 2
  · rw [parseResponse_incomplete id len hshort] at h
    cases h
  · obtain ⟨status, params, c, trailing, rfl, hlen⟩ := exists_status_params_checksum
      (n := len.toNat) (rest := rest) (by omega) (by omega)
    rw [parseResponse_checksum id len status hlen] at h
    split at h
    next hchk =>
      obtain rfl := Except.ok.inj h
      have hLEN : BitVec.ofNat 8 (params.length + 2) = len := by rw [hlen, BitVec.ofNat_toNat, BitVec.setWidth_eq]
      have hbound : len.toNat < 256 := len.isLt
      have hparams : params.length ≤ 253 := by omega
      exact ⟨hparams, trailing, by simp [replyFrame_eq, hLEN, hchk]⟩
    next => cases h

/-- Settles O14: the parser accepts exactly the frames of replies, and those are pieces. -/
theorem parseResponseAcceptsExactlyValidFrames : Obligations.ParseResponseAcceptsExactlyValidFrames := by
  refine ⟨fun s r => ⟨replyFrame_of_parseResponse, ?_⟩, fun id status params c h =>
    ⟨extractPacket_piece_append (isPiece_replyFrame id status h) c, ?_⟩⟩
  · rintro ⟨hlen, trailing, rfl⟩
    exact parseResponse_replyFrame r.id r.status hlen trailing
  · simpa using parseResponse_replyFrame id status h []

/-- A piece with a LEN of 2 or more can fail to parse for its checksum alone (R155). -/
theorem parseResponse_piece_error {id len : Byte} {rest : List Byte} (hrest : rest.length = len.toNat) (hlen : 2 ≤ len.toNat)
    {e : Error} (h : parseResponse (0xFF#8 :: 0xFF#8 :: id :: len :: rest) = .error e) : e = .invalidChecksum := by
  obtain ⟨status, params, c, trailing, rfl, hparams⟩ := exists_status_params_checksum hlen hrest.ge
  rw [parseResponse_checksum id len status hparams] at h
  split at h
  · cases h
  · exact (Except.error.inj h).symm

/-- Settles O16: what the reframer splits off is a piece, and of a piece the parser misses bytes only if LEN is below 2. -/
theorem reframerSplitsOnePacketOff : Obligations.ReframerSplitsOnePacketOff := by
  intro b p r h
  obtain ⟨hpiece, hgarbage⟩ := extractPacket_complete h
  obtain ⟨hheader, hlength⟩ := (isPiece_iff p).1 hpiece
  refine ⟨hgarbage, hheader, hlength, ?_⟩
  obtain ⟨id, len, rest, rfl, hrest⟩ := hpiece
  by_cases hlen : len.toNat < 2
  · have hparse := parseResponse_incomplete id len (rest := rest) (.inr hlen)
    exact ⟨fun e he => .inr (Except.error.inj (he.symm.trans hparse)), fun _ => ⟨len, rfl, hlen⟩, fun _ => hparse⟩
  · have herror := @parseResponse_piece_error id len rest hrest (Nat.not_lt.1 hlen)
    refine ⟨fun e he => .inl (herror he), fun he => absurd (herror he) (by decide), ?_⟩
    rintro ⟨len', hlen', hlt⟩
    obtain rfl := Option.some.inj hlen'
    exact absurd hlt hlen

end Sys2Proof.Laws
end

section
/-! The control table by name (42_control_table.md R170): lookup finds the registers of the table and no other, and an operation
that names another register ends before a byte is sent. In the raw view (R190, R192) no conversion is applied. -/

namespace Sys2Proof.Laws

open Machine

/-! Lookup -/

theorem lookupRegister_eq_ok_iff {m : ServoModel} {name : String} {d : RegisterDef} :
    lookupRegister (tableOf m) name = .ok d ↔ (name, d) ∈ (tableOf m).registers := by
  refine ⟨fun h => ?_, lookupRegister_of_mem⟩
  unfold lookupRegister at h
  split at h
  next hfind =>
    cases h
    obtain ⟨before, after, hregisters, -⟩ := List.lookup_eq_some_iff.1 hfind
    rw [hregisters]
    exact List.mem_append_right _ List.mem_cons_self
  next => cases h

theorem findRegister_of_mem {m : ServoModel} {name : String} {d : RegisterDef} (h : (name, d) ∈ (tableOf m).registers) :
    findRegister (tableOf m) name = some d :=
  lookup_of_mem (registers_keys_nodup m) h

/-- Lookup has one way to fail. -/
theorem lookupRegister_of_forall_not_mem {m : ServoModel} {name : String} (h : ∀ d, (name, d) ∉ (tableOf m).registers) :
    lookupRegister (tableOf m) name = .error (.err .unknownRegister) := by
  cases hlookup : lookupRegister (tableOf m) name with
  | ok d => exact absurd (lookupRegister_eq_ok_iff.1 hlookup) (h d)
  | error e =>
    unfold lookupRegister at hlookup
    split at hlookup
    · cases hlookup
    · exact hlookup.symm

/-! Operations that name a register -/

/-- The register an operation names, if it names one. -/
def registerName : Instr → Option String
  | .read _ (.named name _) | .write _ (.named name _ _) _ | .regWrite _ (.named name _) | .syncRead _ (.named name _)
  | .syncWrite (.named name _ _) => some name
  | .read _ (.addressed _ _) | .write _ (.addressed _ _) _ | .regWrite _ (.addressed _ _) | .syncRead _ (.addressed _ _)
  | .syncWrite (.addressed _ _ _) | .ping _ | .action _ | .recovery _ | .reset _ => none

/-- Lookup comes first, so its failure is that of the whole packet (60_exceptions.md R271 step 2). -/
theorem encode_of_lookup_error {p : Params} {e : Stop} : ∀ {i : Instr} {name : String}, registerName i = some name →
    lookupRegister p.table name = .error e → encode p i = .error e
  | .read _ (.named _ _), _, rfl, h => by
    rw [encode_read, resolveRead, h]
    rfl
  | .write _ (.named _ _ _) _, _, rfl, h => by
    rw [encode_write, resolveWrite, h]
    rfl
  | .regWrite _ (.named _ _), _, rfl, h => by
    rw [encode_regWrite, resolveRegWrite, h]
    rfl
  | .syncRead _ (.named _ _), _, rfl, h => by
    rw [encode_syncRead, resolveRead, h]
    rfl
  | .syncWrite (.named _ _ _), _, rfl, h => by
    rw [encode_syncWrite, resolveSyncWrite, h]
    rfl

/-- An admitted operation whose packet cannot be built ends at once (60_exceptions.md R271). -/
theorem exec_of_encode_error {s : State} {i : Instr} {e : Stop} (hready : s.ready) (hids : admitIds i = none)
    (h : encode s.params i = .error e) : exec i s = .next (s.rejectEagerly e) := by
  obtain ⟨hopen, hidle⟩ := hready
  have hadmit : admission i s = none := (admission_eq_none_iff i s).2 ⟨hopen, hidle, hids⟩
  rw [exec_eq_transact, transact, if_neg fun hbusy => hbusy.1 hidle]
  simp only [begin, hadmit, h]

/-- Settles O20: the keys are unique, and an operation by name looks its register up before all else. -/
theorem lookupFindsExactlyTheTable : Obligations.LookupFindsExactlyTheTable := by
  refine ⟨fun _ _ _ => lookupRegister_eq_ok_iff, fun _ _ => lookupRegister_of_forall_not_mem,
    fun s i name hready hids hunknown hnamed => ?_⟩
  have hname : registerName i = some name := by
    obtain ⟨_, _, rfl⟩ | ⟨_, _, _, _, rfl⟩ | ⟨_, _, rfl⟩ | ⟨_, _, rfl⟩ | ⟨_, _, rfl⟩ := hnamed <;> rfl
  exact exec_of_encode_error hready hids (encode_of_lookup_error hname (lookupRegister_of_forall_not_mem hunknown))

/-! The lengths of the registers -/

/-- Every definition in a table is well formed (10_state.md R35). -/
theorem registerOk_of_mem {m : ServoModel} {name : String} {d : RegisterDef} (h : (name, d) ∈ (tableOf m).registers) :
    registerOk d = true := by
  have hall : (tableOf m).registers.all (fun r => registerOk r.2) = true := by
    cases m
    decide +kernel
  exact List.all_eq_true.1 hall _ h

theorem registerOk_iff (d : RegisterDef) :
    registerOk d = true ↔ d.address ≤ 255 ∧ (d.length = 1 ∨ d.length = 2 ∨ d.length = 4)
      ∧ (∀ f, d.conversion = .scale f → 0 < f)
      ∧ (d.conversion = .position ∨ d.conversion = .speedSigned ∨ d.conversion = .loadSigned ∨ d.conversion = .positionOffset →
        d.length = 2) := by
  cases hc : d.conversion <;> simp [registerOk, hc, widthOk_iff, and_assoc]

theorem length_of_mem {m : ServoModel} {name : String} {d : RegisterDef} (h : (name, d) ∈ (tableOf m).registers) :
    d.length = 1 ∨ d.length = 2 ∨ d.length = 4 := by
  obtain ⟨-, hlength, -, -⟩ := (registerOk_iff d).1 (registerOk_of_mem h)
  exact hlength

/-! The raw view -/

theorem decodeRaw_of_width {s : List Byte} (hs : s.length = 1 ∨ s.length = 2 ∨ s.length = 4) :
    decodeRaw s = .ok (.int (uintLE s)) := by
  simp only [decodeRaw, decodeUint_of_width hs]

/-- In the raw view a value that is not an integer is refused (R190). -/
theorem encodeRawDef_of_not_int (d : RegisterDef) {v : UserValue} (hv : ∀ z, v ≠ .int z) :
    encodeRawDef d v = .error (.refuse .valueKind) := by
  cases v with
  | int z => exact absurd rfl (hv z)
  | num _ | flag _ | mode _ | baud _ => rfl

section
variable {p : Params} {name : String} {d : RegisterDef} (hmem : (name, d) ∈ p.table.registers)
include hmem

theorem encodeByName_raw (v : UserValue) : encodeByName p name .raw v = encodeRawDef d v :=
  encodeByName_of_lookup (lookupRegister_of_mem hmem) .raw v

/-- A SYNC_WRITE in the raw view with a value that is not an integer fails there at the latest, and before it nothing
else can fail. -/
theorem encodePairs_raw_of_not_int {pairs : List (Int × UserValue)} (h : ∃ e ∈ pairs, ∀ z, e.2 ≠ .int z) :
    encodePairs p .raw d pairs = .error (.refuse .valueKind) := by
  induction pairs with
  | nil =>
    obtain ⟨e, he, -⟩ := h
    cases he
  | cons q pairs ih =>
    by_cases hq : ∀ z, q.2 ≠ .int z
    · simp only [encodePairs, encodeView, encodeRawDef_of_not_int d hq]
    · obtain ⟨z, hz⟩ := not_forall_not.1 hq
      obtain ⟨e, he, hnot⟩ := h
      have hrest : e ∈ pairs := by
        refine (List.mem_cons.1 he).resolve_left fun heq => hq ?_
        rwa [← heq]
      simp only [encodePairs, encodeView, hz, encodeRawDef, encodeUint_of_width (length_of_mem hmem), ih ⟨e, hrest, hnot⟩]

/-- A raw-mode read gives the unsigned integer, whatever the conversion (R192). -/
theorem readParams_raw {s : List Byte} (hs : s.length = d.length) :
    readParams p (.named name .raw) s = some (.value (.int (uintLE s))) := by
  have hfind : findRegister p.table name = some d := findRegister_of_mem hmem
  simp only [readParams, hfind, if_pos hs, viewValue]

/-- A WRITE in the raw view is the WRITE of those bytes at the register's address (R190, 30_encoding.md R96). -/
theorem encode_write_raw_int {z : Int} {s : List Byte} (hs : encodeUint z d.length = .ok s) (id : Int) (w : Bool) :
    encode p (.write id (.named name (.int z) .raw) w) = encode p (.write id (.addressed d.address (byteInts s)) w) := by
  rw [encode_write_named (lookupRegister_of_mem hmem), encodeByName_raw hmem, encodeRawDef, hs, encode_write]
  rfl

/-- A SYNC_WRITE in the raw view is that of each integer's bytes at the register's address (R190, 30_encoding.md R96). -/
theorem encode_syncWrite_raw_int {bytes : Int → List Byte} (hbytes : ∀ z, encodeUint z d.length = .ok (bytes z))
    (pairs : List (Int × Int)) :
    encode p (.syncWrite (.named name (pairs.map fun e => (e.1, .int e.2)) .raw))
      = encode p (.syncWrite (.addressed d.address d.length (pairs.map fun e => (e.1, byteInts (bytes e.2))))) := by
  have hpairs : encodePairs p .raw d (pairs.map fun e => (e.1, .int e.2))
      = .ok (pairs.map fun e => (e.1, byteInts (bytes e.2))) := by
    have hentries := encodePairs_of_forall_ok (lookupRegister_of_mem hmem) (view := .raw)
      (entries := pairs.map fun e => ((e.1, .int e.2), bytes e.2))
      (List.forall_mem_map.2 fun e _ => (encodeByName_raw hmem (.int e.2)).trans (hbytes e.2))
    rw [List.map_map, List.map_map] at hentries
    exact hentries
  rw [encode_syncWrite_named (lookupRegister_of_mem hmem), hpairs, encode_syncWrite]
  rfl

end

/-- Settles O24: in the raw view the conversion of a register is never looked at. -/
theorem rawReadsAreUnsigned : Obligations.RawReadsAreUnsigned := by
  refine ⟨fun s hs => ⟨_, decodeUint_of_width hs, decodeRaw_of_width hs⟩, fun p name d s hmem hs => ?_,
    fun p name v hunknown => ?_, fun p name d hmem => ⟨fun z => ?_, fun bytes hbytes => encode_syncWrite_raw_int hmem hbytes,
      fun v hv => ?_, fun pairs hpairs => ?_⟩⟩
  · exact ⟨_, decodeUint_of_width (by rw [hs]; exact length_of_mem hmem), readParams_raw hmem hs⟩
  · have hlookup : lookupRegister p.table name = .error (.err .unknownRegister) := lookupRegister_of_forall_not_mem hunknown
    simp only [encodeRaw, hlookup]
  · have hs := encodeUint_of_width (length_of_mem hmem) z
    exact ⟨_, hs, (encodeByName_raw hmem _).trans hs, encode_write_raw_int hmem hs⟩
  · have hraw : encodeByName p name .raw v = .error (.refuse .valueKind) := by
      rw [encodeByName_raw hmem, encodeRawDef_of_not_int d hv]
    refine ⟨hraw, fun id w => ?_⟩
    rw [encode_write_named (lookupRegister_of_mem hmem), hraw]
    rfl
  · rw [encode_syncWrite_named (lookupRegister_of_mem hmem), encodePairs_raw_of_not_int hmem hpairs]
    rfl

end Sys2Proof.Laws
end

section
/-! The conversions of the control table (42_control_table.md R172 to R195): the factors are positive reals, a numeric value is
the rounded quotient by its factor as an unsigned or a sign-magnitude integer, and decoding multiplies that integer by the
factor again. Flags, modes and baud rates are small raw values and read back as themselves. -/

namespace Sys2Proof.Laws

open Machine

/-! The factors -/

theorem realOf_positionScale (m : ServoModel) : realOf (tableOf m).positionScale = 2 * Real.pi / 4096 := by
  cases m
  simp only [tableOf, sts3215, realOf, Rat.mkRat_eq_div]
  push_cast
  ring

theorem realOf_speedScale (m : ServoModel) : realOf (tableOf m).speedScale = 50 * realOf (tableOf m).positionScale := by
  cases m
  exact (realOf_piScale 50 _).trans (by norm_num [tableOf, sts3215])

theorem realOf_loadFactor : realOf loadFactor = 1 / 10 := by
  simp only [loadFactor, realOf, Rat.mkRat_eq_div]
  norm_num

theorem realOf_oneStep : realOf oneStep = 1 := by
  rw [oneStep, realOf_piInt, Int.cast_one]

/-- Settles O18: the two scales of R172 as reals. -/
theorem scalesOfTheSTS3215 : Obligations.ScalesOfTheSTS3215 :=
  fun m => ⟨by cases m; rfl, realOf_positionScale m, realOf_speedScale m⟩

/-- Every factor is one that rounding is exact for (42_control_table.md R193, R196). -/
theorem conversionFactor_pos {m : ServoModel} {c : Conversion} {f : PiNum} (hscale : ∀ q, c = .scale q → 0 < q)
    (hf : conversionFactor (tableOf m) c = some f) : 0 < f.rat + f.pi ∧ 0 ≤ f.pi := by
  cases m
  cases c with
  | none | positionOffset =>
    cases hf
    exact ⟨by norm_num [oneStep, piInt], le_refl _⟩
  | scale q =>
    cases hf
    exact ⟨by simpa [scaleFactor] using hscale q rfl, le_refl _⟩
  | position =>
    cases hf
    norm_num [tableOf, sts3215, Rat.mkRat_eq_div]
  | speed | speedSigned =>
    cases hf
    norm_num [tableOf, sts3215, piScale, Rat.mkRat_eq_div]
  | loadSigned =>
    cases hf
    norm_num [loadFactor, Rat.mkRat_eq_div]
  | bool | mode | baudRate => cases hf

theorem realOf_pos {f : PiNum} (hpos : 0 < f.rat + f.pi) (hpi : 0 ≤ f.pi) : 0 < realOf f := by
  have hpos' : (0 : ℝ) < f.rat + f.pi := by exact_mod_cast hpos
  exact hpos'.trans_le (rat_add_pi_le_realOf hpi)

theorem realOfCut_userCut (x : UserReal) : realOfCut (userCut x) = userRealOf x := by
  cases x with
  | exact x => exact realOfCut_cutOf x
  | named n => rfl

/-! Numeric values as raw integers -/

/-- The sign bit of a conversion, none for an unsigned one (R177). -/
def signBit : Conversion → Option Nat
  | .position | .speedSigned => some 15
  | .loadSigned => some 10
  | .positionOffset => some 11
  | .none | .bool | .scale _ | .speed | .mode | .baudRate => none

/-- The raw integer of bytes under a conversion (R180 to R187). -/
def rawInteger (c : Conversion) (s : List Byte) : Int :=
  match signBit c with
  | some b => signMagnitudeValue (uintLE s) b
  | none => uintLE s

theorem encodeStep_eq (len : Nat) (z : Int) (c : Conversion) :
    encodeStep len z c = match signBit c with
      | some b => encodeSignMagnitude z b 2
      | none => encodeUint z len := by
  cases c <;> rfl

theorem rawRange_eq (len : Nat) (c : Conversion) :
    rawRange len c = match signBit c with
      | some b => (-(2 ^ b - 1), 2 ^ b - 1)
      | none => (0, 2 ^ (8 * len) - 1) := by
  cases c <;> rfl

theorem signBit_lt {c : Conversion} {b : Nat} (h : signBit c = some b) : b < 8 * 2 := by
  cases c <;> cases h <;> decide

theorem length_of_signBit {m : ServoModel} {name : String} {d : RegisterDef} (hmem : (name, d) ∈ (tableOf m).registers)
    {b : Nat} (h : signBit d.conversion = some b) : d.length = 2 := by
  obtain ⟨-, -, -, htwo⟩ := (registerOk_iff d).1 (registerOk_of_mem hmem)
  apply htwo
  cases hc : d.conversion <;> simp [hc, signBit] at h ⊢

theorem scale_pos_of_mem {m : ServoModel} {name : String} {d : RegisterDef} (hmem : (name, d) ∈ (tableOf m).registers)
    (q : Rat) (h : d.conversion = .scale q) : 0 < q := by
  obtain ⟨-, -, hscale, -⟩ := (registerOk_iff d).1 (registerOk_of_mem hmem)
  exact hscale q h

/-- Every raw integer is encoded, in as many bytes as the register has. -/
theorem encodeStep_ok {m : ServoModel} {name : String} {d : RegisterDef} (hmem : (name, d) ∈ (tableOf m).registers) (z : Int) :
    ∃ s, encodeStep d.length z d.conversion = .ok s ∧ s.length = d.length := by
  rw [encodeStep_eq]
  cases hb : signBit d.conversion with
  | none => exact ⟨_, encodeUint_of_width (length_of_mem hmem) z, bytesLE_length _ _⟩
  | some b =>
    refine ⟨_, (encodeSignMagnitude_of_lt (signBit_lt hb) z).trans (encodeUint_of_width (by decide) _), ?_⟩
    rw [bytesLE_length, length_of_signBit hmem hb]

/-- In range a raw integer reads back as itself (R195). -/
theorem encodeStep_of_range {m : ServoModel} {name : String} {d : RegisterDef} (hmem : (name, d) ∈ (tableOf m).registers)
    {z : Int} (hlow : (rawRange d.length d.conversion).1 ≤ z) (hhigh : z ≤ (rawRange d.length d.conversion).2) :
    ∃ s, encodeStep d.length z d.conversion = .ok s ∧ s.length = d.length ∧ rawInteger d.conversion s = z := by
  rw [rawRange_eq] at hlow hhigh
  rw [encodeStep_eq]
  cases hb : signBit d.conversion with
  | none =>
    simp only [hb] at hlow hhigh
    obtain ⟨r, rfl⟩ := Int.eq_ofNat_of_zero_le hlow
    have hr : r < 2 ^ (8 * d.length) := by exact_mod_cast Int.lt_of_le_sub_one hhigh
    refine ⟨_, encodeUint_of_width (length_of_mem hmem) _, bytesLE_length _ _, ?_⟩
    simp only [rawInteger, hb]
    rw [emod_toNat_of_lt hr, uintLE_bytesLE_of_lt hr]
  | some b =>
    simp only [hb] at hlow hhigh
    have hz : z.natAbs < 2 ^ b := by
      zify
      exact abs_lt.2 ⟨by omega, by omega⟩
    refine ⟨_, encodeSignMagnitude_of_range (by decide) (signBit_lt hb) hz, ?_, ?_⟩
    · rw [bytesLE_length, length_of_signBit hmem hb]
    · simp only [rawInteger, hb]
      rw [uintLE_bytesLE_of_lt (signMagnitudePattern_lt_width hz (signBit_lt hb)), signMagnitudeValue_pattern hz]

/-! Encoding and decoding a numeric value -/

/-- A numeric value is encoded as the rounding of its real quotient by the factor (R179, R193). -/
theorem encodeConversion_of_factor {m : ServoModel} (u : Option Byte) {d : RegisterDef} {v : UserValue} {x : UserReal}
    {f : PiNum} (hscale : ∀ q, d.conversion = .scale q → 0 < q) (hx : numericValue v = some x)
    (hf : conversionFactor (tableOf m) d.conversion = some f) :
    encodeConversion (tableOf m) u d v = encodeStep d.length (roundReal (userRealOf x / realOf f)) d.conversion := by
  obtain ⟨hpos, hpi⟩ := conversionFactor_pos hscale hf
  rw [← realOfCut_userCut, ← roundQuotient_eq_roundReal _ hpos hpi]
  cases hc : d.conversion with
  | bool | mode | baudRate =>
    rw [hc] at hf
    cases hf
  | none | scale _ | position | speed | speedSigned | loadSigned | positionOffset =>
    rw [hc] at hf
    cases hf
    simp only [encodeConversion, hc, encodeNumeric, hx, encodeStep]

/-- Decoding multiplies the raw integer by the factor (R180 to R187). -/
theorem decodeConversion_of_factor {t : ControlTable} {c : Conversion} {f : PiNum} (hf : conversionFactor t c = some f)
    (s : List Byte) :
    ∃ y, numericValue (decodeConversion t c s) = some y ∧ userRealOf y = rawInteger c s * realOf f := by
  cases c with
  | bool | mode | baudRate => cases hf
  | none | positionOffset =>
    cases hf
    refine ⟨_, rfl, ?_⟩
    rw [realOf_oneStep, mul_one]
    exact realOf_piInt _
  | scale _ | position | speed | speedSigned | loadSigned =>
    cases hf
    refine ⟨_, rfl, (realOf_piScale _ _).trans ?_⟩
    push_cast
    rfl

section
variable {m : ServoModel} {name : String} {d : RegisterDef} (hmem : (name, d) ∈ (tableOf m).registers)
include hmem

theorem encodeUser_of_mem (u : Option Byte) (v : UserValue) :
    encodeUser (tableOf m) u name v = encodeConversion (tableOf m) u d v := by
  simp only [encodeUser, lookupRegister_of_mem hmem]

theorem decodeUser_of_length {s : List Byte} (hs : s.length = d.length) :
    decodeUser (tableOf m) name s = .ok (decodeConversion (tableOf m) d.conversion s) := by
  simp only [decodeUser, lookupRegister_of_mem hmem, if_neg (not_not.2 hs)]

theorem decodeUser_of_length_ne {s : List Byte} (hs : s.length ≠ d.length) :
    decodeUser (tableOf m) name s = .error (.refuse .decodeLength) := by
  simp only [decodeUser, lookupRegister_of_mem hmem, if_pos hs]

end

/-! The sign bits -/

theorem signMagnitudeValue_of_decode {s : List Byte} {b : Nat} {z : Int} (hs : s.length = 2) (hb : b < 8 * 2)
    (h : decodeSignMagnitude s b = .ok z) : signMagnitudeValue (uintLE s) b = z := by
  rw [decodeSignMagnitude_of_lt (by omega) (by omega)] at h
  exact Except.ok.inj h

/-- The real of a decoded sign-magnitude value. -/
theorem realOf_piScale_intCast (z : Int) (f : PiNum) : realOf (piScale z f) = z * realOf f := by
  rw [realOf_piScale, Rat.cast_intCast]

/-- Settles O23: both directions at the conversion's own sign bit, for the four conversions that have one. -/
theorem signBitsOfTheConversions : Obligations.SignBitsOfTheConversions := by
  refine ⟨fun m s b z hs hz => ⟨?_, ?_, ?_⟩, fun m u d v x hx => ?_, fun m e he hc => ?_⟩
  · rintro rfl
    obtain rfl := signMagnitudeValue_of_decode hs (by decide) hz
    exact ⟨_, _, rfl, realOf_piScale_intCast _ _, rfl, realOf_piScale_intCast _ _⟩
  · rintro rfl
    obtain rfl := signMagnitudeValue_of_decode hs (by decide) hz
    refine ⟨_, rfl, ?_⟩
    rw [realOf_piScale_intCast, realOf_loadFactor, mul_one_div]
  · rintro rfl
    obtain rfl := signMagnitudeValue_of_decode hs (by decide) hz
    rfl
  · have hencode : ∀ f, (∀ q, d.conversion ≠ .scale q) → conversionFactor (tableOf m) d.conversion = some f →
        encodeConversion (tableOf m) u d v
          = encodeStep d.length (roundReal (userRealOf x / realOf f)) d.conversion :=
      fun f hscale hf => encodeConversion_of_factor u (fun q hq => absurd hq (hscale q)) hx hf
    refine ⟨fun hc => ?_, fun hc => ?_, fun hc => ?_, fun hc => ?_⟩ <;> rw [hc] at hencode
    · exact hencode _ nofun rfl
    · exact hencode _ nofun rfl
    · rw [hencode _ nofun rfl, realOf_loadFactor]
      rfl
    · rw [hencode _ nofun rfl, realOf_oneStep, div_one]
      rfl
  · obtain ⟨-, -, -, htwo⟩ := (registerOk_iff e.2).1 (registerOk_of_mem he)
    exact htwo hc

/-! Numeric values there and back -/

/-- Rounding a quotient loses at most half a unit of the divisor. -/
theorem abs_roundReal_mul_sub_le (x : ℝ) {f : ℝ} (hf : 0 < f) : |roundReal (x / f) * f - x| ≤ f / 2 := by
  calc |roundReal (x / f) * f - x| = |(x / f - roundReal (x / f)) * f| := by
        rw [sub_mul, div_mul_cancel₀ x hf.ne', abs_sub_comm]
    _ = |x / f - roundReal (x / f)| * f := by rw [abs_mul, abs_of_pos hf]
    _ ≤ 1 / 2 * f := mul_le_mul_of_nonneg_right (abs_sub_roundReal_le _) hf.le
    _ = f / 2 := by ring

/-- Settles O27: the raw integer comes back exactly, so what is lost is the rounding. -/
theorem numericConversionsRoundTrip : Obligations.NumericConversionsRoundTrip := by
  intro m u name d v x f hmem hx hf hlow hhigh
  obtain ⟨s, hs, hlength, hraw⟩ := encodeStep_of_range hmem hlow hhigh
  obtain ⟨y, hy, hyreal⟩ := decodeConversion_of_factor hf s
  obtain ⟨hpos, hpi⟩ := conversionFactor_pos (scale_pos_of_mem hmem) hf
  refine ⟨s, _, y, ?_, decodeUser_of_length hmem hlength, hy, ?_⟩
  · rw [encodeUser_of_mem hmem, encodeConversion_of_factor u (scale_pos_of_mem hmem) hx hf, hs]
  · rw [hyreal, hraw]
    exact abs_roundReal_mul_sub_le _ (realOf_pos hpos hpi)

/-! Flags, modes and baud rates -/

theorem rawToMode_of_gt {r : Nat} (h : 3 < r) : rawToMode r = .unknown := by
  obtain ⟨k, rfl⟩ := Nat.exists_eq_add_of_le' h
  rfl

theorem rawToBaud_of_gt {r : Nat} (h : 7 < r) : rawToBaud r = .b1000000 := by
  obtain ⟨k, rfl⟩ := Nat.exists_eq_add_of_le' h
  rfl

theorem rawToBaud_baudToRaw (b : Baud) : rawToBaud (baudToRaw b) = b := by
  cases b <;> rfl

theorem baudToRaw_lt (b : Baud) : baudToRaw b < 256 := by
  cases b <;> decide

/-- A named mode has a raw value, which reads back as it (R174, R175). -/
theorem modeToRaw_of_named (u : Option Byte) {k : ServoMode} (hk : k ≠ .unknown) :
    ∃ r, modeToRaw u k = .ok r ∧ r < 256 ∧ rawToMode r = k := by
  cases k with
  | unknown => exact absurd rfl hk
  | position | velocity | pwm | step => exact ⟨_, rfl, by decide, rfl⟩

/-- Settles O21: the two closed mappings, and beyond them the variant `unknown` and the fallback. -/
theorem rawToModeIsTotal : Obligations.RawToModeIsTotal :=
  ⟨⟨rfl, rfl, rfl, rfl, fun _ => rawToMode_of_gt⟩, by decide, fun _ h => congrArg bitsPerSecond (rawToBaud_of_gt h),
    rawToBaud_baudToRaw⟩

section
variable (t : ControlTable) (u : Option Byte) {d : RegisterDef}

theorem encodeConversion_flag (hc : d.conversion = .bool) (b : Bool) :
    encodeConversion t u d (.flag b) = encodeUint (if b then 1 else 0) d.length := by
  simp only [encodeConversion, hc]

theorem encodeConversion_mode (hc : d.conversion = .mode) (k : ServoMode) :
    encodeConversion t u d (.mode k) = (modeToRaw u k).bind fun r => encodeUint r d.length := by
  simp only [encodeConversion, hc]
  cases modeToRaw u k <;> rfl

theorem encodeConversion_baud (hc : d.conversion = .baudRate) (b : Baud) :
    encodeConversion t u d (.baud b) = encodeUint (baudToRaw b) d.length := by
  simp only [encodeConversion, hc]

end

/-- A raw value of one byte fits every width of the block. -/
theorem lt_two_pow_of_width {r n : Nat} (hn : n = 1 ∨ n = 2 ∨ n = 4) (hr : r < 256) : r < 2 ^ (8 * n) :=
  hr.trans_le (Nat.pow_le_pow_right Nat.two_pos (by omega : 8 ≤ 8 * n))

/-- A value that is encoded as a raw value of one byte, and that this raw value decodes to, comes back. -/
theorem named_value_comes_back {m : ServoModel} {name : String} {d : RegisterDef} (hmem : (name, d) ∈ (tableOf m).registers)
    {u : Option Byte} {v : UserValue} {r : Nat} (hr : r < 256)
    (hencode : encodeConversion (tableOf m) u d v = encodeUint r d.length)
    (hdecode : ∀ s, uintLE s = r → decodeConversion (tableOf m) d.conversion s = v) :
    ∃ s, encodeUser (tableOf m) u name v = .ok s ∧ decodeUser (tableOf m) name s = .ok v := by
  have hr' := lt_two_pow_of_width (length_of_mem hmem) hr
  refine ⟨bytesLE r d.length, ?_, ?_⟩
  · rw [encodeUser_of_mem hmem, hencode, encodeUint_of_width (length_of_mem hmem), emod_toNat_of_lt hr']
  · rw [decodeUser_of_length hmem (bytesLE_length _ _), hdecode _ (uintLE_bytesLE_of_lt hr')]

/-- Settles O28: each flag, baud rate and named mode has a raw value that decodes to it. -/
theorem namedValuesRoundTrip : Obligations.NamedValuesRoundTrip := by
  intro m u name d hmem
  refine ⟨fun v hv => ?_, fun s hs => ⟨uintLE s, decodeUint_of_width (by rw [hs]; exact length_of_mem hmem), ?_⟩,
    fun s hs => decodeUser_of_length_ne hmem hs⟩
  · obtain ⟨hc, b, rfl⟩ | ⟨hc, b, rfl⟩ | ⟨hc, k, rfl, hk⟩ := hv
    · refine named_value_comes_back hmem (r := if b then 1 else 0) (by cases b <;> decide) ?_ fun s hs => ?_
      · rw [encodeConversion_flag _ u hc]
        cases b <;> rfl
      · rw [hc, decodeConversion, hs]
        cases b <;> rfl
    · refine named_value_comes_back hmem (baudToRaw_lt b) (encodeConversion_baud _ u hc b) fun s hs => ?_
      rw [hc, decodeConversion, hs, rawToBaud_baudToRaw]
    · obtain ⟨r, hraw, hr, hback⟩ := modeToRaw_of_named u hk
      refine named_value_comes_back hmem hr ?_ fun s hs => ?_
      · rw [encodeConversion_mode _ u hc, hraw]
        rfl
      · rw [hc, decodeConversion, hs, hback]
  · rw [decodeUser_of_length hmem hs]
    refine ⟨fun hc => ⟨uintLE s != 0, ?_, bne_iff_ne⟩, fun hc => ?_, fun hc => ?_⟩ <;> rw [hc, decodeConversion]

/-! The bytes of every conversion -/

theorem baudToRaw_of_bitsPerSecond {b : Baud} {r : Int}
    (h : (bitsPerSecond b, r) ∈ [(1000000, 0), (500000, 1), (250000, 2), (128000, 3), (115200, 4), (76800, 5), (57600, 6),
      (38400, 7)]) : r = baudToRaw b := by
  cases b <;> simpa [bitsPerSecond, baudToRaw] using h

/-- Settles O60: a numeric value through `encodeConversion_of_factor`, any other through its raw value. -/
theorem encodedBytesAreTheRoundedQuotient : Obligations.EncodedBytesAreTheRoundedQuotient := by
  intro m u name d hmem
  simp only [encodeUser_of_mem hmem]
  refine ⟨fun v x f hx hf => ?_, fun b hc => encodeConversion_flag _ u hc b, fun hc => ⟨fun k r hk => ?_, ?_, ?_⟩,
    fun b r hc hr => ?_⟩
  · rw [encodeConversion_of_factor u (scale_pos_of_mem hmem) hx hf]
    exact ⟨rfl, encodeStep_ok hmem _⟩
  · simp only [List.mem_cons, List.not_mem_nil, or_false, Prod.mk.injEq] at hk
    rw [encodeConversion_mode _ u hc]
    obtain ⟨rfl, rfl⟩ | ⟨rfl, rfl⟩ | ⟨rfl, rfl⟩ | ⟨rfl, rfl⟩ := hk <;> rfl
  · rintro b rfl
    exact encodeConversion_mode _ _ hc _
  · rintro rfl
    exact encodeConversion_mode _ _ hc _
  · rw [encodeConversion_baud _ u hc, baudToRaw_of_bitsPerSecond hr]

end Sys2Proof.Laws
end

section
/-! The flags of a status byte (43_status.md R210, R211): the errors as a filter of a table of bits, and `hasError` through the
bits of its mask. -/

namespace Sys2Proof.Laws

open Machine

/-! The errors -/

theorem filter_cons_flag (s : Byte) (bit : Nat) (e : StatusError) (flags : List (Nat × StatusError)) :
    (((bit, e) :: flags).filter fun f => s.getLsbD f.1).map Prod.snd
      = flagError s bit e ++ (flags.filter fun f => s.getLsbD f.1).map Prod.snd := by
  cases h : s.getLsbD bit <;> simp [flagError, h]

/-! The mask of R211 -/

theorem and_ne_zero_iff_getLsbD {w : Nat} (x mask : BitVec w) :
    x &&& mask ≠ 0#w ↔ ∃ i, mask.getLsbD i = true ∧ x.getLsbD i = true := by
  rw [Ne, BitVec.zero_iff_eq_false]
  simp [and_comm]

theorem errorMask_getLsbD (i : Nat) : (0x2F#8).getLsbD i = true ↔ i ∈ [0, 1, 2, 3, 5] := by
  by_cases hi : i < 8
  · decide +revert
  · rw [BitVec.getLsbD_of_ge _ _ (by omega)]
    simp only [Bool.false_eq_true, false_iff, List.mem_cons, List.not_mem_nil, or_false]
    omega

theorem hasError_iff_exists_bit (s : Byte) : hasError s = true ↔ ∃ i ∈ [0, 1, 2, 3, 5], s.getLsbD i = true := by
  simp only [hasError, bne_iff_ne, and_ne_zero_iff_getLsbD, errorMask_getLsbD]

/-- Settles O29: each flag of the list is one entry of the table, and the mask of `hasError` holds the bits of the table. -/
theorem statusByteIsReadByItsBits : Obligations.StatusByteIsReadByItsBits := by
  intro s
  refine ⟨?_, rfl, ?_⟩
  · simp only [filter_cons_flag, parseStatus, List.filter_nil, List.map_nil, List.append_nil, List.append_assoc]
  · rw [hasError_iff_exists_bit]
    simp only [List.exists_mem_cons_iff, List.not_mem_nil, false_and, exists_false, or_false]

end Sys2Proof.Laws
end

section
/-! The transitions of an operation as equations (44_transactor.md R220 to R223): its start at an idle transactor, its send, and
the steps of an operation in flight with a quiet caller. An iteration of a receive loop always goes on, and ends the loop or
waits. -/

namespace Sys2Proof.Machine

/-! The start -/

/-- At an idle transactor an operation starts (44_transactor.md R220 rows 1 and 2). -/
theorem exec_of_idle (i : Instr) {s : State} (hidle : s.phase = .idle) : exec i s = .next (begin i (encode s.params i) s) := by
  rw [exec_eq_transact, transact, if_neg fun hbusy => hbusy.1 hidle]

/-- An admitted operation whose packet can be built starts sending it. -/
theorem exec_of_admitted {i : Instr} {s : State} {pkt : List Byte} (hready : s.ready) (hids : admitIds i = none)
    (hpkt : encode s.params i = .ok pkt) : exec i s = .next { s with op := some i, phase := .sending } := by
  obtain ⟨hopen, hidle⟩ := hready
  have hadmit : admission i s = none := (admission_eq_none_iff i s).2 ⟨hopen, hidle, hids⟩
  rw [exec_of_idle i hidle]
  simp only [begin, hadmit, hpkt]

/-! The send -/

section
variable {i : Instr} {s : State} {pkt : List Byte} {dt : Nat} (hop : s.op = some i) (hphase : s.phase = .sending)
  (hpkt : encode s.params i = .ok pkt)
include hop hphase hpkt

theorem exec_of_written (hwrite : s.nextWrite = .ok dt) : exec i s = .next (afterWritten i (s.afterWrite pkt dt)) := by
  rw [exec_of_sending hop hphase hpkt]
  simp only [send, hwrite, calls_eq_afterWrite]

theorem exec_of_write_error {e : TransportError} (hwrite : s.nextWrite = .error e dt) :
    exec i s = .next ((s.afterWrite pkt dt).endedWith (.err (.transport e))) := by
  rw [exec_of_sending hop hphase hpkt]
  simp only [send, hwrite, calls_eq_afterWrite, State.raise, finish_answer_eq_endedWith]

end

/-- A send of a packet answers a next state, whatever the transport answers. -/
theorem exists_send_eq_next (pkt : List Byte) (after : State → State) (s : State) :
    ∃ t, send (.ok pkt) after s = .next t := by
  unfold send
  cases s.nextWrite with
  | ok dt => exact ⟨_, rfl⟩
  | error e dt => exact ⟨_, rfl⟩

/-! The receive loop -/

/-- One iteration of a receive loop with a deadline answers a next state. -/
theorem exists_receive_eq_next (onReply : Reply → State → State) {s : State} {d : Nat} (hd : s.deadline = some d) :
    ∃ t, receive onReply s = .next t := by
  simp only [receive, hd]
  split
  · exact ⟨_, rfl⟩
  · split
    · exact ⟨_, rfl⟩
    · split <;> exact ⟨_, rfl⟩

/-- The operation is over. -/
def State.ended (s : State) : Prop := s.phase = .idle ∧ s.op = none

/-- An operation that expects one reply is over once it has it, or knows that there is none. -/
theorem withReply_ended {i : Instr} (hone : expectedReplies i = 1) (r : Reply) (s : State) : (withReply i r s).ended := by
  rcases withReply_cases i r s with ⟨o, h⟩ | ⟨f, h⟩ | ⟨hzero, -⟩ | ⟨ids, target, rfl, hslot, -⟩
  · rw [h]
    exact ⟨rfl, rfl⟩
  · rw [h]
    exact ⟨rfl, rfl⟩
  · omega
  · have hlen : ids.length = 1 := hone
    omega

/-- One iteration of a receive loop ends the operation, if every reply does, or keeps an incomplete buffer before the deadline
(44_transactor.md R223). -/
theorem receive_ends_or_waits {onReply : Reply → State → State} (hends : ∀ r t, (onReply r t).ended) {s : State} {d : Nat}
    (hd : s.deadline = some d) :
    ∃ t, receive onReply s = .next t ∧ (t.ended ∨ ∃ c dt b, s.nextRead (chunkWait d s.now) = .data c dt
      ∧ s.now + dt < d ∧ t = s.afterRead d dt b) := by
  obtain ⟨t, ht⟩ := exists_receive_eq_next onReply hd
  refine ⟨t, ht, ?_⟩
  obtain ⟨d', hd', hcases⟩ := receive_cases ht
  obtain rfl : d = d' := Option.some.inj (hd.symm.trans hd')
  obtain ⟨e, dt, -, rfl⟩ | ⟨c, dt, hread, ⟨p, rest, -, rfl⟩ | ⟨b, -, rfl⟩⟩ := hcases
  · exact .inl ⟨rfl, rfl⟩
  · exact .inl (hends _ _)
  · split
    · exact .inl (hends _ _)
    next hearly => exact .inr ⟨c, dt, b, hread, not_le.1 hearly, calls_eq_afterRead s d dt b⟩

/-! A step of an operation in flight -/

/-- With a quiet caller a step is the next transition of the operation in flight. -/
theorem step_of_quiet {i : Instr} {s : State} (hphase : s.phase ≠ .idle) (hop : s.op = some i) (hquiet : s.interrupts = []) :
    step s = exec i s := by
  rw [step_of_not_idle hphase]
  simp only [stepInFlight, hop, hquiet]

theorem phase_ne_idle_of_receiving {s : State} (h : s.receiving) : s.phase ≠ .idle := by
  rcases h with h | h <;> simp [h]

end Sys2Proof.Machine
end

section
/-! ACTION (44_transactor.md R232), and which states have a next state: all that meet the invariant, but for a request that is
no instruction packet (44_transactor.md R238, log 11). -/

namespace Sys2Proof.Machine

/-- The packet of ACTION (30_encoding.md R87, R232). -/
theorem encode_action (p : Params) : encode p (.action 0xFE) = .ok [0xFF, 0xFF, 0xFE, 0x02, 0x05, 0xFA] := rfl

/-- Only the broadcast ACTION is admitted (log 12). -/
theorem admitIds_action_eq_none_iff (id : Int) : admitIds (.action id) = none ↔ id = 0xFE := by
  simp [admitIds, Config.broadcastId]

/-- Settles O36: the start and the two ends of a send, for the one packet of ACTION. -/
theorem actionIsFireAndForget : Obligations.ActionIsFireAndForget := by
  refine ⟨encode_action, fun s hready => ?_, fun s dt hop hphase hwrite => ?_, fun s e dt hop hphase hwrite => ?_,
    fun s id hinv hop => ?_⟩
  · exact exec_of_admitted hready ((admitIds_action_eq_none_iff _).2 rfl) (encode_action _)
  · exact exec_of_written hop hphase (encode_action _) hwrite
  · exact exec_of_write_error hop hphase (encode_action _) hwrite
  · obtain ⟨hids, -⟩ := hinv.admitted _ hop
    exact (admitIds_action_eq_none_iff id).1 hids

/-! Under the invariant -/

/-- The invariant does not speak of what the caller does next. -/
theorem State.Inv.with_interrupts {s : State} (h : s.Inv) (r : List (Option Interrupt)) :
    ({ s with interrupts := r } : State).Inv :=
  { h with }

/-- The operation in flight has a next transition: its packet can be built, and its receive loop has a deadline. -/
theorem State.Inv.exists_exec_eq_next {s : State} (h : s.Inv) {i : Instr} (hop : s.op = some i) (hphase : s.phase ≠ .idle) :
    ∃ t, exec i s = .next t := by
  have receives (hr : s.receiving) : ∃ t, exec i s = .next t := by
    obtain ⟨hdeadline, -⟩ := h.receiving_cursor hr
    obtain ⟨d, hd⟩ := Option.ne_none_iff_exists'.1 hdeadline
    rw [exec_of_awaits ⟨hop, hr, hd⟩]
    exact exists_receive_eq_next _ hd
  cases hp : s.phase with
  | idle => exact absurd hp hphase
  | sending =>
    obtain ⟨-, pkt, hpkt⟩ := h.admitted i hop
    rw [exec_of_sending hop hp hpkt]
    exact exists_send_eq_next _ _ _
  | awaitingResponse => exact receives (.inl hp)
  | draining => exact receives (.inr hp)

/-- A step of an operation in flight answers a next state. -/
theorem State.Inv.exists_stepInFlight_eq_next {s : State} (h : s.Inv) (hphase : s.phase ≠ .idle) :
    ∃ t, stepInFlight s = .next t := by
  rw [stepInFlight]
  split
  next hnone => exact absurd (h.idle_iff.2 hnone) hphase
  next i hop =>
    split
    · exact h.exists_exec_eq_next hop hphase
    next rest _ => exact (h.with_interrupts rest).exists_exec_eq_next hop hphase
    · exact ⟨_, rfl⟩

/-- An idle transactor serves every request but bytes that are no instruction packet (log 11). -/
theorem serve_next_or_undecodable (r : Request) {s : State} (hidle : s.phase = .idle) :
    (∃ t, serve r s = .next t)
      ∨ ∃ bytes e, r = .packet bytes ∧ decode bytes = .error e ∧ serve r s = .refused (.undecodable e) := by
  cases r with
  | call i => exact .inl ⟨_, exec_of_idle i hidle⟩
  | packet bytes =>
    cases hdecode : decode bytes with
    | ok i => exact .inl ⟨_, by simp only [serve, hdecode, exec_of_idle i hidle]; rfl⟩
    | error e => exact .inr ⟨bytes, e, rfl, hdecode, by simp only [serve, hdecode]⟩
  | pause ms => exact .inl ⟨_, rfl⟩
  | teardown => exact .inl ⟨_, rfl⟩

/-- Settles O52: an idle transactor by its next request, another by its operation in flight. -/
theorem invariantStatesNeverStop : Obligations.InvariantStatesNeverStop := by
  intro s hinv
  by_cases hidle : s.phase = .idle
  · rw [step_of_idle hidle, stepIdle]
    cases hreq : s.requests with
    | nil => exact .inl ⟨s, rfl⟩
    | cons r rest =>
      refine (serve_next_or_undecodable r (s := { s with requests := rest }) hidle).imp_right ?_
      rintro ⟨bytes, e, rfl, hdecode, hserve⟩
      exact ⟨bytes, rest, e, hidle, rfl, hdecode, hserve⟩
  · rw [step_of_not_idle hidle]
    exact .inl (hinv.exists_stepInFlight_eq_next hidle)

end Sys2Proof.Machine
end

section
/-! A one-reply operation ends by its deadline if time passes in its chunk reads (44_transactor.md R237): each step ends the
operation or brings the deadline nearer. -/

namespace Sys2Proof.Machine

/-- A chunk read takes at least a millisecond or errs (70_reset_and_hazards.md R320). -/
def TakesTime (e : ReadEvent) : Prop := (∃ c dt, e = .data c dt ∧ 1 ≤ dt) ∨ ∃ x dt, e = .error x dt

/-- The operation `i` reads its reply until `d` with a quiet caller, and the coming reads take time and last to the deadline. -/
structure RunsToDeadline (i : Instr) (d : Nat) (s : State) : Prop where
  awaits : s.awaits i d
  quiet : s.interrupts = []
  readsTakeTime : ∀ e ∈ s.reads, TakesTime e
  readsSuffice : d - s.now + 1 ≤ s.reads.length

/-! One chunk read -/

@[simp] theorem State.dropRead_reads (s : State) : s.dropRead.reads = s.reads.tail := by
  unfold State.dropRead
  cases s.reads <;> rfl

section
variable (s : State) (d dt : Nat) (b : List Byte)

@[simp] theorem State.afterRead_phase : (s.afterRead d dt b).phase = s.phase := by simp [State.afterRead]
@[simp] theorem State.afterRead_op : (s.afterRead d dt b).op = s.op := by simp [State.afterRead]
@[simp] theorem State.afterRead_deadline : (s.afterRead d dt b).deadline = s.deadline := by simp [State.afterRead]
@[simp] theorem State.afterRead_interrupts : (s.afterRead d dt b).interrupts = s.interrupts := by simp [State.afterRead]
@[simp] theorem State.afterRead_reads : (s.afterRead d dt b).reads = s.reads.tail := by simp [State.afterRead]

end

/-- Before the deadline the next chunk read waits. -/
theorem one_le_chunkWait {d now : Nat} (h : now < d) : 1 ≤ chunkWait d now :=
  le_min (by decide) (Nat.sub_pos_of_lt h)

/-- A scripted chunk from a read that takes time and waits at all takes time. -/
theorem one_le_of_nextRead_data {s : State} (hne : s.reads ≠ []) (htime : ∀ e ∈ s.reads, TakesTime e) {wait dt : Nat}
    {c : List Byte} (hwait : 1 ≤ wait) (h : s.nextRead wait = .data c dt) : 1 ≤ dt := by
  obtain ⟨e, rest, hreads⟩ := List.exists_cons_of_ne_nil hne
  simp only [State.nextRead, hreads] at h
  obtain ⟨_, elapsed, rfl, helapsed⟩ | ⟨_, _, rfl⟩ := htime e (by simp [hreads])
  · simp only [answerWithin, ReadEvent.data.injEq] at h
    omega
  · cases h

/-! The loop -/

/-- A chunk that ends nothing leaves the loop running, nearer to its deadline. -/
theorem RunsToDeadline.afterRead {i : Instr} {d : Nat} {s : State} (h : RunsToDeadline i d s) {c : List Byte} {dt : Nat}
    (hread : s.nextRead (chunkWait d s.now) = .data c dt) (hearly : s.now + dt < d) (b : List Byte) :
    RunsToDeadline i d (s.afterRead d dt b) ∧ s.now < (s.afterRead d dt b).now := by
  have hne : s.reads ≠ [] := fun hnil => by simpa [hnil] using h.readsSuffice
  have hdt : 1 ≤ dt := one_le_of_nextRead_data hne h.readsTakeTime (one_le_chunkWait (by omega)) hread
  refine ⟨⟨?_, by simpa using h.quiet, fun e he => ?_, ?_⟩, Nat.lt_add_of_pos_right hdt⟩
  · simpa [State.awaits, State.receiving] using h.awaits
  · exact h.readsTakeTime e (List.mem_of_mem_tail (by simpa using he))
  · have hlen := h.readsSuffice
    simp only [State.afterRead_now, State.afterRead_reads, List.length_tail]
    omega

/-- A step of the loop of a one-reply operation ends the operation, or leaves the loop running nearer to its deadline. -/
theorem RunsToDeadline.step_ends_or_runs {i : Instr} {d : Nat} {s : State} (h : RunsToDeadline i d s) (hone : expectedReplies i = 1) :
    ∃ t, step s = .next t ∧ (t.ended ∨ (RunsToDeadline i d t ∧ s.now < t.now ∧ t.now < d)) := by
  obtain ⟨hop, hreceiving, hd⟩ := h.awaits
  rw [step_of_quiet (phase_ne_idle_of_receiving hreceiving) hop h.quiet, exec_of_awaits h.awaits]
  obtain ⟨t, ht, hended | ⟨c, dt, b, hread, hearly, rfl⟩⟩ := receive_ends_or_waits (withReply_ended hone) hd
  · exact ⟨t, ht, .inl hended⟩
  · obtain ⟨hruns, hlater⟩ := h.afterRead hread hearly b
    exact ⟨_, ht, .inr ⟨hruns, hlater, hearly⟩⟩

/-- A run of one step more. -/
theorem run_succ_of_step {s t : State} (h : step s = .next t) (k : Nat) :
    Sys2Proof.core.run (k + 1) s = Sys2Proof.core.run k t := by
  have hcore : Sys2Proof.core.step s = .next t := h
  simp only [Host.Core.run, hcore]

/-- By induction on the milliseconds that remain. -/
theorem RunsToDeadline.ends {i : Instr} {d : Nat} (hone : expectedReplies i = 1) {s : State} (h : RunsToDeadline i d s) :
    ∃ k t, k ≤ d - s.now + 1 ∧ Sys2Proof.core.run k s = .next t ∧ t.ended := by
  induction hleft : d - s.now using Nat.strong_induction_on generalizing s with
  | _ left ih =>
    obtain ⟨t, hstep, hended | ⟨hruns, hlater, hearly⟩⟩ := h.step_ends_or_runs hone
    · exact ⟨1, t, by omega, run_succ_of_step hstep 0, hended⟩
    · obtain ⟨k, u, hk, hrun, hended⟩ := ih (d - t.now) (by omega) hruns rfl
      exact ⟨k + 1, u, by omega, (run_succ_of_step hstep k).trans hrun, hended⟩

/-- Settles O58: its hypotheses are those of a loop that runs to its deadline. -/
theorem receiveLoopEndsByItsDeadline : Obligations.ReceiveLoopEndsByItsDeadline :=
  fun _ _ _ hawaits hone hquiet htime hlen => RunsToDeadline.ends hone ⟨hawaits, hquiet, htime, hlen⟩

end Sys2Proof.Machine
end

section
/-! When an instruction's packet can be built (60_exceptions.md R271 steps 2 to 4): when each builder succeeds, when a value can
be encoded, and that a well-formed operand is one that resolves to what its builder takes. -/

namespace Sys2Proof.Laws

open Machine

/-! When each builder succeeds -/

theorem exists_bind_eq_ok_iff {α β : Type} {x : Checked α} {f : α → Checked β} :
    (∃ b, x.bind f = .ok b) ↔ ∃ a, x = .ok a ∧ ∃ b, f a = .ok b := by
  constructor
  · rintro ⟨b, h⟩
    obtain ⟨a, ha, hb⟩ := bind_eq_ok h
    exact ⟨a, ha, b, hb⟩
  · rintro ⟨a, rfl, h⟩
    exact h

/-- A packet can be assembled exactly when all checks of R140 pass. -/
theorem exists_packet_iff {id : Int} {code : Byte} {params : List Int} :
    (∃ s, packet id code params = .ok s) ↔ idOk id = true ∧ params.all byteOk = true ∧ params.length ≤ 253 := by
  constructor
  · rintro ⟨s, h⟩
    obtain ⟨hid, hbytes, hlen, -⟩ := packet_ok h
    exact ⟨hid, hbytes, hlen⟩
  · rintro ⟨hid, hbytes, hlen⟩
    rw [packet, hid, hbytes, if_neg (by decide), if_neg (by decide), if_neg (by omega)]
    exact ⟨_, rfl⟩

theorem exists_packet_nil_iff {id : Int} {code : Byte} : (∃ s, packet id code [] = .ok s) ↔ idOk id = true := by
  simp [exists_packet_iff]

theorem exists_packet_address_data_iff {id a : Int} {code : Byte} {data : List Int} :
    (∃ s, packet id code (a :: data) = .ok s) ↔ idOk id = true ∧ byteOk a = true ∧ dataOk data = true := by
  simp [exists_packet_iff, dataOk, and_assoc, Nat.lt_succ_iff]

theorem exists_buildRead_iff {id a l : Int} :
    (∃ s, buildRead id a l = .ok s) ↔ idOk id = true ∧ byteOk a = true ∧ byteOk l = true := by
  constructor
  · rintro ⟨s, h⟩
    obtain ⟨ha, hl, hpacket⟩ := buildRead_ok h
    obtain ⟨hid, -⟩ := packet_ok hpacket
    exact ⟨hid, ha, hl⟩
  · rintro ⟨hid, ha, hl⟩
    rw [buildRead, ha, hl, if_neg (by decide), exists_packet_iff]
    simp [hid, ha, hl]

theorem exists_buildWrite_iff {id a : Int} {data : List Int} :
    (∃ s, buildWrite id a data = .ok s) ↔ idOk id = true ∧ byteOk a = true ∧ dataOk data = true := by
  refine ⟨fun ⟨s, h⟩ => exists_packet_address_data_iff.1 ⟨s, buildWrite_ok h⟩, fun ⟨hid, ha, hdata⟩ => ?_⟩
  rw [buildWrite, ha, if_neg (by decide)]
  exact exists_packet_address_data_iff.2 ⟨hid, ha, hdata⟩

theorem exists_buildRegWrite_iff {id a : Int} {data : List Int} :
    (∃ s, buildRegWrite id a data = .ok s) ↔ idOk id = true ∧ byteOk a = true ∧ dataOk data = true := by
  refine ⟨fun ⟨s, h⟩ => exists_packet_address_data_iff.1 ⟨s, buildRegWrite_ok h⟩, fun ⟨hid, ha, hdata⟩ => ?_⟩
  rw [buildRegWrite, ha, if_neg (by decide)]
  exact exists_packet_address_data_iff.2 ⟨hid, ha, hdata⟩

theorem exists_buildSyncRead_iff {a l : Int} {ids : List Int} :
    (∃ s, buildSyncRead a l ids = .ok s)
      ↔ (ids.all idOk = true ∧ ids.length ≤ 251) ∧ byteOk a = true ∧ byteOk l = true := by
  constructor
  · rintro ⟨s, h⟩
    obtain ⟨ha, hl, hids, hpacket⟩ := buildSyncRead_ok h
    obtain ⟨-, -, hlen, -⟩ := packet_ok hpacket
    exact ⟨⟨hids, Nat.le_of_add_le_add_right (b := 2) hlen⟩, ha, hl⟩
  · rintro ⟨⟨hids, hlen⟩, ha, hl⟩
    have hbytes : ids.all byteOk = true :=
      List.all_eq_true.2 fun z hz => byteOk_of_idOk (List.all_eq_true.1 hids z hz)
    rw [buildSyncRead, ha, hl, hids, if_neg (by decide), if_neg (by decide), exists_packet_iff]
    exact ⟨rfl, by simp only [List.all_cons, ha, hl, hbytes, Bool.and_self], Nat.add_le_add_right hlen 2⟩

/-- A pair of a SYNC_WRITE that its builder takes: an ID in range, and as many bytes as announced. -/
structure PairOk (l : Int) (e : Int × List Int) : Prop where
  id : idOk e.1 = true
  bytes : e.2.all byteOk = true
  length : (e.2.length : Int) = l

theorem pairOk_iff (l : Int) (e : Int × List Int) :
    PairOk l e ↔ idOk e.1 = true ∧ e.2.all byteOk = true ∧ (e.2.length : Int) = l :=
  ⟨fun h => ⟨h.id, h.bytes, h.length⟩, fun ⟨hid, hbytes, hlength⟩ => ⟨hid, hbytes, hlength⟩⟩

theorem all_syncWriteParams (pairs : List (Int × List Int)) :
    (syncWriteParams pairs).all byteOk = true ↔ ∀ e ∈ pairs, byteOk e.1 = true ∧ e.2.all byteOk = true := by
  rw [syncWriteParams_eq_flatMap, List.all_flatMap, List.all_eq_true]
  simp only [List.all_cons, Bool.and_eq_true]

theorem syncFits_iff (len m : Nat) : syncFits len m = true ↔ 2 + m * (len + 1) ≤ 253 := decide_eq_true_iff

theorem exists_buildSyncWrite_iff {a l : Int} {pairs : List (Int × List Int)} :
    (∃ s, buildSyncWrite a l pairs = .ok s)
      ↔ byteOk a = true ∧ byteOk l = true ∧ (∀ e ∈ pairs, PairOk l e) ∧ syncFits l.toNat pairs.length = true := by
  constructor
  · rintro ⟨s, h⟩
    obtain ⟨ha, hl, hpairs, hpacket⟩ := buildSyncWrite_ok h
    rw [syncWritePairsCheck_eq_none_iff] at hpairs
    obtain ⟨-, hbytes, hlen, -⟩ := packet_ok hpacket
    simp only [List.all_cons, Bool.and_eq_true, all_syncWriteParams] at hbytes
    obtain ⟨-, -, hdata⟩ := hbytes
    rw [List.length_cons, List.length_cons, syncWriteParams_length fun e he => (hpairs e he).2] at hlen
    exact ⟨ha, hl, fun e he => ⟨(hpairs e he).1, (hdata e he).2, (hpairs e he).2⟩, (syncFits_iff _ _).2 (by omega)⟩
  · rintro ⟨ha, hl, hpairs, hfits⟩
    have hcheck : syncWritePairsCheck l pairs = none :=
      (syncWritePairsCheck_eq_none_iff l pairs).2 fun e he => ⟨(hpairs e he).id, (hpairs e he).length⟩
    have hbytes : (syncWriteParams pairs).all byteOk = true :=
      (all_syncWriteParams pairs).2 fun e he => ⟨byteOk_of_idOk (hpairs e he).id, (hpairs e he).bytes⟩
    rw [syncFits_iff] at hfits
    rw [buildSyncWrite, ha, hl, if_neg (by decide), hcheck]
    refine exists_packet_iff.2 ⟨rfl, by simp only [List.all_cons, ha, hl, hbytes, Bool.and_self], ?_⟩
    rw [List.length_cons, List.length_cons, syncWriteParams_length fun e he => (hpairs e he).length]
    omega

/-! When a value can be encoded -/

/-- A numeric conversion accepts the numeric values (42_control_table.md R178). -/
theorem valueAccepted_of_factor {p : Params} {t : ControlTable} {c : Conversion} {f : PiNum} (hf : conversionFactor t c = some f)
    (v : UserValue) : valueAccepted p c v = (numericValue v).isSome := by
  cases c with
  | bool | mode | baudRate => cases hf
  | none | scale _ | position | speed | speedSigned | loadSigned | positionOffset => rfl

theorem encodeConversion_of_not_numeric {t : ControlTable} (u : Option Byte) {d : RegisterDef} {f : PiNum} {v : UserValue}
    (hf : conversionFactor t d.conversion = some f) (hv : numericValue v = none) :
    encodeConversion t u d v = .error (.refuse .valueKind) := by
  cases hc : d.conversion with
  | bool | mode | baudRate =>
    rw [hc] at hf
    cases hf
  | none | scale _ | position | speed | speedSigned | loadSigned | positionOffset =>
    simp only [encodeConversion, hc, encodeNumeric, hv]

/-- A mode has a raw value unless it is `unknown` and none is configured (R175). -/
theorem modeToRaw_cases (u : Option Byte) (k : ServoMode) :
    ((k != .unknown || u.isSome) = true ∧ ∃ r, modeToRaw u k = .ok r)
      ∨ ((k != .unknown || u.isSome) = false ∧ modeToRaw u k = .error (.refuse .modeUnknown)) := by
  cases k with
  | position | velocity | pwm | step => exact .inl ⟨rfl, _, rfl⟩
  | unknown =>
    cases u with
    | some b => exact .inl ⟨rfl, _, rfl⟩
    | none => exact .inr ⟨rfl, rfl⟩

section
variable {p : Params} {name : String} {d : RegisterDef} (hmem : (name, d) ∈ p.table.registers)
include hmem

theorem encodeUint_of_mem (z : Int) : ∃ s, encodeUint z d.length = .ok s ∧ s.length = d.length :=
  ⟨_, encodeUint_of_width (length_of_mem hmem) z, bytesLE_length _ _⟩

/-- A conversion encodes exactly the values it accepts, in as many bytes as the register has, and refuses the others
(R175, R178). -/
theorem encodeConversion_cases (v : UserValue) :
    (valueAccepted p d.conversion v = true
        ∧ ∃ s, encodeConversion p.table p.modeUnknownRaw d v = .ok s ∧ s.length = d.length)
      ∨ (valueAccepted p d.conversion v = false
        ∧ ∃ r, encodeConversion p.table p.modeUnknownRaw d v = .error (.refuse r)) := by
  cases hf : conversionFactor p.table d.conversion with
  | some f =>
    rw [valueAccepted_of_factor hf]
    cases hv : numericValue v with
    | some x =>
      refine .inl ⟨rfl, ?_⟩
      rw [Params.table, encodeConversion_of_factor _ (scale_pos_of_mem hmem) hv hf]
      exact encodeStep_ok hmem _
    | none => exact .inr ⟨rfl, _, encodeConversion_of_not_numeric _ hf hv⟩
  | none =>
    cases hc : d.conversion with
    | none | scale _ | position | speed | speedSigned | loadSigned | positionOffset =>
      rw [hc] at hf
      cases hf
    | bool =>
      cases v with
      | flag b => exact .inl ⟨rfl, by rw [encodeConversion_flag _ _ hc]; exact encodeUint_of_mem hmem _⟩
      | int _ | num _ | mode _ | baud _ => exact .inr ⟨rfl, .valueKind, by simp only [encodeConversion, hc]⟩
    | mode =>
      cases v with
      | mode k =>
        rw [encodeConversion_mode _ _ hc]
        refine (modeToRaw_cases p.modeUnknownRaw k).imp ?_ ?_
        · rintro ⟨hk, r, hr⟩
          rw [hr]
          exact ⟨hk, encodeUint_of_mem hmem _⟩
        · rintro ⟨hk, hr⟩
          rw [hr]
          exact ⟨hk, _, rfl⟩
      | int _ | num _ | flag _ | baud _ => exact .inr ⟨rfl, .valueKind, by simp only [encodeConversion, hc]⟩
    | baudRate =>
      cases v with
      | baud b => exact .inl ⟨rfl, by rw [encodeConversion_baud _ _ hc]; exact encodeUint_of_mem hmem _⟩
      | int _ | num _ | flag _ | mode _ => exact .inr ⟨rfl, .valueKind, by simp only [encodeConversion, hc]⟩

/-- The same in either view: raw mode encodes the integers (R190). -/
theorem encodeView_cases (view : View) (v : UserValue) :
    (viewAccepted p view d.conversion v = true
        ∧ ∃ s, encodeView p.table p.modeUnknownRaw view d v = .ok s ∧ s.length = d.length)
      ∨ (viewAccepted p view d.conversion v = false
        ∧ ∃ r, encodeView p.table p.modeUnknownRaw view d v = .error (.refuse r)) := by
  cases view with
  | converted => exact encodeConversion_cases hmem v
  | raw =>
    cases v with
    | int z => exact .inl ⟨rfl, encodeUint_of_mem hmem z⟩
    | num _ | flag _ | mode _ | baud _ => exact .inr ⟨rfl, _, rfl⟩

end

/-! When an operand is well formed -/

/-- A name is one of the table's, or unknown (42_control_table.md R170). -/
theorem findRegister_cases (p : Params) (name : String) :
    (∃ d, (name, d) ∈ p.table.registers ∧ findRegister p.table name = some d ∧ lookupRegister p.table name = .ok d)
      ∨ (findRegister p.table name = none ∧ lookupRegister p.table name = .error (.err .unknownRegister)) := by
  by_cases h : ∃ d, (name, d) ∈ p.table.registers
  · obtain ⟨d, hmem⟩ := h
    exact .inl ⟨d, hmem, findRegister_of_mem hmem, lookupRegister_of_mem hmem⟩
  · have hlookup : lookupRegister p.table name = .error (.err .unknownRegister) :=
      lookupRegister_of_forall_not_mem (not_exists.1 h)
    refine .inr ⟨?_, hlookup⟩
    cases hfind : findRegister p.table name with
    | none => rfl
    | some d => simp [lookupRegister, hfind] at hlookup

/-- The address and the length of a register each fit in a byte (10_state.md R35). -/
theorem byteOk_of_mem {m : ServoModel} {name : String} {d : RegisterDef} (hmem : (name, d) ∈ (tableOf m).registers) :
    byteOk (d.address : Int) = true ∧ byteOk (d.length : Int) = true := by
  obtain ⟨haddress, hlength, -, -⟩ := (registerOk_iff d).1 (registerOk_of_mem hmem)
  rw [byteOk_iff, byteOk_iff]
  omega

theorem all_byteOk_byteInts (s : List Byte) : (byteInts s).all byteOk = true := by
  refine List.all_eq_true.2 (List.forall_mem_map.2 fun b _ => (byteOk_iff _).2 ?_)
  omega

@[simp] theorem byteInts_length (s : List Byte) : (byteInts s).length = s.length := List.length_map _

/-- The bytes of a register's value fit in a packet. -/
theorem dataOk_byteInts {m : ServoModel} {name : String} {d : RegisterDef} (hmem : (name, d) ∈ (tableOf m).registers)
    {s : List Byte} (hs : s.length = d.length) : dataOk (byteInts s) = true := by
  have hlength := length_of_mem hmem
  rw [dataOk, all_byteOk_byteInts, byteInts_length, Bool.true_and]
  exact decide_eq_true (by omega)

theorem readForm_wellFormed_iff (p : Params) (target : ReadForm) :
    target.wellFormed p = true ↔ ∃ r, resolveRead p target = .ok r ∧ byteOk r.1 = true ∧ byteOk r.2 = true := by
  cases target with
  | addressed a l => simp [ReadForm.wellFormed, resolveRead]
  | named name view =>
    obtain ⟨d, hmem, hfind, hlookup⟩ | ⟨hfind, hlookup⟩ := findRegister_cases p name
    · simp [ReadForm.wellFormed, registerKnown, resolveRead, hfind, hlookup, byteOk_of_mem hmem]
    · simp [ReadForm.wellFormed, registerKnown, resolveRead, hfind, hlookup]

theorem writeForm_wellFormed_iff (p : Params) (form : WriteForm) :
    form.wellFormed p = true ↔ ∃ r, resolveWrite p form = .ok r ∧ byteOk r.1 = true ∧ dataOk r.2 = true := by
  cases form with
  | addressed a data => simp [WriteForm.wellFormed, resolveWrite]
  | named name v view =>
    obtain ⟨d, hmem, hfind, hlookup⟩ | ⟨hfind, hlookup⟩ := findRegister_cases p name
    · obtain ⟨haccepted, s, hencode, hs⟩ | ⟨hrefused, r, hencode⟩ := encodeView_cases hmem view v
      · simp [WriteForm.wellFormed, resolveWrite, hfind, hlookup, haccepted, hencode, byteOk_of_mem hmem,
          dataOk_byteInts hmem hs]
      · simp [WriteForm.wellFormed, resolveWrite, hfind, hlookup, hrefused, hencode]
    · simp [WriteForm.wellFormed, resolveWrite, hfind, hlookup]

/-- A REG_WRITE's operand is that of a WRITE in the converted view (44_transactor.md R231, D28). -/
theorem regWriteForm_wellFormed_iff (p : Params) (form : RegWriteForm) :
    form.wellFormed p = true ↔ ∃ r, resolveRegWrite p form = .ok r ∧ byteOk r.1 = true ∧ dataOk r.2 = true := by
  cases form with
  | addressed a data => exact writeForm_wellFormed_iff p (.addressed a data)
  | named name v => exact writeForm_wellFormed_iff p (.named name v .converted)

/-- Values that are encoded together can each be encoded. -/
theorem exists_encodeView_of_encodePairs {p : Params} {view : View} {d : RegisterDef} {pairs : List (Int × UserValue)}
    {ds : List (Int × List Int)} (h : encodePairs p view d pairs = .ok ds) :
    ∀ e ∈ pairs, ∃ s, encodeView p.table p.modeUnknownRaw view d e.2 = .ok s := by
  induction pairs generalizing ds with
  | nil => exact fun e he => absurd he List.not_mem_nil
  | cons e pairs ih =>
    rw [encodePairs] at h
    split at h
    · cases h
    next s hs =>
      split at h
      next more hmore => exact List.forall_mem_cons.2 ⟨⟨s, hs⟩, ih hmore⟩
      · cases h

section
variable {p : Params} {name : String} {d : RegisterDef} (hmem : (name, d) ∈ p.table.registers) {view : View}
  {pairs : List (Int × UserValue)}
include hmem

/-- Values that are all accepted are encoded one by one, each in as many bytes as the register has. -/
theorem encodePairs_of_accepted (h : ∀ e ∈ pairs, viewAccepted p view d.conversion e.2 = true) :
    ∃ bytes : Int × UserValue → List Byte, (∀ e ∈ pairs, (bytes e).length = d.length)
      ∧ encodePairs p view d pairs = .ok (pairs.map fun e => (e.1, byteInts (bytes e))) := by
  have hencode : ∀ e ∈ pairs, ∃ s, encodeView p.table p.modeUnknownRaw view d e.2 = .ok s ∧ s.length = d.length := by
    intro e he
    obtain ⟨-, hs⟩ | ⟨hrefused, -⟩ := encodeView_cases hmem view e.2
    · exact hs
    · exact absurd (h e he) (by simp [hrefused])
  choose! bytes hbytes hlength using hencode
  refine ⟨bytes, hlength, ?_⟩
  have hlookup : lookupRegister p.table name = .ok d := lookupRegister_of_mem hmem
  have hpairs := encodePairs_of_forall_ok hlookup (view := view) (entries := pairs.map fun e => (e, bytes e))
    (List.forall_mem_map.2 fun e he => (encodeByName_of_lookup hlookup view e.2).trans (hbytes e he))
  rw [List.map_map, List.map_map] at hpairs
  simpa [Function.comp_def] using hpairs

theorem accepted_of_encodePairs {ds : List (Int × List Int)} (h : encodePairs p view d pairs = .ok ds) :
    ∀ e ∈ pairs, viewAccepted p view d.conversion e.2 = true := by
  intro e he
  obtain ⟨s, hs⟩ := exists_encodeView_of_encodePairs h e he
  obtain ⟨haccepted, -⟩ | ⟨-, r, hrefused⟩ := encodeView_cases hmem view e.2
  · exact haccepted
  · rw [hs] at hrefused
    cases hrefused

end

theorem all_idOk_and_accepted_iff (p : Params) (view : View) (c : Conversion) (pairs : List (Int × UserValue)) :
    pairs.all (fun e => idOk e.1 && viewAccepted p view c e.2) = true
      ↔ (∀ e ∈ pairs, idOk e.1 = true) ∧ ∀ e ∈ pairs, viewAccepted p view c e.2 = true := by
  simp only [List.all_eq_true, Bool.and_eq_true, forall₂_and]

/-- The values of a SYNC_WRITE by name are all accepted, and then it resolves to one pair per servo, or it does not resolve. -/
theorem syncWriteForm_wellFormed_iff (p : Params) (form : SyncWriteForm) :
    form.wellFormed p = true ↔ ∃ r, resolveSyncWrite p form = .ok r ∧ byteOk r.1 = true ∧ byteOk r.2.1 = true
      ∧ (∀ e ∈ r.2.2, PairOk r.2.1 e) ∧ syncFits r.2.1.toNat r.2.2.length = true := by
  cases form with
  | addressed a l pairs => simp [SyncWriteForm.wellFormed, resolveSyncWrite, pairOk_iff, and_assoc]
  | named name pairs view =>
    obtain ⟨d, hmem, hfind, hlookup⟩ | ⟨hfind, hlookup⟩ := findRegister_cases p name
    · by_cases haccepted : ∀ e ∈ pairs, viewAccepted p view d.conversion e.2 = true
      · obtain ⟨bytes, hlength, hpairs⟩ := encodePairs_of_accepted hmem haccepted
        have hids : (∀ e ∈ pairs, PairOk d.length (e.1, byteInts (bytes e))) ↔ ∀ e ∈ pairs, idOk e.1 = true :=
          forall₂_congr fun e he => by simp [pairOk_iff, all_byteOk_byteInts, hlength e he]
        simp only [SyncWriteForm.wellFormed, resolveSyncWrite, hfind, hlookup, hpairs, Except.ok.injEq, exists_eq_left',
          byteOk_of_mem hmem, Bool.and_eq_true, all_idOk_and_accepted_iff, and_iff_left haccepted, List.forall_mem_map, hids,
          Int.toNat_natCast, List.length_map, true_and]
      · cases hpairs : encodePairs p view d pairs with
        | ok ds => exact absurd (accepted_of_encodePairs hmem hpairs) haccepted
        | error e =>
          simp only [SyncWriteForm.wellFormed, resolveSyncWrite, hfind, hlookup, hpairs, Bool.and_eq_true,
            all_idOk_and_accepted_iff, haccepted, and_false, false_and, reduceCtorEq, exists_false]
    · simp [SyncWriteForm.wellFormed, resolveSyncWrite, hfind, hlookup]

/-- Settles O8: each builder's conditions, on what the operands resolve to. -/
theorem encodeSucceedsExactlyOnWellFormed : Obligations.EncodeSucceedsExactlyOnWellFormed := by
  intro p i
  cases i with
  | ping id | action id | recovery id | reset id => exact exists_packet_nil_iff
  | read id target =>
    rw [encode_read, exists_bind_eq_ok_iff, Instr.wellFormed, Bool.and_eq_true, readForm_wellFormed_iff, ← exists_and_left]
    simp only [exists_buildRead_iff, and_left_comm]
  | write id form w =>
    rw [encode_write, exists_bind_eq_ok_iff, Instr.wellFormed, Bool.and_eq_true, writeForm_wellFormed_iff, ← exists_and_left]
    simp only [exists_buildWrite_iff, and_left_comm]
  | regWrite id form =>
    rw [encode_regWrite, exists_bind_eq_ok_iff, Instr.wellFormed, Bool.and_eq_true, regWriteForm_wellFormed_iff, ← exists_and_left]
    simp only [exists_buildRegWrite_iff, and_left_comm]
  | syncRead ids target =>
    rw [encode_syncRead, exists_bind_eq_ok_iff, Instr.wellFormed, Bool.and_eq_true, Bool.and_eq_true, decide_eq_true_iff,
      readForm_wellFormed_iff, ← exists_and_left]
    simp only [exists_buildSyncRead_iff, and_left_comm]
  | syncWrite form =>
    rw [encode_syncWrite, exists_bind_eq_ok_iff, Instr.wellFormed, syncWriteForm_wellFormed_iff]
    simp only [exists_buildSyncWrite_iff]

end Sys2Proof.Laws
end

section
/-! What the status byte of a reply decides: nothing but the flags in the status info (60_exceptions.md R272). What each operation
does with a reply that parses, has the right ID and the right length. -/

namespace Sys2Proof.Machine

open Laws

section
variable (s : State) (d dt : Nat) (b : List Byte)

@[simp] theorem State.afterRead_params : (s.afterRead d dt b).params = s.params := by simp [State.afterRead, State.params]
@[simp] theorem State.afterRead_slot : (s.afterRead d dt b).slot = s.slot := by simp [State.afterRead]
@[simp] theorem State.afterRead_failed : (s.afterRead d dt b).failed = s.failed := by simp [State.afterRead]
@[simp] theorem State.afterRead_returned : (s.afterRead d dt b).returned = s.returned := by simp [State.afterRead]

end

/-- Parameters that give a reading are read as it (44_transactor.md R226, R235). -/
theorem readParams_of_slotGives {p : Params} {target : ReadForm} {params : List Byte} {v : Reading}
    (h : slotGives p target params v) : readParams p target params = some v := by
  cases target with
  | named name view =>
    obtain ⟨reg, hmem, hlen, rfl⟩ := h
    have hfind : findRegister p.table name = some reg := findRegister_of_mem hmem
    simp only [readParams, hfind, if_pos hlen]
    cases view <;> rfl
  | addressed a l =>
    obtain ⟨hlen, rfl⟩ := h
    exact if_pos hlen

theorem withReply_info {i : Instr} (h : returnsInfo i = true) (r : Response) (s : State) :
    withReply i (.packet (.ok r)) s = s.complete (.info (statusInfo r.id r.status)) := by
  cases i with
  | ping _ | recovery _ | reset _ | regWrite _ _ => rfl
  | write _ _ awaited =>
    cases awaited with
    | true => rfl
    | false => cases h
  | read _ _ | action _ | syncRead _ _ | syncWrite _ => cases h

theorem withReply_read {s : State} {r : Response} {target : ReadForm} {v : Reading} (h : slotGives s.params target r.params v)
    (id : Int) :
    withReply (.read id target) (.packet (.ok r)) s = s.complete (.reading v (statusInfo r.id r.status)) := by
  simp only [withReply, readReply, readParams_of_slotGives h]

theorem withReply_drained (id : Int) (form : WriteForm) (r : Response) (s : State) :
    withReply (.write id form false) (.packet (.ok r)) s = s.complete .unit := rfl

section
variable {s : State} {r : Response} {ids : List Int} {target : ReadForm} {v : Reading}
  (hgives : slotGives s.params target r.params v) (hid : ids[s.slot]? = some (byteInt r.id)) (hfailed : s.failed = false)
include hgives hid hfailed

/-- A slot that succeeds gathers its reading. -/
theorem withReply_slot :
    withReply (.syncRead ids target) (.packet (.ok r)) s
      = nextSlot ids { s with acc := s.acc ++ [(v, statusInfo r.id r.status)] } := by
  simp only [withReply, syncReadReply, closeSlot, slotReading, hfailed, hid, and_self, if_true, readParams_of_slotGives hgives,
    Option.map_some]

/-- While no slot has failed the call goes on, or returns what it has gathered (44_transactor.md R234). -/
theorem withReply_slot_cases :
    ((withReply (.syncRead ids target) (.packet (.ok r)) s).returned = s.returned
        ∧ (withReply (.syncRead ids target) (.packet (.ok r)) s).failed = false)
      ∨ (withReply (.syncRead ids target) (.packet (.ok r)) s).returned
        = s.returned ++ [.ok (.readings (s.acc ++ [(v, statusInfo r.id r.status)]))] := by
  rw [withReply_slot hgives hid hfailed, nextSlot]
  split
  · exact .inl ⟨rfl, hfailed⟩
  · rw [hfailed, if_neg (by decide)]
    exact .inr rfl

end

/-- A receive loop whose reply completes the operation returns the result. -/
theorem exec_returns_of_complete {i : Instr} {s : State} {d dt : Nat} {buf : List Byte} {o : Reply} {res : OpResult}
    (hawaits : s.awaits i d) (hreply : s.receives d dt buf o)
    (h : withReply i o (s.afterRead d dt buf) = (s.afterRead d dt buf).complete res) :
    ∃ t, exec i s = .next t ∧ t.returned = s.returned ++ [.ok res] :=
  ⟨_, exec_of_receives hawaits hreply, by rw [h]; simp⟩

/-- Settles O46: in each of the four cases the status byte stands in the result alone. -/
theorem statusByteIsNeverAnError : Obligations.StatusByteIsNeverAnError := by
  intro i s d dt buf r hawaits hreply
  refine ⟨fun hinfo => ?_, ?_, ?_, ?_⟩
  · exact exec_returns_of_complete hawaits hreply (withReply_info hinfo _ _)
  · rintro id target v rfl hgives
    exact exec_returns_of_complete hawaits hreply (withReply_read (by simpa using hgives) id)
  · rintro ⟨id, form, rfl⟩
    exact exec_returns_of_complete hawaits hreply (withReply_drained id form _ _)
  · rintro ids target v rfl hgives hid hfailed
    refine ⟨_, exec_of_receives hawaits hreply, ?_⟩
    have hslot := withReply_slot_cases (s := s.afterRead d dt buf) (r := r) (by simpa using hgives)
      (by rw [State.afterRead_slot]; exact hid) (by simpa using hfailed)
    rw [State.afterRead_returned] at hslot
    exact hslot.imp_right fun hends => ⟨_, hends, List.getLast?_concat⟩

end Sys2Proof.Machine
end

section
/-! What a step is (00_scope.md R7, 60_exceptions.md R292): the request at the head of the queue served when idle, the next
transition of the operation in flight otherwise. -/

namespace Sys2Proof.Machine

/-- A step of an idle transactor serves the request at the head of the queue (20_memory.md R65). -/
theorem step_of_request {s : State} {r : Request} {rest : List Request} (hidle : s.phase = .idle)
    (hreq : s.requests = r :: rest) : step s = serve r { s with requests := rest } := by
  rw [step_of_idle hidle, stepIdle, hreq]

/-- Settles O30: the request served when idle, and the operation in flight otherwise. -/
theorem stepRunsTheDecodedInstruction : Obligations.StepRunsTheDecodedInstruction := by
  refine ⟨fun s bytes rest i hidle hreq hdecode => ?_, fun s rest i hidle hreq => step_of_request hidle hreq,
    fun s i hphase hop hquiet => step_of_quiet hphase hop hquiet, fun s i rest hphase hop hquiet => ?_,
    fun s hidle hreq => ?_, fun s ms rest hidle hreq => step_of_request hidle hreq⟩
  · rw [step_of_request hidle hreq, serve, hdecode]
  · rw [step_of_not_idle hphase, stepInFlight, hop, hquiet]
  · rw [step_of_idle hidle, stepIdle, hreq]

end Sys2Proof.Machine
end

section
/-! Decoding and encoding undo each other (30_encoding.md sections 1 and 2, log 11): the packet of an instruction in packet form
decodes to that instruction, and bytes that decode are the one packet of what they decode to. What ill-formed packets are
refused for (41_packet_codec.md section 1). -/

namespace Sys2Proof.Laws

open Machine

/-! From the instruction to its packet -/

/-- An instruction in packet form has no operand left to resolve. -/
theorem expand_of_isPacketForm (p : Params) : ∀ {i : Instr}, i.isPacketForm = true → expand p i = .ok i
  | .ping _, _ | .action _, _ | .recovery _, _ | .reset _, _ | .read _ (.addressed _ _), _
  | .write _ (.addressed _ _) true, _ | .regWrite _ (.addressed _ _), _ | .syncRead _ (.addressed _ _), _
  | .syncWrite (.addressed _ _ _), _ => rfl

/-- Settles O10: a well-formed instruction has a packet, which decodes to its expansion, and that is the instruction itself. -/
theorem decodeInvertsEncode : Obligations.DecodeInvertsEncode := by
  intro p i hwf hform
  obtain ⟨s, hs⟩ := (encodeSucceedsExactlyOnWellFormed p i).2 hwf
  obtain ⟨j, hexpand, hdecode, -⟩ := decode_encode_eq_expand hs
  obtain rfl : i = j := Except.ok.inj ((expand_of_isPacketForm p hform).symm.trans hexpand)
  exact ⟨s, hs, hdecode⟩

/-! From the bytes to the instruction -/

theorem byteOk_byteInt (b : Byte) : byteOk (byteInt b) = true := by
  rw [byteOk_iff, byteInt]
  omega

theorem toByte_byteInt (b : Byte) : toByte (byteInt b) = b := by
  refine BitVec.eq_of_toNat_eq ?_
  rw [toByte_toNat (byteOk_byteInt b), byteInt, Int.toNat_natCast]

theorem map_toByte_byteInts (s : List Byte) : (byteInts s).map toByte = s := by
  rw [byteInts, List.map_map]
  exact (List.map_congr_left fun b _ => toByte_byteInt b).trans (List.map_id' s)

theorem idOk_byteInt {b : Byte} (h : b ≠ 0xFF#8) : idOk (byteInt b) = true := by
  have hne : b.toNat ≠ 255 := fun heq => h (BitVec.eq_of_toNat_eq heq)
  rw [idOk_iff, byteInt]
  omega

/-- Bytes that decode are a frame with a right LEN and a right checksum, and decode by its ID, code and parameters. -/
theorem decode_ok {s : List Byte} {i : Instr} (h : decode s = .ok i) :
    ∃ id code params, params.length ≤ 253 ∧ s = frame (id :: BitVec.ofNat 8 (params.length + 2) :: code :: params)
      ∧ decodeBody id code params = .ok i := by
  unfold decode at h
  split at h
  next h0 h1 id len code rest =>
    split at h
    · cases h
    next hheader =>
      split at h
      · cases h
      next hlen =>
        obtain ⟨rfl, rfl⟩ := not_not.1 hheader
        simp only at h
        split at h
        · cases h
        next hchk =>
          have hrest := List.dropLast_append_getLast? _ (not_not.1 hchk)
          generalize rest.dropLast = params at h hrest
          subst hrest
          have hLEN : params.length + 2 = len.toNat := by simpa using hlen
          have hbyte : BitVec.ofNat 8 (params.length + 2) = len := by rw [hLEN, BitVec.ofNat_toNat, BitVec.setWidth_eq]
          have hbound : len.toNat < 256 := len.isLt
          exact ⟨id, code, params, by omega, by rw [hbyte]; rfl, h⟩
  · cases h

/-- Bytes as the integers a builder takes assemble to their own frame. -/
theorem packet_byteInts {id : Byte} (hid : id ≠ 0xFF#8) (code : Byte) {params : List Byte} (h : params.length ≤ 253) :
    packet (byteInt id) code (byteInts params)
      = .ok (frame (id :: BitVec.ofNat 8 (params.length + 2) :: code :: params)) := by
  rw [packet, idOk_byteInt hid, all_byteOk_byteInts, byteInts_length, if_neg (by decide), if_neg (by decide),
    if_neg (by omega), toByte_byteInt, map_toByte_byteInts]

/-! The builders on an address and a length that bytes can hold -/

section
variable {a l : Int} (ha : byteOk a = true)
include ha

theorem buildWrite_of_byteOk (id : Int) (data : List Int) : buildWrite id a data = packet id codeWrite (a :: data) :=
  if_neg (by simp [ha])

theorem buildRegWrite_of_byteOk (id : Int) (data : List Int) : buildRegWrite id a data = packet id codeRegWrite (a :: data) :=
  if_neg (by simp [ha])

variable (hl : byteOk l = true)
include hl

theorem buildRead_of_byteOk (id : Int) : buildRead id a l = packet id codeRead [a, l] := if_neg (by simp [ha, hl])

theorem buildSyncRead_of_all_idOk {ids : List Int} (hids : ids.all idOk = true) :
    buildSyncRead a l ids = packet Config.broadcastId codeSyncRead (a :: l :: ids) := by
  simp [buildSyncRead, ha, hl, hids]

theorem buildSyncRead_of_not_all_idOk {ids : List Int} (hids : ¬ids.all idOk = true) :
    buildSyncRead a l ids = .error (.refuse .idRange) := by
  simp [buildSyncRead, ha, hl, hids]

theorem buildSyncWrite_of_check_none {pairs : List (Int × List Int)} (hpairs : syncWritePairsCheck l pairs = none) :
    buildSyncWrite a l pairs = packet Config.broadcastId codeSyncWrite (a :: l :: syncWriteParams pairs) := by
  simp only [buildSyncWrite, ha, hl, hpairs, Bool.and_self, Bool.not_true, Bool.false_eq_true, if_false]

theorem buildSyncWrite_of_check_some {pairs : List (Int × List Int)} {r : RefuseReason}
    (hpairs : syncWritePairsCheck l pairs = some r) : buildSyncWrite a l pairs = .error (.refuse r) := by
  simp only [buildSyncWrite, ha, hl, hpairs, Bool.and_self, Bool.not_true, Bool.false_eq_true, if_false]

end

/-! Each instruction's layout -/

/-- The instruction `i` is in packet form, and its packet has these three fields whatever the control table. -/
def IsPacketOf (i : Instr) (id code : Byte) (params : List Byte) : Prop :=
  i.isPacketForm = true ∧ ∀ p, encode p i = packet (byteInt id) code (byteInts params)

theorem isPacketOf_of_decodeBare {i j : Instr} {id code : Byte} {params : List Byte} (hi : IsPacketOf i id code [])
    (h : decodeBare i params = .ok j) : IsPacketOf j id code params := by
  cases params with
  | nil =>
    cases h
    exact hi
  | cons b params => cases h

theorem isPacketOf_of_decodeRead {i : Instr} {id : Byte} {params : List Byte} (h : decodeRead id params = .ok i) :
    IsPacketOf i id codeRead params := by
  unfold decodeRead at h
  split at h
  next a l =>
    cases h
    exact ⟨rfl, fun _ => buildRead_of_byteOk (byteOk_byteInt a) (byteOk_byteInt l) _⟩
  · cases h

theorem isPacketOf_of_decodeWrite {i : Instr} {id : Byte} {params : List Byte} (h : decodeWrite id params = .ok i) :
    IsPacketOf i id codeWrite params := by
  cases params with
  | nil => cases h
  | cons a data =>
    cases h
    exact ⟨rfl, fun _ => buildWrite_of_byteOk (byteOk_byteInt a) _ _⟩

theorem isPacketOf_of_decodeRegWrite {i : Instr} {id : Byte} {params : List Byte} (h : decodeRegWrite id params = .ok i) :
    IsPacketOf i id codeRegWrite params := by
  cases params with
  | nil => cases h
  | cons a data =>
    cases h
    exact ⟨rfl, fun _ => buildRegWrite_of_byteOk (byteOk_byteInt a) _ _⟩

theorem isPacketOf_of_decodeSyncRead {i : Instr} {id : Byte} {params : List Byte} (h : decodeSyncRead id params = .ok i) :
    IsPacketOf i id codeSyncRead params := by
  unfold decodeSyncRead at h
  split at h
  · cases h
  next hid =>
    obtain rfl := not_not.1 hid
    split at h
    next a l ids =>
      split at h
      next hids =>
        cases h
        have hall : (byteInts ids).all idOk = true :=
          List.all_eq_true.2 (List.forall_mem_map.2 fun b hb => idOk_byteInt (by simpa using List.all_eq_true.1 hids b hb))
        exact ⟨rfl, fun _ => buildSyncRead_of_all_idOk (byteOk_byteInt a) (byteOk_byteInt l) hall⟩
      · cases h
    · cases h

/-- The groups of a SYNC_WRITE are pairs of the announced length, whose parameter bytes are the groups. -/
theorem decodeGroups_eq_some {l k : Nat} {groups : List Byte} {pairs : List (Int × List Int)}
    (h : decodeGroups l k groups = some pairs) :
    syncWriteParams pairs = byteInts groups ∧ ∀ e ∈ pairs, e.2.length = l := by
  induction k generalizing groups pairs with
  | zero =>
    cases groups with
    | nil =>
      cases h
      exact ⟨rfl, by simp⟩
    | cons id rest => cases h
  | succ k ih =>
    cases groups with
    | nil =>
      cases h
      exact ⟨rfl, by simp⟩
    | cons id rest =>
      rw [decodeGroups] at h
      split at h
      · cases h
      next hlen =>
        obtain ⟨more, hmore, rfl⟩ := Option.map_eq_some_iff.1 h
        obtain ⟨hparams, hlengths⟩ := ih hmore
        refine ⟨?_, List.forall_mem_cons.2 ⟨?_, hlengths⟩⟩
        · rw [syncWriteParams, hparams, byteInts, byteInts, ← List.map_append, List.take_append_drop]
          rfl
        · rw [byteInts_length, List.length_take_of_le (Nat.not_lt.1 hlen)]

theorem isPacketOf_of_decodeSyncWrite {i : Instr} {id : Byte} {params : List Byte} (h : decodeSyncWrite id params = .ok i) :
    IsPacketOf i id codeSyncWrite params := by
  unfold decodeSyncWrite at h
  split at h
  · cases h
  next hid =>
    obtain rfl := not_not.1 hid
    split at h
    next a l groups =>
      split at h
      next pairs hpairs =>
        split at h
        next hids =>
          cases h
          obtain ⟨hparams, hlengths⟩ := decodeGroups_eq_some hpairs
          have hcheck : syncWritePairsCheck (byteInt l) pairs = none :=
            (syncWritePairsCheck_eq_none_iff _ _).2 fun e he =>
              ⟨List.all_eq_true.1 hids e he, congrArg Nat.cast (hlengths e he)⟩
          refine ⟨rfl, fun _ => (buildSyncWrite_of_check_none (byteOk_byteInt a) (byteOk_byteInt l) hcheck).trans ?_⟩
          rw [hparams]
          rfl
        · cases h
      · cases h
    · cases h

/-- Every body that decodes is that of its instruction's packet, and its ID is not the header byte (30_encoding.md R85 to R87). -/
theorem isPacketOf_of_decodeBody {i : Instr} {id code : Byte} {params : List Byte} (h : decodeBody id code params = .ok i) :
    id ≠ 0xFF#8 ∧ IsPacketOf i id code params := by
  unfold decodeBody at h
  split at h
  · cases h
  next hid =>
  refine ⟨hid, ?_⟩
  split at h
  next hcode => exact hcode ▸ isPacketOf_of_decodeBare ⟨rfl, fun _ => rfl⟩ h
  split at h
  next hcode => exact hcode ▸ isPacketOf_of_decodeRead h
  split at h
  next hcode => exact hcode ▸ isPacketOf_of_decodeWrite h
  split at h
  next hcode => exact hcode ▸ isPacketOf_of_decodeRegWrite h
  split at h
  next hcode => exact hcode ▸ isPacketOf_of_decodeBare ⟨rfl, fun _ => rfl⟩ h
  split at h
  next hcode => exact hcode ▸ isPacketOf_of_decodeBare ⟨rfl, fun _ => rfl⟩ h
  split at h
  next hcode => exact hcode ▸ isPacketOf_of_decodeBare ⟨rfl, fun _ => rfl⟩ h
  split at h
  next hcode => exact hcode ▸ isPacketOf_of_decodeSyncRead h
  split at h
  next hcode => exact hcode ▸ isPacketOf_of_decodeSyncWrite h
  · cases h

/-- Settles O12: the fields of a frame that decodes are those of its instruction's packet, which is therefore that frame. -/
theorem encodeInvertsDecode : Obligations.EncodeInvertsDecode := by
  intro p s i h
  obtain ⟨id, code, params, hlen, rfl, hbody⟩ := decode_ok h
  obtain ⟨hid, hform, hencode⟩ := isPacketOf_of_decodeBody hbody
  have hs := (hencode p).trans (packet_byteInts hid code hlen)
  exact ⟨(encodeSucceedsExactlyOnWellFormed p i).1 ⟨_, hs⟩, hform, hs⟩

/-- Settles O13: the nine words evaluated. -/
theorem specWordsDecode : Obligations.SpecWordsDecode := by
  refine ⟨?_, ?_, ?_, ?_, ?_, ?_, ?_, ?_, ?_⟩ <;> rfl

/-! What is refused, and why -/

theorem all_ne_true_of_mem {α : Type} {f : α → Bool} {l : List α} (h : ∃ x ∈ l, ¬f x = true) : ¬l.all f = true := by
  simpa [List.all_eq_true] using h

section
variable {id : Int} (code : Byte) {params : List Int}

theorem packet_of_not_idOk (hid : ¬idOk id = true) : packet id code params = .error (.refuse .idRange) :=
  if_pos (by simp [hid])

theorem packet_of_not_byteOk (hid : idOk id = true) (hbytes : ¬params.all byteOk = true) :
    packet id code params = .error (.refuse .byteRange) := by
  rw [packet, hid, if_neg (by decide), if_pos (by simpa using hbytes)]

theorem packet_of_too_long (hid : idOk id = true) (hbytes : params.all byteOk = true) (hlen : 253 < params.length) :
    packet id code params = .error (.refuse .packetTooLong) := by
  rw [packet, hid, hbytes, if_neg (by decide), if_neg (by decide), if_pos (by omega)]

end

/-- Pairs that pass their checks leave the decision to those after them (R148). -/
theorem syncWritePairsCheck_append {l : Int} {before : List (Int × List Int)}
    (h : ∀ q ∈ before, idOk q.1 = true ∧ (q.2.length : Int) = l) (rest : List (Int × List Int)) :
    syncWritePairsCheck l (before ++ rest) = syncWritePairsCheck l rest := by
  induction before with
  | nil => rfl
  | cons q before ih =>
    obtain ⟨⟨hid, hlen⟩, hbefore⟩ := List.forall_mem_cons.1 h
    rw [List.cons_append, syncWritePairsCheck, hid, if_neg (by decide), if_neg (not_not.2 hlen), ih hbefore]

/-- Settles O9: each refusal by the first check that fails. -/
theorem buildersRefuseByName : Obligations.BuildersRefuseByName := by
  simp only [Obligations.BuildersRefuseByName, ← idOk_iff, ← byteOk_iff]
  refine ⟨fun id code ps hid => packet_of_not_idOk code hid,
    fun id code ps hid hbytes => packet_of_not_byteOk code hid (all_ne_true_of_mem hbytes),
    fun id code ps hid hbytes hlen => packet_of_too_long code hid (List.all_eq_true.2 hbytes) hlen,
    fun id a l data ids pairs => ⟨fun ha => ⟨if_pos (by simp [ha]), if_pos (by simp [ha])⟩, fun hal => ?_⟩,
    fun a l ids ha hl hids => buildSyncRead_of_not_all_idOk ha hl (all_ne_true_of_mem hids),
    fun a l before after e ha hl hbefore => ⟨fun hid => ?_, fun hid hlen => ?_⟩⟩
  · have hcheck : (!(byteOk a && byteOk l)) = true := by rwa [Bool.not_eq_true', ← Bool.not_eq_true, Bool.and_eq_true]
    exact ⟨if_pos hcheck, if_pos hcheck, if_pos hcheck⟩
  · refine buildSyncWrite_of_check_some ha hl ?_
    rw [syncWritePairsCheck_append hbefore, syncWritePairsCheck, if_pos (by simp [hid])]
  · refine buildSyncWrite_of_check_some ha hl ?_
    rw [syncWritePairsCheck_append hbefore, syncWritePairsCheck, hid, if_neg (by decide), if_pos hlen]

end Sys2Proof.Laws
end

section
/-! What a conversion refuses (42_control_table.md section 3), and the exact quotients behind its rounding (section 5). -/

namespace Sys2Proof.Laws

open Machine

/-- The name under which a conversion refuses a value: a mode without a raw value by its own name (R175, R178, D29, D31). -/
def refusalOf : Conversion → UserValue → RefuseReason
  | .mode, .mode .unknown => .modeUnknown
  | _, _ => .valueKind

theorem refusalOf_eq_ite (c : Conversion) (v : UserValue) :
    refusalOf c v = if c = .mode ∧ v = .mode .unknown then .modeUnknown else .valueKind := by
  unfold refusalOf
  split
  · rfl
  next h => rw [if_neg fun ⟨hc, hv⟩ => h hc hv]

/-- A conversion refuses each value it does not accept by its name (R175, R178). -/
theorem encodeConversion_of_not_accepted {p : Params} {d : RegisterDef} {v : UserValue}
    (h : valueAccepted p d.conversion v = false) :
    encodeConversion p.table p.modeUnknownRaw d v = .error (.refuse (refusalOf d.conversion v)) := by
  cases hc : d.conversion with
  | none | scale _ | position | speed | speedSigned | loadSigned | positionOffset =>
    refine encodeConversion_of_not_numeric _ (by rw [hc]; rfl) ?_
    rw [hc] at h
    exact Option.not_isSome_iff_eq_none.1 (Bool.not_eq_true _ ▸ h)
  | bool =>
    cases v with
    | flag b => rw [hc] at h; cases h
    | int _ | num _ | mode _ | baud _ => simp only [encodeConversion, hc, refusalOf]
  | baudRate =>
    cases v with
    | baud b => rw [hc] at h; cases h
    | int _ | num _ | flag _ | mode _ => simp only [encodeConversion, hc, refusalOf]
  | mode =>
    cases v with
    | mode k =>
      rw [hc] at h
      obtain ⟨hk, -⟩ | ⟨hk, hraw⟩ := modeToRaw_cases p.modeUnknownRaw k
      · exact absurd (hk.symm.trans h) (by decide)
      · have hunknown : k = .unknown := by cases k <;> simp at hk ⊢
        rw [encodeConversion_mode _ _ hc, hraw, hunknown]
        rfl
    | int _ | num _ | flag _ | baud _ => simp only [encodeConversion, hc, refusalOf]

/-- Settles O22: an accepted value is encoded, and any other refused under `refusalOf`. -/
theorem convertedEncodeRefusesWrongKinds : Obligations.ConvertedEncodeRefusesWrongKinds := by
  intro m u name d v hmem
  rw [encodeUser_of_mem hmem, ← refusalOf_eq_ite]
  refine ⟨fun haccepted => ?_, fun hrefused => encodeConversion_of_not_accepted (p := ⟨m, u⟩) hrefused⟩
  obtain ⟨-, hs⟩ | ⟨hrefused, -⟩ := encodeConversion_cases (p := ⟨m, u⟩) hmem v
  · exact hs
  · exact absurd (haccepted.symm.trans hrefused) (by decide)

/-- Settles O26: `roundQuotient_eq_roundReal` at the two units of the table, whose reals are f and f·π. -/
theorem roundedQuotientsAreExact : Obligations.RoundedQuotientsAreExact := by
  refine ⟨fun c f hf => ⟨?_, ?_⟩, realOfCut_userCut⟩
  · rw [roundQuotient_eq_roundReal c (by simpa using hf) (le_refl _)]
    simp [realOf]
  · rw [roundQuotient_eq_roundReal c (by simpa using hf) hf.le]
    simp [realOf]

/-- Settles O19: the 34 rows evaluated. -/
theorem tableIsWellFormed : Obligations.TableIsWellFormed :=
  ⟨by decide +kernel, rfl, by decide +kernel⟩

end Sys2Proof.Laws
end

section
/-! The start of an operation (44_transactor.md R221, 60_exceptions.md R271): admission's answer in each case, and what
`exec` makes of it. -/

namespace Sys2Proof.Machine

open Laws

/-! Admission -/

theorem admission_of_closed (i : Instr) {s : State} (h : s.transport = .closed) : admission i s = some .closed := if_pos h

theorem admission_of_busy (i : Instr) {s : State} (hopen : s.transport = .opened) (hbusy : s.phase ≠ .idle) :
    admission i s = some .busy := by
  rw [admission, hopen, if_neg (by decide), if_pos hbusy]

theorem admission_of_ready (i : Instr) {s : State} (h : s.ready) : admission i s = admitIds i := by
  obtain ⟨hopen, hidle⟩ := h
  rw [admission, hopen, if_neg (by decide), if_neg (not_not.2 hidle)]

/-- An operation that expects a reply from one servo has the ID check of that servo. -/
theorem admitIds_of_unicastId {i : Instr} {id : Int} (h : unicastId i = some id) : admitIds i = admitUnicast id := by
  cases i with
  | ping _ | read _ _ | write _ _ _ | regWrite _ _ | recovery _ | reset _ =>
    cases h
    rfl
  | action _ | syncRead _ _ | syncWrite _ => cases h

theorem admitUnicast_of_not_idOk {id : Int} (h : ¬(0 ≤ id ∧ id ≤ 254)) : admitUnicast id = some .idRange :=
  if_pos (by rwa [← idOk_iff, Bool.not_eq_true, ← Bool.not_eq_true'] at h)

/-- A pair of a SYNC_WRITE with an ID out of range makes admission refuse it, by name or by address. -/
theorem not_all_idOk_of_mem {α : Type} {pairs : List (Int × α)} (h : ∃ e ∈ pairs, ¬(0 ≤ e.1 ∧ e.1 ≤ 254)) :
    ¬pairs.all (fun e => idOk e.1) = true :=
  all_ne_true_of_mem (by simpa only [idOk_iff] using h)

/-! What `exec` answers -/

/-- A request that is not the operation in flight and that admission refuses changes the mark and nothing else. -/
theorem exec_of_not_admitted {i : Instr} {s : State} {r : RefuseReason} (hnew : s.phase = .idle ∨ s.op ≠ some i)
    (h : admission i s = some r) :
    exec i s = .next { s with refused := true, returned := s.returned ++ [.refused r] } := by
  rw [exec_eq_transact, transact, if_neg fun hflight => hnew.elim hflight.1 (fun hop => hop hflight.2)]
  simp only [begin, h]
  rfl

theorem exec_of_admitIds {i : Instr} {s : State} {r : RefuseReason} (hready : s.ready) (h : admitIds i = some r) :
    exec i s = .next { s with refused := true, returned := s.returned ++ [.refused r] } :=
  exec_of_not_admitted (.inl hready.2) ((admission_of_ready i hready).trans h)

/-- Settles O31: the start of an operation that passes admission and building. -/
theorem admittedRequestStartsSending : Obligations.AdmittedRequestStartsSending :=
  fun _ _ _ hready hids hpkt => exec_of_admitted hready hids hpkt

/-- Settles O33: what the failure of the packet makes of the state is `rejectEagerly`. -/
theorem eagerFailuresSendNothing : Obligations.EagerFailuresSendNothing :=
  fun _ _ hready hids => ⟨fun _ h => exec_of_encode_error hready hids h, fun _ h => exec_of_encode_error hready hids h⟩

/-- Settles O32: admission's answer at a closed, at a busy and at a ready transactor. -/
theorem admissionRefusesInOrder : Obligations.AdmissionRefusesInOrder := by
  intro i s
  refine ⟨fun hnew hclosed => exec_of_not_admitted hnew (admission_of_closed i hclosed),
    fun hopen hbusy hop => exec_of_not_admitted (.inr hop) (admission_of_busy i hopen hbusy),
    fun hready id hid hrange => exec_of_admitIds hready ?_, fun hready id hi hid => exec_of_admitIds hready ?_,
    fun hready hid => exec_of_admitIds hready ?_, fun hready ids target hi hmem => exec_of_admitIds hready ?_,
    fun hready name pairs view hi hpairs => exec_of_admitIds hready ?_,
    fun hready a l pairs hi hpairs => exec_of_admitIds hready ?_⟩
  · rw [admitIds_of_unicastId hid, admitUnicast_of_not_idOk hrange]
  · rw [hi]
    exact if_neg hid
  · rw [admitIds_of_unicastId hid]
    rfl
  · rw [hi]
    exact if_pos (List.any_eq_true.2 ⟨254, hmem, rfl⟩)
  · rw [hi]
    exact if_neg (not_all_idOk_of_mem hpairs)
  · rw [hi]
    exact if_neg (not_all_idOk_of_mem hpairs)

end Sys2Proof.Machine
end

section
/-! One transport call (44_transactor.md R222, R223): which fields a write and a chunk read leave unchanged. -/

namespace Sys2Proof.Machine

section
variable (s : State) (pkt : List Byte) (dt : Nat)

@[simp] theorem State.afterWrite_phase : (s.afterWrite pkt dt).phase = s.phase := by simp [State.afterWrite]
@[simp] theorem State.afterWrite_op : (s.afterWrite pkt dt).op = s.op := by simp [State.afterWrite]
@[simp] theorem State.afterWrite_deadline : (s.afterWrite pkt dt).deadline = s.deadline := by simp [State.afterWrite]
@[simp] theorem State.afterWrite_slot : (s.afterWrite pkt dt).slot = s.slot := by simp [State.afterWrite]
@[simp] theorem State.afterWrite_acc : (s.afterWrite pkt dt).acc = s.acc := by simp [State.afterWrite]
@[simp] theorem State.afterWrite_failed : (s.afterWrite pkt dt).failed = s.failed := by simp [State.afterWrite]
@[simp] theorem State.afterWrite_rxBuf : (s.afterWrite pkt dt).rxBuf = s.rxBuf := by simp [State.afterWrite]
@[simp] theorem State.afterWrite_transport : (s.afterWrite pkt dt).transport = s.transport := by simp [State.afterWrite]
@[simp] theorem State.afterWrite_controlTable : (s.afterWrite pkt dt).controlTable = s.controlTable := by
  simp [State.afterWrite]
@[simp] theorem State.afterWrite_timeoutMs : (s.afterWrite pkt dt).timeoutMs = s.timeoutMs := by simp [State.afterWrite]
@[simp] theorem State.afterWrite_modeUnknownRaw : (s.afterWrite pkt dt).modeUnknownRaw = s.modeUnknownRaw := by
  simp [State.afterWrite]
@[simp] theorem State.afterWrite_drainPolicy : (s.afterWrite pkt dt).drainPolicy = s.drainPolicy := by simp [State.afterWrite]
@[simp] theorem State.afterWrite_params : (s.afterWrite pkt dt).params = s.params := by simp [State.params]
@[simp] theorem State.afterWrite_refused : (s.afterWrite pkt dt).refused = s.refused := by simp [State.afterWrite]
@[simp] theorem State.afterWrite_faults : (s.afterWrite pkt dt).faults = s.faults := by simp [State.afterWrite]
@[simp] theorem State.afterWrite_returned : (s.afterWrite pkt dt).returned = s.returned := by simp [State.afterWrite]
@[simp] theorem State.afterWrite_now : (s.afterWrite pkt dt).now = s.now + dt := rfl

end

section
variable (s : State) (d dt : Nat) (b : List Byte)

@[simp] theorem State.afterRead_acc : (s.afterRead d dt b).acc = s.acc := by simp [State.afterRead]
@[simp] theorem State.afterRead_rxBuf : (s.afterRead d dt b).rxBuf = b := rfl
@[simp] theorem State.afterRead_transport : (s.afterRead d dt b).transport = s.transport := by simp [State.afterRead]
@[simp] theorem State.afterRead_controlTable : (s.afterRead d dt b).controlTable = s.controlTable := by simp [State.afterRead]
@[simp] theorem State.afterRead_timeoutMs : (s.afterRead d dt b).timeoutMs = s.timeoutMs := by simp [State.afterRead]
@[simp] theorem State.afterRead_modeUnknownRaw : (s.afterRead d dt b).modeUnknownRaw = s.modeUnknownRaw := by
  simp [State.afterRead]
@[simp] theorem State.afterRead_drainPolicy : (s.afterRead d dt b).drainPolicy = s.drainPolicy := by simp [State.afterRead]
@[simp] theorem State.afterRead_refused : (s.afterRead d dt b).refused = s.refused := by simp [State.afterRead]
@[simp] theorem State.afterRead_faults : (s.afterRead d dt b).faults = s.faults := by simp [State.afterRead]

end

end Sys2Proof.Machine
end

section
/-! What a step of an operation in flight comes to (44_transactor.md sections 1 to 3): once its packet is written, and on each
outcome of its chunk read. -/

namespace Sys2Proof.Machine

/-! Once the packet is written -/

/-- An operation that awaits one reply. -/
def AwaitsOneReply (i : Instr) : Prop := returnsInfo i = true ∨ ∃ id target, i = .read id target

theorem afterWritten_of_awaitsOneReply {i : Instr} (h : AwaitsOneReply i) (s : State) :
    afterWritten i s = s.startReceive .awaitingResponse := by
  obtain hinfo | ⟨id, target, rfl⟩ := h
  · cases i with
    | ping _ | recovery _ | reset _ | regWrite _ _ => rfl
    | write _ _ awaited =>
      cases awaited with
      | true => rfl
      | false => cases hinfo
    | read _ _ | action _ | syncRead _ _ | syncWrite _ => cases hinfo
  · rfl

theorem syncReadStart_of_ne_nil {ids : List Int} (h : ids ≠ []) (s : State) :
    syncReadStart ids s = { s with acc := [], failed := false, slot := 0 }.startReceive .awaitingResponse :=
  if_neg h

/-- The deadline is taken once the packet is written (log 17). -/
theorem startReceive_afterWrite (s : State) (pkt : List Byte) (dt : Nat) (ph : Phase) :
    (s.afterWrite pkt dt).startReceive ph
      = { s.afterWrite pkt dt with phase := ph, deadline := some (s.now + dt + s.timeoutMs) } := by
  simp only [State.startReceive, State.afterWrite_timeoutMs, State.afterWrite_now]

/-- Settles O35: what each operation does once its packet is written. -/
theorem packetWrittenThenReplyIsRead : Obligations.PacketWrittenThenReplyIsRead := by
  intro i s pkt dt hop hphase hpkt hwrite
  rw [exec_of_written hop hphase hpkt hwrite]
  refine ⟨fun hone => ?_, ?_, ?_⟩
  · rw [afterWritten_of_awaitsOneReply hone, startReceive_afterWrite]
  · rintro ⟨id, form, rfl⟩
    exact congrArg Host.Outcome.next (startReceive_afterWrite s pkt dt .draining)
  · rintro ⟨ids, target, rfl, hids⟩
    rw [afterWritten, syncReadStart_of_ne_nil hids]
    simp only [State.startReceive, State.afterWrite_timeoutMs, State.afterWrite_now]

/-- Settles O37: these operations end once their packet is written. -/
theorem broadcastsEndOnceWritten : Obligations.BroadcastsEndOnceWritten :=
  fun _ _ _ hphase hwrite => ⟨fun hop hpkt => exec_of_written hop hphase hpkt hwrite,
    fun _ hop hpkt => exec_of_written hop hphase hpkt hwrite, fun _ hop hpkt => exec_of_written hop hphase hpkt hwrite⟩

/-! A chunk read that ends no receive loop with a reply -/

theorem exec_of_read_error {i : Instr} {s : State} {d dt : Nat} {e : TransportError} (hawaits : s.awaits i d)
    (hread : s.nextRead (chunkWait d s.now) = .error e dt) :
    exec i s = .next ((s.afterRead d dt s.rxBuf).endedWith (.err (.transport e))) := by
  rw [exec_of_awaits hawaits, ← calls_eq_afterRead]
  obtain ⟨-, -, hd⟩ := hawaits
  simp only [receive, hd, hread]
  simp [State.finish, State.answer, State.endedWith]

/-- Settles O34: a failed send and a failed chunk read. -/
theorem transportErrorsAreReturnedVerbatim : Obligations.TransportErrorsAreReturnedVerbatim :=
  ⟨fun _ _ _ _ _ hop hphase hpkt hwrite => exec_of_write_error hop hphase hpkt hwrite,
    fun _ _ _ _ _ hawaits hread => exec_of_read_error hawaits hread⟩

/-- Settles O38: the reframer is incomplete and the deadline has not passed, so the loop goes on. -/
theorem incompleteChunkIsKept : Obligations.IncompleteChunkIsKept := by
  intro i s d dt c b hawaits hread hincomplete hearly
  rw [exec_of_awaits hawaits]
  obtain ⟨-, -, hd⟩ := hawaits
  have hread : s.nextRead (chunkWait d s.now) = .data c dt := hread
  simp only [receive, hd, hread, hincomplete, calls_eq_afterRead]
  exact if_neg (by simpa using hearly)

/-! The reply of an operation that reads one -/

/-- The end of the operation by its reply, with the read's effects. -/
theorem exec_ends_of_withReply {i : Instr} {s : State} {d dt : Nat} {buf : List Byte} {o : Reply} {x : OpOutcome}
    (hawaits : s.awaits i d) (hreply : s.receives d dt buf o)
    (h : withReply i o (s.afterRead d dt buf) = (s.afterRead d dt buf).endedWith x) :
    exec i s = .next ((s.afterRead d dt buf).endedWith x) := by
  rw [exec_of_receives hawaits hreply, h]

/-- Settles O39: the reply completes the operation with its status info. -/
theorem statusInfoIsReturned : Obligations.StatusInfoIsReturned :=
  fun _ _ _ _ _ r hinfo hawaits hreply => exec_ends_of_withReply hawaits hreply (withReply_info hinfo r _)

/-- An operation that awaits one reply returns why there is none. -/
theorem withReply_of_awaitsOneReply {i : Instr} (h : AwaitsOneReply i) (s : State) :
    (∀ e, withReply i (.packet (.error e)) s = s.raise e) ∧ withReply i .noResponse s = s.raise .noResponse := by
  obtain hinfo | ⟨id, target, rfl⟩ := h
  · cases i with
    | ping _ | recovery _ | reset _ | regWrite _ _ => exact ⟨fun _ => rfl, rfl⟩
    | write _ _ awaited =>
      cases awaited with
      | true => exact ⟨fun _ => rfl, rfl⟩
      | false => cases hinfo
    | read _ _ | action _ | syncRead _ _ | syncWrite _ => cases hinfo
  · exact ⟨fun _ => rfl, rfl⟩

/-- Settles O40: either failure of the one reply is raised. -/
theorem failedReplyIsReturned : Obligations.FailedReplyIsReturned := by
  intro i s d dt buf hone hawaits
  obtain ⟨herror, hnone⟩ := withReply_of_awaitsOneReply hone (s.afterRead d dt buf)
  exact ⟨fun e hreply => exec_ends_of_withReply hawaits hreply (herror e),
    fun hreply => exec_ends_of_withReply hawaits hreply hnone⟩

/-- A READ whose reply's parameters give a reading returns it. -/
theorem exec_read_of_slotGives {s : State} {id : Int} {target : ReadForm} {d dt : Nat} {buf : List Byte} {r : Response}
    {v : Reading} (hawaits : s.awaits (.read id target) d) (hreply : s.receives d dt buf (.packet (.ok r)))
    (h : slotGives s.params target r.params v) :
    exec (.read id target) s = .next ((s.afterRead d dt buf).endedWith (.ok (.reading v (statusInfo r.id r.status)))) :=
  exec_ends_of_withReply hawaits hreply (withReply_read (by rwa [State.afterRead_params]) id)

/-- Settles O41: parameters of the right length give the reading. -/
theorem readReturnsTheValue : Obligations.ReadReturnsTheValue :=
  fun _ _ _ _ _ _ hreply => ⟨fun _ _ reg hawaits hmem hlen => exec_read_of_slotGives hawaits hreply ⟨reg, hmem, hlen, rfl⟩,
    fun _ _ hawaits hlen => exec_read_of_slotGives hawaits hreply ⟨hlen, rfl⟩⟩

/-- The parameters that are read are those that give a reading. -/
theorem readParams_eq_some_iff {p : Params} {target : ReadForm} {params : List Byte} {v : Reading} :
    readParams p target params = some v ↔ slotGives p target params v := by
  refine ⟨fun h => ?_, readParams_of_slotGives⟩
  cases target with
  | named name view =>
    obtain ⟨reg, hmem, hfind, -⟩ | ⟨hfind, -⟩ := Laws.findRegister_cases p name
    · simp only [readParams, hfind, Option.ite_none_right_eq_some, Option.some.injEq] at h
      obtain ⟨hlen, rfl⟩ := h
      refine ⟨reg, hmem, hlen, ?_⟩
      cases view <;> rfl
    · simp [readParams, hfind] at h
  | addressed a l =>
    simp only [readParams, Option.ite_none_right_eq_some, Option.some.injEq] at h
    obtain ⟨hlen, rfl⟩ := h
    exact ⟨hlen, rfl⟩

theorem readParams_eq_none {p : Params} {target : ReadForm} {params : List Byte} (h : ∀ v, ¬slotGives p target params v) :
    readParams p target params = none :=
  Option.eq_none_iff_forall_ne_some.2 fun v hv => h v (readParams_eq_some_iff.1 hv)

/-- Parameters of another length than the one asked for give no reading. -/
theorem not_slotGives_of_length_ne {p : Params} {target : ReadForm} {params : List Byte}
    (h : (∃ name view reg, target = .named name view ∧ (name, reg) ∈ p.table.registers ∧ params.length ≠ reg.length)
      ∨ ∃ a l : Int, target = .addressed a l ∧ (params.length : Int) ≠ l) (v : Reading) :
    ¬slotGives p target params v := by
  obtain ⟨name, view, reg, rfl, hmem, hlen⟩ | ⟨a, l, rfl, hlen⟩ := h
  · rintro ⟨reg', hmem', hlen', -⟩
    have hsame := (Laws.findRegister_of_mem hmem).symm.trans (Laws.findRegister_of_mem hmem')
    exact hlen (Option.some.inj hsame ▸ hlen')
  · exact fun hgives => hlen hgives.1

/-- Settles O42: without a reading the fault is recorded. -/
theorem readOfWrongLengthFaults : Obligations.ReadOfWrongLengthFaults := by
  intro s id target d dt buf r hawaits hreply hlen
  have hnone : readParams s.params target r.params = none := readParams_eq_none (not_slotGives_of_length_ne hlen)
  rw [exec_of_receives hawaits hreply]
  simp only [withReply, readReply, State.afterRead_params, hnone]
  simp [State.recordFault, State.endedWith, State.finish, State.answer]

/-- A drained reply that fails to come or to parse is returned as the policy says (D27). -/
def drainOutcome (policy : DrainPolicy) (e : Error) : OpOutcome :=
  match policy with
  | .discard => .ok .unit
  | .surface => .err e

theorem withReply_drained_failed (id : Int) (form : WriteForm) (s : State) :
    (∀ e, withReply (.write id form false) (.packet (.error e)) s = s.endedWith (drainOutcome s.drainPolicy e))
      ∧ withReply (.write id form false) .noResponse s = s.endedWith (drainOutcome s.drainPolicy .noResponse) := by
  simp only [withReply, writeReply, drainReply]
  cases s.drainPolicy <;> exact ⟨fun _ => rfl, rfl⟩

/-- Settles O43: the policy decides only on a reply that fails. -/
theorem drainedWriteDiscardsTheReply : Obligations.DrainedWriteDiscardsTheReply := by
  intro s id form d dt buf hawaits
  obtain ⟨herror, hnone⟩ := withReply_drained_failed id form (s.afterRead d dt buf)
  simp only [State.afterRead_drainPolicy] at herror hnone
  exact ⟨fun r hreply => exec_ends_of_withReply hawaits hreply (withReply_drained id form r _),
    fun e hreply => exec_ends_of_withReply hawaits hreply (herror e),
    fun hreply => exec_ends_of_withReply hawaits hreply hnone⟩

/-! The slots of a SYNC_READ -/

section
variable {ids : List Int} {s : State}

theorem nextSlot_of_lt (h : s.slot + 1 < ids.length) :
    nextSlot ids s = { s with slot := s.slot + 1, deadline := some (s.now + s.timeoutMs) } :=
  if_pos h

theorem nextSlot_of_last (h : s.slot + 1 = ids.length) :
    nextSlot ids s = s.endedWith (if s.failed then .err .partialRead else .ok (.readings s.acc)) := by
  rw [nextSlot, if_neg h.not_lt]
  cases s.failed <;> rfl

end

/-- Settles O44: the reading is gathered, and the next slot read or the list returned. -/
theorem syncReadSlotSucceeds : Obligations.SyncReadSlotSucceeds := by
  intro s ids target d dt buf r v hawaits hphase hfailed hreply hid hgives
  have hslot := withReply_slot (s := s.afterRead d dt buf) (r := r) (by simpa using hgives)
    (by rw [State.afterRead_slot]; exact hid) (by simpa using hfailed)
  rw [exec_of_receives hawaits hreply, hslot]
  refine ⟨fun hlt => ?_, fun hlast => ?_⟩
  · rw [nextSlot_of_lt (by simpa using hlt)]
    simp only [State.afterRead_acc, State.afterRead_slot, State.afterRead_now, State.afterRead_timeoutMs]
    rfl
  · rw [nextSlot_of_last (by simpa using hlast)]
    simp only [State.afterRead_acc, State.afterRead_failed, hfailed]
    rfl

/-- What makes a slot of a SYNC_READ fail (44_transactor.md R236). -/
def SlotFails (ids : List Int) (target : ReadForm) (o : Reply) (s : State) : Prop :=
  o = .noResponse ∨ (∃ e, o = .packet (.error e)) ∨ s.failed = true
    ∨ ∃ r, o = .packet (.ok r) ∧ (ids[s.slot]? ≠ some (byteInt r.id) ∨ ∀ v, ¬slotGives s.params target r.params v)

theorem slotReading_eq_none {ids : List Int} {target : ReadForm} {o : Reply} {s : State} (h : SlotFails ids target o s) :
    slotReading ids target o s = none := by
  obtain rfl | ⟨e, rfl⟩ | hfailed | ⟨r, rfl, hid | hgives⟩ := h
  · rfl
  · rfl
  · exact Option.eq_none_iff_forall_ne_some.2 fun e he =>
      absurd (hfailed.symm.trans (slotReading_eq_some he)) (by decide)
  · exact if_neg fun hslot => hid hslot.2
  · simp only [slotReading, readParams_eq_none hgives, Option.map_none, ite_self]

/-- A failed slot is marked, and the rest is drained. -/
theorem withReply_failed_slot {ids : List Int} {target : ReadForm} {o : Reply} {s : State} (h : SlotFails ids target o s) :
    withReply (.syncRead ids target) o s = nextSlot ids { s with failed := true, phase := .draining } := by
  simp only [withReply, syncReadReply, closeSlot, slotReading_eq_none h]

/-- Settles O45: the failure is marked, and the next slot read or `partial_read` returned. -/
theorem syncReadSlotFails : Obligations.SyncReadSlotFails := by
  intro s ids target d dt buf o hawaits hslot hreply hfails
  have hfails' : SlotFails ids target o (s.afterRead d dt buf) := by
    rw [SlotFails, State.afterRead_failed, State.afterRead_slot, State.afterRead_params]
    exact hfails
  rw [exec_of_receives hawaits hreply, withReply_failed_slot hfails']
  refine ⟨fun hlt => ?_, fun hlast => ?_⟩
  · rw [nextSlot_of_lt (by simpa using hlt)]
    simp only [State.afterRead_slot, State.afterRead_now, State.afterRead_timeoutMs]
  · rw [nextSlot_of_last (by simpa using hlast)]
    rfl

end Sys2Proof.Machine
end

section
/-! What the caller does during an operation, and the lifecycle (60_exceptions.md section 7, 70_reset_and_hazards.md). A whole
transaction, its three transitions put together (44_transactor.md sections 1 and 2). -/

namespace Sys2Proof.Machine

/-! The caller's acts -/

/-- A step at which the caller acts is its act, not the operation's next transition. -/
theorem step_of_interrupt {s : State} {a : Interrupt} {rest : List (Option Interrupt)} (hphase : s.phase ≠ .idle)
    (hop : s.op ≠ none) (h : s.interrupts = some a :: rest) :
    step s = .next (({ s with interrupts := rest } : State).interrupted a) := by
  obtain ⟨i, hi⟩ := Option.ne_none_iff_exists'.1 hop
  rw [step_of_not_idle hphase, stepInFlight, hi, h]

theorem refuseConcurrent_of_busy {s : State} (hopen : s.transport = .opened) (hbusy : s.phase ≠ .idle) (i : Instr) :
    s.refuseConcurrent i = s.refuse .busy := by
  rw [State.refuseConcurrent, admission_of_busy i hopen hbusy]

/-- Settles O47: a second request is refused as busy, and a cancel is the end of the operation. -/
theorem callerActsDuringAnOperation : Obligations.CallerActsDuringAnOperation := by
  refine ⟨fun s j rest hphase hop hopen h => ?_, fun s rest hphase hop h => step_of_interrupt hphase hop h⟩
  rw [step_of_interrupt hphase hop h, State.interrupted,
    refuseConcurrent_of_busy (s := { s with interrupts := rest }) hopen hphase]
  rfl

theorem teardown_of_closed {s : State} (h : s.transport = .closed) : s.teardown = s := if_pos h

theorem teardown_of_idle {s : State} (hopen : s.transport = .opened) (hidle : s.phase = .idle) :
    s.teardown = { s with transport := .closed, trace := s.trace ++ [.close] } := by
  rw [State.teardown, hopen, if_neg (by decide), if_neg (not_not.2 hidle)]
  rfl

theorem teardown_of_busy {s : State} (hopen : s.transport = .opened) (hbusy : s.phase ≠ .idle) :
    s.teardown = { s.endedWith .cancelled with transport := .closed, trace := s.trace ++ [.close] } := by
  rw [State.teardown, hopen, if_neg (by decide), if_pos hbusy]
  rfl

/-- Settles O48: a teardown at an idle, at a busy and at a closed transactor. -/
theorem teardownClosesOnce : Obligations.TeardownClosesOnce := by
  refine ⟨fun s rest hready hreq => ?_, fun s rest hopen hphase hop h => ?_, fun s rest hclosed hidle hreq => ?_⟩
  · obtain ⟨hopen, hidle⟩ := hready
    rw [step_of_request hidle hreq, serve, teardown_of_idle (s := { s with requests := rest }) hopen hidle]
  · rw [step_of_interrupt hphase hop h, State.interrupted, teardown_of_busy (s := { s with interrupts := rest }) hopen hphase]
  · rw [step_of_request hidle hreq, serve, teardown_of_closed (s := { s with requests := rest }) hclosed]

/-- Settles O49: the answers of `construct`, read off its definition. -/
theorem constructionGivesTheResetState : Obligations.ConstructionGivesTheResetState :=
  fun _ _ _ _ _ => ⟨⟨_, rfl, rfl, rfl, rfl, rfl, rfl, rfl, rfl, rfl, rfl, rfl, rfl, rfl, rfl, rfl, rfl⟩,
    fun _ => rfl, fun _ => rfl⟩

/-! A whole transaction -/

theorem nextWrite_of_writes {s : State} {e : WriteEvent} {rest : List WriteEvent} (h : s.writes = e :: rest) :
    s.nextWrite = e := by
  rw [State.nextWrite, h]

theorem dropWrite_of_writes {s : State} {e : WriteEvent} {rest : List WriteEvent} (h : s.writes = e :: rest) :
    s.dropWrite = { s with writes := rest } := by
  rw [State.dropWrite, h]

theorem nextRead_of_reads {s : State} {e : ReadEvent} {rest : List ReadEvent} (h : s.reads = e :: rest) (wait : Nat) :
    s.nextRead wait = answerWithin wait e := by
  rw [State.nextRead, h]

theorem dropRead_of_reads {s : State} {e : ReadEvent} {rest : List ReadEvent} (h : s.reads = e :: rest) :
    s.dropRead = { s with reads := rest } := by
  rw [State.dropRead, h]

section
variable {s : State} {i : Instr} {pkt : List Byte}

/-- The first step of a transaction: the request is admitted and its packet built. -/
theorem step_of_admitted_request {rest : List Request} (hready : s.ready) (hreq : s.requests = .call i :: rest)
    (hids : admitIds i = none) (hpkt : encode s.params i = .ok pkt) :
    step s = .next { s with requests := rest, op := some i, phase := .sending } := by
  rw [step_of_request hready.2 hreq]
  exact exec_of_admitted (s := { s with requests := rest }) hready hids hpkt

/-- The second step: the scripted transport takes the packet, and the reply is awaited for one timeout. -/
theorem step_of_scripted_write {a : Nat} {ws : List WriteEvent} (hop : s.op = some i) (hphase : s.phase = .sending)
    (hquiet : s.interrupts = []) (hone : AwaitsOneReply i) (hpkt : encode s.params i = .ok pkt)
    (hwrites : s.writes = .ok a :: ws) :
    step s = .next { s with
      phase := .awaitingResponse, deadline := some (s.now + a + s.timeoutMs), writes := ws, now := s.now + a,
      trace := s.trace ++ [.write pkt] } := by
  rw [step_of_quiet (by simp [hphase]) hop hquiet, exec_of_written hop hphase hpkt (nextWrite_of_writes hwrites),
    afterWritten_of_awaitsOneReply hone, startReceive_afterWrite, State.afterWrite, dropWrite_of_writes hwrites]

/-- The third step: a reply frame in one scripted chunk ends the receive loop, whatever the deadline. -/
theorem step_of_scripted_reply {d b : Nat} {rs : List ReadEvent} {rid st : Byte} {ps : List Byte} (hawaits : s.awaits i d)
    (hquiet : s.interrupts = []) (hinfo : returnsInfo i = true) (hbuf : s.rxBuf = []) (hps : ps.length ≤ 253)
    (hreads : s.reads = .data (replyFrame rid st ps) b :: rs) :
    step s = .next (({ s with
      reads := rs, now := s.now + min b (chunkWait d s.now),
      trace := s.trace ++ [.read (chunkWait d s.now)] } : State).endedWith (.ok (.info (statusInfo rid st)))) := by
  have hread : s.nextRead (chunkWait d s.now) = .data (replyFrame rid st ps) (min b (chunkWait d s.now)) :=
    nextRead_of_reads hreads _
  have hextract := Laws.extractPacket_piece_append (Laws.isPiece_replyFrame rid st hps) []
  have hparse := Laws.parseResponse_replyFrame rid st hps []
  rw [List.append_nil] at hextract hparse
  have hreply : s.receives d (min b (chunkWait d s.now)) [] (.packet (.ok ⟨rid, st, ps⟩)) :=
    ⟨_, hread, .inl ⟨_, by rw [hbuf]; exact hextract, by rw [hparse]⟩⟩
  have ⟨hop, hreceiving, _⟩ := hawaits
  rw [step_of_quiet (phase_ne_idle_of_receiving hreceiving) hop hquiet, exec_of_receives hawaits hreply,
    withReply_info hinfo, State.afterRead, dropRead_of_reads hreads, ← hbuf]
  rfl

end

/-- Settles O59: the three steps one after the other. -/
theorem transactionReturnsTheReplysStatus : Obligations.TransactionReturnsTheReplysStatus := by
  intro s i rest pkt a b ws rs rid st ps hready hbuf hquiet hreq hinfo hids hpkt hwrites hps hreads hop hslot hacc hfailed
  have hwait : chunkWait (s.now + a + s.timeoutMs) (s.now + a) = min 10 s.timeoutMs := by
    rw [chunkWait, Nat.add_sub_cancel_left]
  have hfirst := step_of_admitted_request hready hreq hids hpkt
  have hsecond := step_of_scripted_write (s := { s with requests := rest, op := some i, phase := .sending }) rfl rfl hquiet
    (.inl hinfo) hpkt hwrites
  have hthird := step_of_scripted_reply (s := { s with
      requests := rest, op := some i, phase := .awaitingResponse, deadline := some (s.now + a + s.timeoutMs), writes := ws,
      now := s.now + a, trace := s.trace ++ [.write pkt] }) ⟨rfl, .inl rfl, rfl⟩ hquiet hinfo hbuf hps hreads
  rw [run_succ_of_step hfirst, run_succ_of_step hsecond, run_succ_of_step hthird]
  obtain ⟨-, hidle⟩ := hready
  simp only [State.endedWith, hwait, hidle, hop, hslot, hacc, hfailed, List.append_assoc]
  rfl

end Sys2Proof.Machine
end

section
/-! What every step keeps (10_state.md sections 1 and 5, 44_transactor.md section 1): the configuration, what was recorded, the
receive buffer outside the receive loop, and a closed transport. Each part of a step first, then the inversion of a step. -/

namespace Sys2Proof.Machine

/-! The configuration and the records -/

/-- `t` has the configuration of `s` (10_state.md R24, R36), and takes back nothing that `s` recorded (R27, log 3, log 9). -/
structure Extends (s t : State) : Prop where
  controlTable : t.controlTable = s.controlTable
  timeoutMs : t.timeoutMs = s.timeoutMs
  modeUnknownRaw : t.modeUnknownRaw = s.modeUnknownRaw
  drainPolicy : t.drainPolicy = s.drainPolicy
  refused : s.refused = true → t.refused = true
  faults : s.faults <+: t.faults
  returned : s.returned <+: t.returned
  trace : s.trace <+: t.trace
  now : s.now ≤ t.now

theorem Extends.refl (s : State) : Extends s s := by
  constructor <;> simp

theorem Extends.trans {s t u : State} (h : Extends s t) (h' : Extends t u) : Extends s u where
  controlTable := h'.controlTable.trans h.controlTable
  timeoutMs := h'.timeoutMs.trans h.timeoutMs
  modeUnknownRaw := h'.modeUnknownRaw.trans h.modeUnknownRaw
  drainPolicy := h'.drainPolicy.trans h.drainPolicy
  refused := h'.refused ∘ h.refused
  faults := h.faults.trans h'.faults
  returned := h.returned.trans h'.returned
  trace := h.trace.trans h'.trace
  now := h.now.trans h'.now

section
variable (s : State)

theorem extends_finish_answer (o : OpOutcome) : Extends s (s.finish.answer o) := by
  constructor <;> simp

theorem extends_refuse (r : RefuseReason) : Extends s (s.refuse r) := by
  constructor <;> simp

theorem extends_recordFault (f : FaultReason) : Extends s (s.recordFault f) := by
  constructor <;> simp

theorem extends_rejectEagerly (e : Stop) : Extends s (s.rejectEagerly e) := by
  cases e with
  | err e => constructor <;> simp
  | refuse r => exact extends_refuse s r

theorem extends_startReceive (ph : Phase) : Extends s (s.startReceive ph) := by
  constructor <;> simp

theorem extends_afterWrite (pkt : List Byte) (dt : Nat) : Extends s (s.afterWrite pkt dt) := by
  constructor <;> simp

theorem extends_afterRead (d dt : Nat) (buf : List Byte) : Extends s (s.afterRead d dt buf) := by
  constructor <;> simp

theorem extends_begin (i : Instr) (pkt : Checked (List Byte)) : Extends s (begin i pkt s) := by
  rcases begin_cases i pkt s with ⟨r, -, h⟩ | ⟨e, -, -, h⟩ | ⟨bytes, -, -, h⟩
  · exact h ▸ extends_refuse s r
  · exact h ▸ extends_rejectEagerly s e
  · rw [h]
    constructor <;> simp

theorem extends_afterWritten (i : Instr) : Extends s (afterWritten i s) := by
  rcases afterWritten_cases i s with ⟨o, h⟩ | ⟨ph, h, -⟩ | ⟨ids, target, -, -, h⟩
  · exact h ▸ extends_finish_answer s o
  · exact h ▸ extends_startReceive s ph
  · rw [h]
    constructor <;> simp

theorem extends_withReply (i : Instr) (r : Reply) : Extends s (withReply i r s) := by
  rcases withReply_cases i r s with ⟨o, h⟩ | ⟨f, h⟩ | ⟨-, h⟩ | ⟨ids, target, -, -, ⟨-, e, h⟩ | h⟩
  · exact h ▸ extends_finish_answer s o
  · exact h ▸ extends_recordFault s f
  · exact h.symm ▸ Extends.refl s
  · rw [h]
    constructor <;> simp
  · rw [h]
    constructor <;> simp

theorem extends_refuseConcurrent (i : Instr) : Extends s (s.refuseConcurrent i) := by
  rcases refuseConcurrent_cases i s with ⟨r, -, h⟩ | ⟨-, h⟩
  · exact h ▸ extends_refuse s r
  · exact h.symm ▸ Extends.refl s

theorem extends_teardown : Extends s s.teardown := by
  rcases teardown_cases s with ⟨-, h⟩ | ⟨-, -, h⟩ | ⟨-, -, h⟩
  · exact h.symm ▸ Extends.refl s
  · rw [h]
    constructor <;> simp
  · rw [h]
    constructor <;> simp

/-- What the caller does next is no part of the configuration or the records. -/
theorem extends_with_requests (r : List Request) : Extends s { s with requests := r } := by
  constructor <;> simp

theorem extends_with_interrupts (r : List (Option Interrupt)) : Extends s { s with interrupts := r } := by
  constructor <;> simp

end

/-- Every step extends its state, by the cases of a step. -/
theorem extends_of_step {s t : State} (h : step s = .next t) : Extends s t := by
  cases stepTo_of_step h with
  | stutter => exact Extends.refl s
  | pause r ms => constructor <;> simp
  | teardownIdle r => exact (extends_with_requests s r).trans (extends_teardown _)
  | start r i => exact (extends_with_requests s r).trans (extends_begin _ i _)
  | sent r i pkt dt =>
    exact (extends_with_interrupts s r).trans ((extends_afterWrite _ pkt dt).trans (extends_afterWritten _ i))
  | sendFailed r i pkt dt o =>
    exact (extends_with_interrupts s r).trans ((extends_afterWrite _ pkt dt).trans (extends_finish_answer _ o))
  | readFailed r i d dt buf o =>
    exact (extends_with_interrupts s r).trans ((extends_afterRead _ d dt buf).trans (extends_finish_answer _ o))
  | replied r i d dt buf o =>
    exact (extends_with_interrupts s r).trans ((extends_afterRead _ d dt buf).trans (extends_withReply _ i o))
  | waiting r i d dt buf => exact (extends_with_interrupts s r).trans (extends_afterRead _ d dt buf)
  | concurrent r j => exact (extends_with_interrupts s r).trans (extends_refuseConcurrent _ j)
  | cancelled r => exact (extends_with_interrupts s r).trans (extends_finish_answer _ _)
  | teardown r => exact (extends_with_interrupts s r).trans (extends_teardown _)

/-- Settles O53: the records are part of what every step extends. -/
theorem marksAndTraceAreNeverCleared : Obligations.MarksAndTraceAreNeverCleared := fun _ _ hstep =>
  have h := extends_of_step hstep
  ⟨h.refused, h.faults, h.returned, h.trace, h.now⟩

/-- Settles O54: so is the configuration. -/
theorem configurationIsImmutable : Obligations.ConfigurationIsImmutable := fun _ _ hstep =>
  have h := extends_of_step hstep
  ⟨h.controlTable, h.timeoutMs, h.modeUnknownRaw, h.drainPolicy⟩

/-! The receive buffer -/

@[simp] theorem begin_rxBuf (i : Instr) (pkt : Checked (List Byte)) (s : State) : (begin i pkt s).rxBuf = s.rxBuf := by
  rcases begin_cases i pkt s with ⟨r, -, h⟩ | ⟨e, -, -, h⟩ | ⟨bytes, -, -, h⟩
  · rw [h, State.refuse_rxBuf]
  · cases e <;> simp [h]
  · rw [h]

@[simp] theorem afterWritten_rxBuf (i : Instr) (s : State) : (afterWritten i s).rxBuf = s.rxBuf := by
  rcases afterWritten_cases i s with ⟨o, h⟩ | ⟨ph, h, -⟩ | ⟨ids, target, -, -, h⟩ <;> simp [h]

@[simp] theorem withReply_rxBuf (i : Instr) (r : Reply) (s : State) : (withReply i r s).rxBuf = s.rxBuf := by
  rcases withReply_cases i r s with ⟨o, h⟩ | ⟨f, h⟩ | ⟨-, h⟩ | ⟨ids, target, -, -, ⟨-, e, h⟩ | h⟩ <;> simp [h]

@[simp] theorem State.refuseConcurrent_rxBuf (s : State) (i : Instr) : (s.refuseConcurrent i).rxBuf = s.rxBuf := by
  rcases refuseConcurrent_cases i s with ⟨r, -, h⟩ | ⟨-, h⟩ <;> simp [h]

@[simp] theorem State.teardown_rxBuf (s : State) : s.teardown.rxBuf = s.rxBuf := by
  rcases teardown_cases s with ⟨-, h⟩ | ⟨-, -, h⟩ | ⟨-, -, h⟩ <;> simp [h]

/-- The rule for the receive buffer `buf` after a step of `s` (10_state.md R23). -/
def BufferRule (s : State) (buf : List Byte) : Prop :=
  (¬s.receiving → buf = s.rxBuf)
    ∧ (s.receiving → buf = s.rxBuf ∨ ∃ d c dt, s.deadline = some d ∧ s.nextRead (chunkWait d s.now) = .data c dt
      ∧ ((∃ p, extractPacket (s.rxBuf ++ c) = .complete p buf) ∨ extractPacket (s.rxBuf ++ c) = .incomplete buf))

theorem bufferRule_of_eq {s : State} {buf : List Byte} (h : buf = s.rxBuf) : BufferRule s buf := ⟨fun _ => h, fun _ => .inl h⟩

theorem bufferRule_of_leavesBuffer {s : State} {d dt : Nat} {buf : List Byte} (hreceiving : s.receiving)
    (hd : s.deadline = some d) (h : leavesBuffer s d dt buf) : BufferRule s buf := by
  obtain ⟨-, hsame | ⟨c, hread, hextract⟩⟩ := h
  · exact bufferRule_of_eq hsame
  · exact ⟨fun hnot => absurd hreceiving hnot, fun _ => .inr ⟨d, c, dt, hd, hread, hextract⟩⟩

/-- Settles O55: a chunk read leaves what `leavesBuffer` says, and no other part of a step writes the buffer. -/
theorem onlyTheReceiveLoopWritesTheBuffer : Obligations.OnlyTheReceiveLoopWritesTheBuffer := by
  intro s t h
  have hrule : BufferRule s t.rxBuf := by
    cases stepTo_of_step h with
    | stutter | pause | cancelled => exact bufferRule_of_eq rfl
    | teardownIdle | teardown => exact bufferRule_of_eq (State.teardown_rxBuf _)
    | start => exact bufferRule_of_eq (begin_rxBuf ..)
    | concurrent => exact bufferRule_of_eq (State.refuseConcurrent_rxBuf ..)
    | sent => exact bufferRule_of_eq (by simp)
    | sendFailed => exact bufferRule_of_eq (by simp)
    | readFailed r i d dt buf o hp ho hd hb => exact bufferRule_of_leavesBuffer hp hd hb
    | waiting r i d dt buf hp ho hd hb => exact bufferRule_of_leavesBuffer hp hd hb
    | replied r i d dt buf o hp ho hd hb =>
      rw [withReply_rxBuf]
      exact bufferRule_of_leavesBuffer hp hd hb
  exact hrule

/-! A closed transport -/

/-- A closed transactor is idle: its operation in flight was ended by the teardown (70_reset_and_hazards.md R302). -/
theorem State.Inv.idle_of_closed {s : State} (h : s.Inv) (hclosed : s.transport = .closed) : s.phase = .idle := by
  by_contra hbusy
  exact absurd ((h.open_in_flight hbusy).symm.trans hclosed) (by decide)

/-- At a closed transactor an operation only sets the refusal mark (60_exceptions.md section 7). -/
theorem begin_of_closed (i : Instr) (pkt : Checked (List Byte)) {s : State} (h : s.transport = .closed) :
    begin i pkt s = s.refuse .closed := by
  simp only [begin, admission_of_closed i h]

/-- An idle step with a closed transport keeps it closed, calls nothing and reads nothing. -/
theorem keeps_closed_of_step {s t : State} (hidle : s.phase = .idle) (hclosed : s.transport = .closed)
    (h : step s = .next t) : t.transport = .closed ∧ t.trace = s.trace ∧ t.rxBuf = s.rxBuf := by
  cases stepTo_of_step h with
  | stutter | pause => exact ⟨hclosed, rfl, rfl⟩
  | teardownIdle r =>
    rw [teardown_of_closed (s := { s with requests := r }) hclosed]
    exact ⟨hclosed, rfl, rfl⟩
  | start r i =>
    rw [begin_of_closed i _ (s := { s with requests := r }) hclosed]
    exact ⟨hclosed, rfl, rfl⟩
  | sent _ _ _ _ hp | sendFailed _ _ _ _ _ hp => exact absurd (hidle.symm.trans hp) (by decide)
  | readFailed _ _ _ _ _ _ hp | replied _ _ _ _ _ _ hp | waiting _ _ _ _ _ hp =>
    exact absurd hidle (phase_ne_idle_of_receiving hp)
  | concurrent _ _ hp | cancelled _ hp | teardown _ hp => exact absurd hidle hp

/-- Settles O57: an operation asked for is refused by admission, in either form of the request. -/
theorem closedTransportIsNeverUsed : Obligations.ClosedTransportIsNeverUsed := by
  intro s t hinv hclosed hstep
  have hidle := hinv.idle_of_closed hclosed
  obtain ⟨htransport, htrace, hbuf⟩ := keeps_closed_of_step hidle hclosed hstep
  refine ⟨htransport, htrace, hbuf, fun i rest hreq => ?_⟩
  have hexec : step s = exec i { s with requests := rest } := by
    obtain hcall | ⟨bytes, hpacket, hdecode⟩ := hreq
    · exact step_of_request hidle hcall
    · rw [step_of_request hidle hpacket, serve, hdecode]
  rw [hexec, exec_of_not_admitted (s := { s with requests := rest }) (.inl hidle) (admission_of_closed i hclosed)] at hstep
  cases hstep
  exact ⟨rfl, rfl, rfl⟩

end Sys2Proof.Machine
end

section
/-! The invariant of the transactor (10_state.md R22, R25, R26, 44_transactor.md R220, R238): it holds after reset, and every step
keeps it. The states a step can arrive at are of four kinds, idle, sending, reading, and the same but for fields the invariant
does not speak of; each kind has its lemma. -/

namespace Sys2Proof.Machine

/-! The four kinds of states -/

/-- The transport was closed as often as R25 says. -/
def ClosedOnce (s : State) : Prop := s.trace.count .close = if s.transport = .closed then 1 else 0

/-- The cursor is at its idle values (10_state.md R22). -/
def FreshCursor (s : State) : Prop := s.deadline = none ∧ s.slot = 0 ∧ s.acc = [] ∧ s.failed = false

/-- The operation was admitted and its packet can be built. -/
def Admitted (s : State) (i : Instr) : Prop := admitIds i = none ∧ ∃ pkt, encode s.params i = .ok pkt

theorem inv_of_idle {t : State} (hphase : t.phase = .idle) (hop : t.op = none) (hcursor : FreshCursor t)
    (hclosed : ClosedOnce t) : t.Inv where
  idle_iff := by simp [hphase, hop]
  idle_cursor _ := hcursor
  open_in_flight hbusy := absurd hphase hbusy
  admitted i hi := by simp [hop] at hi
  sending_cursor hsending := by simp [hphase] at hsending
  receiving_cursor hreceiving := absurd hphase (phase_ne_idle_of_receiving hreceiving)
  sync_slots hreceiving := absurd hphase (phase_ne_idle_of_receiving hreceiving)
  single_reply hreceiving := absurd hphase (phase_ne_idle_of_receiving hreceiving)
  closed_once := hclosed

theorem inv_of_sending {t : State} {i : Instr} (hphase : t.phase = .sending) (hop : t.op = some i) (hopen : t.transport = .opened)
    (hadmitted : Admitted t i) (hcursor : FreshCursor t) (hclosed : ClosedOnce t) : t.Inv where
  idle_iff := by simp [hphase, hop]
  idle_cursor hidle := by simp [hphase] at hidle
  open_in_flight _ := hopen
  admitted j hj := by
    obtain rfl := Option.some.inj (hop.symm.trans hj)
    exact hadmitted
  sending_cursor _ := hcursor
  receiving_cursor hreceiving := by simp [State.receiving, hphase] at hreceiving
  sync_slots hreceiving := by simp [State.receiving, hphase] at hreceiving
  single_reply hreceiving := by simp [State.receiving, hphase] at hreceiving
  closed_once := hclosed

/-- The slots of a SYNC_READ so far (44_transactor.md R235, R236). -/
def SlotsSoFar (s : State) : Prop :=
  (s.failed = false → s.acc.length = s.slot) ∧ (s.failed = true ↔ s.phase = .draining)

/-- An operation other than SYNC_READ keeps the idle values while it reads, and drains only as a WRITE not awaited (R242). -/
def SingleReply (s : State) (i : Instr) : Prop :=
  s.slot = 0 ∧ s.acc = [] ∧ s.failed = false ∧ (s.phase = .draining ↔ ∃ id form, i = .write id form false)

theorem inv_of_receiving {t : State} {i : Instr} (hreceiving : t.receiving) (hop : t.op = some i) (hopen : t.transport = .opened)
    (hadmitted : Admitted t i) (hdeadline : t.deadline ≠ none) (hslot : t.slot < expectedReplies i)
    (hsync : ∀ ids target, i = .syncRead ids target → SlotsSoFar t)
    (hsingle : (∀ ids target, i ≠ .syncRead ids target) → SingleReply t i) (hclosed : ClosedOnce t) : t.Inv where
  idle_iff := by simp [phase_ne_idle_of_receiving hreceiving, hop]
  idle_cursor hidle := absurd hidle (phase_ne_idle_of_receiving hreceiving)
  open_in_flight _ := hopen
  admitted j hj := by
    obtain rfl := Option.some.inj (hop.symm.trans hj)
    exact hadmitted
  sending_cursor hsending := by simp [State.receiving, hsending] at hreceiving
  receiving_cursor _ := ⟨hdeadline, fun j hj => by
    obtain rfl := Option.some.inj (hop.symm.trans hj)
    exact hslot⟩
  sync_slots _ ids target hj := hsync ids target (Option.some.inj (hop.symm.trans hj))
  single_reply _ j hj hne := by
    obtain rfl := Option.some.inj (hop.symm.trans hj)
    exact hsingle hne
  closed_once := hclosed

/-- `t` is `s` in all that the invariant speaks of: the cursor, the transport, the parameters and the calls of `close`. -/
structure SameForInv (s t : State) : Prop where
  phase : t.phase = s.phase
  op : t.op = s.op
  deadline : t.deadline = s.deadline
  slot : t.slot = s.slot
  acc : t.acc = s.acc
  failed : t.failed = s.failed
  transport : t.transport = s.transport
  params : t.params = s.params
  closes : t.trace.count .close = s.trace.count .close

theorem State.Inv.of_same {s t : State} (h : s.Inv) (e : SameForInv s t) : t.Inv := by
  obtain ⟨hphase, hop, hdeadline, hslot, hacc, hfailed, htransport, hparams, hcloses⟩ := e
  constructor <;> simp only [State.receiving, hphase, hop, hdeadline, hslot, hacc, hfailed, htransport, hparams, hcloses]
  exacts [h.idle_iff, h.idle_cursor, h.open_in_flight, h.admitted, h.sending_cursor, h.receiving_cursor, h.sync_slots,
    h.single_reply, h.closed_once]

/-! The parts of a step -/

theorem sameForInv_refuse (s : State) (r : RefuseReason) : SameForInv s (s.refuse r) := by
  constructor <;> simp [State.params]

theorem sameForInv_rejectEagerly (s : State) (e : Stop) : SameForInv s (s.rejectEagerly e) := by
  cases e with
  | err e => constructor <;> simp [State.params]
  | refuse r => exact sameForInv_refuse s r

theorem sameForInv_afterWrite (s : State) (pkt : List Byte) (dt : Nat) : SameForInv s (s.afterWrite pkt dt) := by
  constructor <;> simp

theorem sameForInv_afterRead (s : State) (d dt : Nat) (buf : List Byte) : SameForInv s (s.afterRead d dt buf) := by
  constructor <;> simp

section
variable {s : State} (h : s.Inv)
include h

/-- The invariant does not speak of what the caller asks for next. -/
theorem State.Inv.with_requests (r : List Request) : ({ s with requests := r } : State).Inv := { h with }

/-- Whatever ends an operation leaves an idle transactor. -/
theorem State.Inv.finish_answer (o : OpOutcome) : (s.finish.answer o).Inv :=
  inv_of_idle rfl rfl ⟨rfl, rfl, rfl, rfl⟩ h.closed_once

theorem State.Inv.recordFault (f : FaultReason) : (s.recordFault f).Inv :=
  inv_of_idle rfl rfl ⟨rfl, rfl, rfl, rfl⟩ h.closed_once

/-- The start of an operation refuses it, or leaves it sending with a fresh cursor. -/
theorem State.Inv.begin (i : Instr) : (begin i (encode s.params i) s).Inv := by
  rcases begin_cases i (encode s.params i) s with ⟨r, -, hr⟩ | ⟨e, -, -, he⟩ | ⟨pkt, hadmission, hpkt, hsend⟩
  · rw [hr]
    exact h.of_same (sameForInv_refuse s r)
  · rw [he]
    exact h.of_same (sameForInv_rejectEagerly s e)
  · rw [hsend]
    obtain ⟨hopen, hidle, hids⟩ := (admission_eq_none_iff i s).1 hadmission
    exact inv_of_sending rfl rfl hopen ⟨hids, pkt, hpkt⟩ (h.idle_cursor hidle) h.closed_once

/-- A written packet ends the operation or starts its receive loop, at slot 0 of as many replies as it expects. -/
theorem State.Inv.afterWritten {i : Instr} (hphase : s.phase = .sending) (hop : s.op = some i) : (afterWritten i s).Inv := by
  have hopen := h.open_in_flight (by simp [hphase])
  obtain ⟨-, hslot, hacc, hfailed⟩ := h.sending_cursor hphase
  rcases afterWritten_cases i s with ⟨o, ho⟩ | ⟨ph, hph, hone, hne, hreceiving, hdraining⟩ |
    ⟨ids, target, rfl, hids, hstart⟩
  · rw [ho]
    exact h.finish_answer o
  · rw [hph]
    exact inv_of_receiving hreceiving hop hopen (h.admitted i hop) (by simp) (by simp [hslot, hone])
      (fun ids target hi => absurd hi (hne ids target)) (fun _ => ⟨hslot, hacc, hfailed, hdraining⟩) h.closed_once
  · rw [hstart]
    exact inv_of_receiving (.inl rfl) hop hopen (h.admitted _ hop) (by simp) (List.length_pos_iff.2 hids)
      (fun _ _ _ => by simp [SlotsSoFar]) (fun hne => absurd rfl (hne ids target)) h.closed_once

/-- A reply ends the operation, or closes a slot of a SYNC_READ and opens the next. -/
theorem State.Inv.withReply {i : Instr} (hreceiving : s.receiving) (hop : s.op = some i) (r : Reply) : (withReply i r s).Inv := by
  have hopen := h.open_in_flight (phase_ne_idle_of_receiving hreceiving)
  rcases withReply_cases i r s with ⟨o, ho⟩ | ⟨f, hf⟩ | ⟨-, hsame⟩ |
    ⟨ids, target, rfl, hslot, ⟨hfailed, e, hnext⟩ | hnext⟩
  · rw [ho]
    exact h.finish_answer o
  · rw [hf]
    exact h.recordFault f
  · rwa [hsame]
  · obtain ⟨hlength, hdraining⟩ := h.sync_slots hreceiving ids target hop
    rw [hnext]
    exact inv_of_receiving hreceiving hop hopen (h.admitted _ hop) (by simp) hslot
      (fun _ _ _ => ⟨fun _ => by simp [hlength hfailed], hdraining⟩) (fun hne => absurd rfl (hne ids target)) h.closed_once
  · rw [hnext]
    exact inv_of_receiving (.inr rfl) hop hopen (h.admitted _ hop) (by simp) hslot
      (fun _ _ _ => by simp [SlotsSoFar]) (fun hne => absurd rfl (hne ids target)) h.closed_once

theorem State.Inv.refuseConcurrent (i : Instr) : (s.refuseConcurrent i).Inv := by
  rcases refuseConcurrent_cases i s with ⟨r, -, hr⟩ | ⟨-, hsame⟩
  · rw [hr]
    exact h.of_same (sameForInv_refuse s r)
  · rwa [hsame]

/-- Closing an open transport is its first close, and leaves an idle transactor (70_reset_and_hazards.md R302). -/
theorem State.Inv.teardown : s.teardown.Inv := by
  have closes (hopen : s.transport = .opened) : (s.trace ++ [TransportCall.close]).count .close = 1 := by
    have hcount := h.closed_once
    rw [hopen, if_neg (by decide)] at hcount
    rw [List.count_append, hcount]
    rfl
  rcases teardown_cases s with ⟨-, hsame⟩ | ⟨hopen, hidle, hidleTeardown⟩ | ⟨hopen, -, hbusyTeardown⟩
  · rwa [hsame]
  · rw [hidleTeardown]
    exact inv_of_idle hidle (h.idle_iff.1 hidle) (h.idle_cursor hidle) (closes hopen)
  · rw [hbusyTeardown]
    exact inv_of_idle rfl rfl ⟨rfl, rfl, rfl, rfl⟩ (closes hopen)

theorem State.Inv.afterWrite (pkt : List Byte) (dt : Nat) : (s.afterWrite pkt dt).Inv :=
  h.of_same (sameForInv_afterWrite s pkt dt)

theorem State.Inv.afterRead (d dt : Nat) (buf : List Byte) : (s.afterRead d dt buf).Inv :=
  h.of_same (sameForInv_afterRead s d dt buf)

end

/-- Settles O50: the reset state is idle with a fresh cursor. -/
theorem resetSatisfiesTheInvariant : Obligations.ResetSatisfiesTheInvariant :=
  inv_of_idle rfl rfl ⟨rfl, rfl, rfl, rfl⟩ rfl

/-- Settles O51: each case of a step by the parts it is made of. -/
theorem stepKeepsTheInvariant : Obligations.StepKeepsTheInvariant := by
  intro s t h hstep
  cases stepTo_of_step hstep with
  | stutter => exact h
  | pause => exact { h with }
  | teardownIdle r => exact (h.with_requests r).teardown
  | start r i => exact (h.with_requests r).begin i
  | sent r i pkt dt hphase hop =>
    exact ((h.with_interrupts r).afterWrite pkt dt).afterWritten (by simpa using hphase) (by simpa using hop)
  | sendFailed r i pkt dt o => exact ((h.with_interrupts r).afterWrite pkt dt).finish_answer o
  | readFailed r i d dt buf o => exact ((h.with_interrupts r).afterRead d dt buf).finish_answer o
  | replied r i d dt buf o hreceiving hop =>
    exact ((h.with_interrupts r).afterRead d dt buf).withReply (by simpa [State.receiving] using hreceiving)
      (by simpa using hop) o
  | waiting r i d dt buf => exact (h.with_interrupts r).afterRead d dt buf
  | concurrent r j => exact (h.with_interrupts r).refuseConcurrent j
  | cancelled r => exact (h.with_interrupts r).finish_answer _
  | teardown r => exact (h.with_interrupts r).teardown

end Sys2Proof.Machine
end
